-- ==== Sys2Proof/Word.lean ====
section
/-! DEFINITION. The data widths of the 65020 (00_scope.md R6, R8): byte, word, longword, and the operation width
that field D of an instruction selects. -/

namespace Sys2Proof

/-- A byte: the 8 bit datum (R8). -/
abbrev Byte := BitVec 8

/-- A word: the contents of one memory location (R8, R50). -/
abbrev Word := BitVec 16

/-- A longword: a 32 bit datum, a register's contents, or an address (R6, R8). -/
abbrev Long := BitVec 32

/-- The operation width field D selects (R83): `byte` is D = 1, `long` is D = 0. -/
inductive Width where
  | byte
  | long
deriving DecidableEq, Repr

/-- The number `n` of bits of an operation (R8, R83). -/
abbrev Width.bits : Width → Nat
  | .byte => 8
  | .long => 32

end Sys2Proof
end

