-- ==== Sys2Proof/Machine/Bits.lean ====
section
/-! DEFINITION. The layout of a longword in two words, the zero-page address, and the fields of an opcode word. -/

namespace Sys2Proof.Machine

/-- The byte in bits 7:0 of a word (20_memory.md R51). -/
def lowByte (w : Word) : Byte := w.extractLsb' 0 8

/-- Bits 15:8 of a word. -/
def highByte (w : Word) : Byte := w.extractLsb' 8 8

/-- `join(w0, w1)`: the longword in two consecutive words, `w0` at the lower address (00_scope.md R9). -/
def join (w0 w1 : Word) : Long := highByte w1 ++ highByte w0 ++ lowByte w1 ++ lowByte w0

/-- The first word of `split(v)`, the one at the lower address (00_scope.md R9). -/
def splitLow (v : Long) : Word := v.extractLsb' 16 8 ++ v.extractLsb' 0 8

/-- The second word of `split(v)` (00_scope.md R9). -/
def splitHigh (v : Long) : Word := v.extractLsb' 24 8 ++ v.extractLsb' 8 8

/-- `zpaddr(o)`: the zero-page address of an operand word (30_encoding.md R96). -/
def zpaddr (o : Word) : Long := join o 0xFF00

/-- `zext_32` of a datum of any width (00_scope.md R8). -/
def zext {n : Nat} (v : BitVec n) : Long := v.setWidth 32

/-- `sext_32` of a byte (00_scope.md R8). -/
def sext (v : Byte) : Long := v.signExtend 32

/-- `v` with its low bits replaced by a datum of the operation width, the rest kept (10_state.md R25). -/
def replaceLow (w : Width) (old : Long) (v : BitVec w.bits) : Long :=
  match w, v with
  | .byte, v => old.extractLsb' 8 24 ++ v
  | .long, v => v

/-! Fields of the opcode word (30_encoding.md R80 to R82). -/

/-- `op`: bits 7:0. -/
def fieldOp (w : Word) : Byte := w.extractLsb' 0 8

/-- `xP`: bit 15; true selects the standard operation (R83). -/
def fieldP (w : Word) : Bool := w.getLsbD 15

/-- `xD`: bit 14; 1 is an 8 bit instruction (R83). -/
def fieldD (w : Word) : Width := if w.getLsbD 14 then .byte else .long

/-- `xR`: bits 13:12 (formats 0 and 3). -/
def fieldR (w : Word) : Fin 4 := (w.extractLsb' 12 2).toFin

/-- `xI`: bit 11 (format 3); 1 is an 8 bit index (R85). -/
def fieldI (w : Word) : Width := if w.getLsbD 11 then .byte else .long

/-- `xX`: bits 10:8 (formats 1 and 3). -/
def fieldX (w : Word) : BitVec 3 := w.extractLsb' 8 3

/-- `xN`: bits 13:11 (format 1). -/
def fieldN (w : Word) : BitVec 3 := w.extractLsb' 11 3

/-- `xS`: bits 11:8 (format 0). -/
def fieldS (w : Word) : BitVec 4 := w.extractLsb' 8 4

/-- `xV`: bits 14:8 (format 2). -/
def fieldV (w : Word) : BitVec 7 := w.extractLsb' 8 7

end Sys2Proof.Machine
end

