-- ==== Sys2Proof/Syntax.lean ====
section
/-! DEFINITION. The instructions of the 65020 as data. One constructor per mnemonic of spec/opcode_table.json, 89 in
all; a row of the table (330 in all) is a constructor together with one operand form (log 15). Field values are
decoded: a register is a register, not a number of an encoding, and the S masks of 30_encoding.md R88 are already
applied. -/

namespace Sys2Proof

/-- The fourth group of registers, in the order of both encoding tables (10_state.md R21). -/
inductive G3 where
  | pc
  | z0
  | z1
  | sp
deriving DecidableEq, Repr

/-- The sixteen registers of the S table (10_state.md R22). -/
inductive Reg where
  | a (i : Fin 4)
  | y (i : Fin 4)
  | x (i : Fin 4)
  | g3 (g : G3)
deriving DecidableEq, Repr

/-- What field X selects (30_encoding.md R86): a register of the fourth group, or register `i` of "X or Y", the file
being settled by the addressing mode or the mnemonic. -/
inductive IndexReg where
  | g3 (g : G3)
  | file (i : Fin 4)
deriving DecidableEq, Repr

/-- Fields X and I (30_encoding.md R85, R86): the index register and the size of the index. -/
structure Index where
  reg : IndexReg
  size : Width
deriving DecidableEq, Repr

/-- The addressing modes that yield an effective address, with their operand words (30_encoding.md R93 to R103). -/
inductive MemMode where
  /-- `zp` (R96), with the operand word. -/
  | zp (o : Word)
  /-- `zp,X` (R97). -/
  | zpX (o : Word) (ix : Index)
  /-- `zp,Y` (R97). -/
  | zpY (o : Word) (ix : Index)
  /-- `abs` (R98), with the address. -/
  | abs (base : Long)
  /-- `abs,X` (R98). -/
  | absX (base : Long) (ix : Index)
  /-- `abs,Y` (R98). -/
  | absY (base : Long) (ix : Index)
  /-- `(abs)` (R99). -/
  | ind (base : Long)
  /-- `(abs,X)` (R100). -/
  | indX (base : Long) (ix : Index)
  /-- `(abs),Y` (R101). -/
  | indY (base : Long) (ix : Index)
  /-- `(zp,X)` (R102). -/
  | zpIndX (o : Word) (ix : Index)
  /-- `(zp),Y` (R103). -/
  | zpIndY (o : Word) (ix : Index)
deriving DecidableEq, Repr

/-- The operand of an instruction that reads: `imm` (R95), `acc` (R104) or a memory mode (R107). A byte immediate is
held zero-extended. -/
inductive Operand where
  | imm (v : Long)
  | acc (r : Reg)
  | mem (m : MemMode)
deriving DecidableEq, Repr

/-- The operand of a read-modify-write instruction (41_group1_shifts.md R160): a register or a memory mode. -/
inductive Place where
  | acc (r : Reg)
  | mem (m : MemMode)
deriving DecidableEq, Repr

/-- The instructions, by group. `w` is field D, `r` field R (in the file the mnemonic names), `sr` a stack register,
`s` a second register, `d` a displacement, `k` the constant `8 - xN`. -/
inductive Instr where
  -- Group 0, the ADC group (40_group0_accumulator.md).
  | ora (w : Width) (r : Fin 4) (o : Operand)
  | and (w : Width) (r : Fin 4) (o : Operand)
  | eor (w : Width) (r : Fin 4) (o : Operand)
  | adc (w : Width) (r : Fin 4) (o : Operand)
  | sta (w : Width) (r : Fin 4) (m : MemMode)
  | lda (w : Width) (r : Fin 4) (o : Operand)
  | cmp (w : Width) (r : Fin 4) (o : Operand)
  | sbc (w : Width) (r : Fin 4) (o : Operand)
  | add (w : Width) (r : Fin 4) (o : Operand)
  | sub (w : Width) (r : Fin 4) (o : Operand)
  | sts (w : Width) (g : G3) (m : MemMode)
  | ads (w : Width) (g : G3) (o : Operand)
  | sbs (w : Width) (g : G3) (o : Operand)
  -- Group 1, the ASL group (41_group1_shifts.md).
  | asl (w : Width) (p : Place)
  | lsr (w : Width) (p : Place)
  | rol (w : Width) (p : Place)
  | ror (w : Width) (p : Place)
  | dec (w : Width) (p : Place)
  | inc (w : Width) (p : Place)
  | asr (w : Width) (p : Place)
  | exg (w : Width) (r : Fin 4) (p : Place)
  -- Group 2, the branches (42_group2_branches.md).
  | bpl (w : Width) (d : Long)
  | bmi (w : Width) (d : Long)
  | bvc (w : Width) (d : Long)
  | bvs (w : Width) (d : Long)
  | bcc (w : Width) (d : Long)
  | bcs (w : Width) (d : Long)
  | bne (w : Width) (d : Long)
  | beq (w : Width) (d : Long)
  | bge (w : Width) (d : Long)
  | blt (w : Width) (d : Long)
  | ble (w : Width) (d : Long)
  | bgt (w : Width) (d : Long)
  | bls (w : Width) (d : Long)
  | bhi (w : Width) (d : Long)
  | bnv (w : Width) (d : Long)
  | bra (w : Width) (d : Long)
  -- Groups 3 and 4 (43_group3_bit_jmp_jsr.md, 44_group4_brk.md).
  | bit (w : Width) (r : Fin 4) (m : MemMode)
  | jmp (m : MemMode)
  | jsr (m : MemMode)
  | brk (v : BitVec 7)
  -- Group 5, flag instructions, NOP and WAI (45_group5_flags_nop.md).
  | clc
  | sec
  | cli
  | sei
  | clv
  | cld
  | sed
  | nop
  | sev
  | wai
  -- Group 6, the index registers (46_group6_index_load_store.md).
  | ldx (w : Width) (r : Fin 4) (o : Operand)
  | ldy (w : Width) (r : Fin 4) (o : Operand)
  | stx (w : Width) (r : Fin 4) (m : MemMode)
  | sty (w : Width) (r : Fin 4) (m : MemMode)
  | cpx (w : Width) (r : Fin 4) (o : Operand)
  | cpy (w : Width) (r : Fin 4) (o : Operand)
  | adx (w : Width) (r : Fin 4) (o : Operand)
  | ady (w : Width) (r : Fin 4) (o : Operand)
  | sbx (w : Width) (r : Fin 4) (o : Operand)
  -- Group 7, the DEX group (47_group7_index_incdec.md).
  | dex (w : Width) (k : Nat) (t : IndexReg)
  | dey (w : Width) (k : Nat) (t : IndexReg)
  | inx (w : Width) (k : Nat) (t : IndexReg)
  | iny (w : Width) (k : Nat) (t : IndexReg)
  | ina (w : Width) (k : Nat) (t : IndexReg)
  | des (w : Width) (k : Nat) (g : G3)
  | ins (w : Width) (k : Nat) (g : G3)
  -- Group 8, the PHA group (48_group8_stack.md).
  | pha (w : Width) (r : Fin 4) (sr : Reg)
  | php (sr : Reg)
  | pla (w : Width) (r : Fin 4) (sr : Reg)
  | plp (sr : Reg)
  | psh (w : Width) (v : Long) (sr : Reg)
  | phx (w : Width) (r : Fin 4) (sr : Reg)
  | phy (w : Width) (r : Fin 4) (sr : Reg)
  | plx (w : Width) (r : Fin 4) (sr : Reg)
  | ply (w : Width) (r : Fin 4) (sr : Reg)
  | pop (w : Width) (v : Long) (sr : Reg)
  -- Group 9, returns, and group 10, transfers (49_group9_10_returns_transfers.md).
  | rti (sr : Reg)
  | rts (sr : Reg)
  | tax (w : Width) (r : Fin 4) (s : Reg)
  | tay (w : Width) (r : Fin 4) (s : Reg)
  | txa (w : Width) (r : Fin 4) (s : Reg)
  | tya (w : Width) (r : Fin 4) (s : Reg)
  | tsx (w : Width) (r : Fin 4) (s : Reg)
  | txs (w : Width) (r : Fin 4) (s : Reg)
  | txy (w : Width) (r : Fin 4) (s : Reg)
  | tyx (w : Width) (r : Fin 4) (s : Reg)
  | tyy (w : Width) (r : Fin 4) (s : Reg)
  | txx (w : Width) (r : Fin 4) (s : Reg)
deriving DecidableEq, Repr

end Sys2Proof
end

