-- ==== Sys2Proof/WellFormed.lean ====
section
/-! DEFINITION. Which terms of Instr stand for a row of spec/opcode_table.json: the operand form is one the instruction
has in the grids (30_encoding.md R111, R112), a byte immediate is a byte, a byte displacement is a sign-extended byte,
and a DEX-group constant is 1 to 8. -/

namespace Sys2Proof

/-- The names of the memory modes, without their operands (30_encoding.md R93). -/
inductive MemKind where
  | zp
  | zpX
  | zpY
  | abs
  | absX
  | absY
  | ind
  | indX
  | indY
  | zpIndX
  | zpIndY
deriving DecidableEq, Repr

/-- The name of a memory mode. -/
def MemMode.kind : MemMode → MemKind
  | .zp _ => .zp
  | .zpX _ _ => .zpX
  | .zpY _ _ => .zpY
  | .abs _ => .abs
  | .absX _ _ => .absX
  | .absY _ _ => .absY
  | .ind _ => .ind
  | .indX _ _ => .indX
  | .indY _ _ => .indY
  | .zpIndX _ _ => .zpIndX
  | .zpIndY _ _ => .zpIndY

namespace WellFormed

/-- The nine memory modes of group 0 (40_group0_accumulator.md R130). -/
def group0 : List MemKind := [.zpIndX, .zp, .indX, .abs, .zpIndY, .zpX, .absY, .indY, .absX]

/-- The seven memory modes of group 1 (41_group1_shifts.md R160). -/
def group1 : List MemKind := [.zp, .abs, .indX, .absY, .zpX, .absX, .indY]

/-- The memory modes of BIT (43_group3_bit_jmp_jsr.md R210). -/
def bit : List MemKind := [.zp, .abs]

/-- The modes of JMP (43_group3_bit_jmp_jsr.md R211). -/
def jmp : List MemKind := [.abs, .absY, .absX, .ind, .indY, .indX]

/-- The modes of JSR: those of JMP but for `(abs)` (43_group3_bit_jmp_jsr.md R212). -/
def jsr : List MemKind := [.abs, .absY, .absX, .indY, .indX]

/-- The memory modes of LDX, ADX and STX (46_group6_index_load_store.md R260). -/
def xModes : List MemKind := [.zp, .abs, .zpY, .absX, .absY, .indX, .indY]

/-- The memory modes of LDY, ADY and STY (46_group6_index_load_store.md R260). -/
def yModes : List MemKind := [.zp, .abs, .zpX, .absX, .absY]

/-- The memory modes of CPX, SBX and CPY (46_group6_index_load_store.md R260). -/
def compareModes : List MemKind := [.zp, .abs, .absX, .absY]

/-- A byte immediate is a byte (30_encoding.md R95). -/
def immediate : Width → Long → Bool
  | .byte, v => v.toNat < 256
  | .long, _ => true

/-- A byte displacement is the sign extension of a byte (30_encoding.md R105). -/
def displacement : Width → Long → Bool
  | .byte, d => d == (d.setWidth 8).signExtend 32
  | .long, _ => true

/-- The constant of the DEX group is 1 to 8 (30_encoding.md R87). -/
def count (k : Nat) : Bool := 1 ≤ k && k ≤ 8

/-- A memory mode of a list. -/
def mode (ks : List MemKind) (m : MemMode) : Bool := ks.contains m.kind

/-- An operand whose memory modes are those of a list; `acc` says whether the instruction has that mode. -/
def operand (ks : List MemKind) (acc : Bool) (w : Width) : Operand → Bool
  | .imm v => immediate w v
  | .acc _ => acc
  | .mem m => mode ks m

/-- The operand of a group 1 instruction. -/
def place : Place → Bool
  | .acc _ => true
  | .mem m => mode group1 m

end WellFormed

open WellFormed in
/-- `i.wf` says that `i` is an instruction of the opcode table, written with fields in range. -/
def Instr.wf : Instr → Bool
  | .ora w _ o | .and w _ o | .eor w _ o | .adc w _ o | .lda w _ o | .cmp w _ o | .sbc w _ o | .add w _ o
  | .sub w _ o | .ads w _ o | .sbs w _ o => operand group0 true w o
  | .sta _ _ m | .sts _ _ m => mode group0 m
  | .asl _ p | .lsr _ p | .rol _ p | .ror _ p | .dec _ p | .inc _ p | .asr _ p | .exg _ _ p => place p
  | .bpl w d | .bmi w d | .bvc w d | .bvs w d | .bcc w d | .bcs w d | .bne w d | .beq w d
  | .bge w d | .blt w d | .ble w d | .bgt w d | .bls w d | .bhi w d | .bnv w d | .bra w d => displacement w d
  | .bit _ _ m => mode WellFormed.bit m
  | .jmp m => mode WellFormed.jmp m
  | .jsr m => mode WellFormed.jsr m
  | .brk _ => true
  | .clc | .sec | .cli | .sei | .clv | .cld | .sed | .nop | .sev | .wai => true
  | .ldx w _ o | .adx w _ o => operand xModes false w o
  | .ldy w _ o | .ady w _ o => operand yModes false w o
  | .stx _ _ m => mode xModes m
  | .sty _ _ m => mode yModes m
  | .cpx w _ o | .cpy w _ o | .sbx w _ o => operand compareModes true w o
  | .dex _ k _ | .dey _ k _ | .inx _ k _ | .iny _ k _ | .ina _ k _ | .des _ k _ | .ins _ k _ => count k
  | .psh w v _ | .pop w v _ => immediate w v
  | .pha _ _ _ | .php _ | .pla _ _ _ | .plp _ | .phx _ _ _ | .phy _ _ _ | .plx _ _ _ | .ply _ _ _ => true
  | .rti _ | .rts _ => true
  | .tax _ _ _ | .tay _ _ _ | .txa _ _ _ | .tya _ _ _ | .tsx _ _ _ | .txs _ _ _ | .txy _ _ _ | .tyx _ _ _
  | .tyy _ _ _ | .txx _ _ _ => true

end Sys2Proof
end

