-- ==== Sys2Proof/Decode.lean ====
section
/-! DEFINITION. Instruction lengths, the decoder, and after it an encoder. The decoder reads the two opcode grids of
30_encoding.md R111 and R112; the encoder is written from the slot tables of the instruction rules (R130, R160, R180,
R210 to R212, R230, R240, R260, R280, R290, R310 to R312), so that the round trip compares two tellings of the map. -/

namespace Sys2Proof

/-! ## Lengths in words, the opcode word included (30_encoding.md R92) -/

/-- The operand words of a memory mode: one for the zero-page modes, two for the absolute ones. -/
def MemMode.operandWords : MemMode → Nat
  | .zp _ | .zpX _ _ | .zpY _ _ | .zpIndX _ _ | .zpIndY _ _ => 1
  | .abs _ | .absX _ _ | .absY _ _ | .ind _ | .indX _ _ | .indY _ _ => 2

/-- The operand words of an immediate or a displacement of width `w`. -/
def Width.operandWords : Width → Nat
  | .byte => 1
  | .long => 2

/-- The length of an instruction whose operand is a memory mode. -/
def MemMode.len (m : MemMode) : Nat := 1 + m.operandWords

/-- The length of an instruction whose operand is an immediate or a displacement. -/
def Width.len (w : Width) : Nat := 1 + w.operandWords

/-- The length of an instruction with a reading operand. -/
def Operand.len (w : Width) : Operand → Nat
  | .imm _ => w.len
  | .acc _ => 1
  | .mem m => m.len

/-- The length of a read-modify-write instruction. -/
def Place.len : Place → Nat
  | .acc _ => 1
  | .mem m => m.len

/-- The length of an instruction in words. -/
def Instr.len : Instr → Nat
  | .ora w _ o | .and w _ o | .eor w _ o | .adc w _ o | .lda w _ o | .cmp w _ o | .sbc w _ o | .add w _ o
  | .sub w _ o | .ads w _ o | .sbs w _ o | .ldx w _ o | .ldy w _ o | .cpx w _ o | .cpy w _ o | .adx w _ o
  | .ady w _ o | .sbx w _ o => o.len w
  | .sta _ _ m | .sts _ _ m | .stx _ _ m | .sty _ _ m | .bit _ _ m | .jmp m | .jsr m => m.len
  | .asl _ p | .lsr _ p | .rol _ p | .ror _ p | .dec _ p | .inc _ p | .asr _ p | .exg _ _ p => p.len
  | .bpl w _ | .bmi w _ | .bvc w _ | .bvs w _ | .bcc w _ | .bcs w _ | .bne w _ | .beq w _
  | .bge w _ | .blt w _ | .ble w _ | .bgt w _ | .bls w _ | .bhi w _ | .bnv w _ | .bra w _ => w.len
  | .psh w _ _ | .pop w _ _ => w.len
  | .brk _ => 1
  | .clc | .sec | .cli | .sei | .clv | .cld | .sed | .nop | .sev | .wai => 1
  | .dex _ _ _ | .dey _ _ _ | .inx _ _ _ | .iny _ _ _ | .ina _ _ _ | .des _ _ _ | .ins _ _ _ => 1
  | .pha _ _ _ | .php _ | .pla _ _ _ | .plp _ | .phx _ _ _ | .phy _ _ _ | .plx _ _ _ | .ply _ _ _ => 1
  | .rti _ | .rts _ => 1
  | .tax _ _ _ | .tay _ _ _ | .txa _ _ _ | .tya _ _ _ | .tsx _ _ _ | .txs _ _ _ | .txy _ _ _ | .tyx _ _ _
  | .tyy _ _ _ | .txx _ _ _ => 1

/-! ## Register numbers -/

/-- `G3[i]` (10_state.md R21). -/
def G3.ofNumber : Fin 4 → G3
  | 0 => .pc
  | 1 => .z0
  | 2 => .z1
  | 3 => .sp

/-- The number of a register within the fourth group. -/
def G3.number : G3 → Fin 4
  | .pc => 0
  | .z0 => 1
  | .z1 => 2
  | .sp => 3

/-- `Reg[k]`: register `k` of the S table; `k[3:2]` is the file, `k[1:0]` the register in it (10_state.md R22). -/
def Reg.ofNumber (k : BitVec 4) : Reg :=
  let i : Fin 4 := (k.extractLsb' 0 2).toFin
  match (k.extractLsb' 2 2).toFin with
  | (0 : Fin 4) => .a i
  | 1 => .y i
  | 2 => .x i
  | 3 => .g3 (G3.ofNumber i)

/-- The number of a register in the S table. -/
def Reg.number : Reg → BitVec 4
  | .a i => 0b00#2 ++ (BitVec.ofFin i : BitVec 2)
  | .y i => 0b01#2 ++ (BitVec.ofFin i : BitVec 2)
  | .x i => 0b10#2 ++ (BitVec.ofFin i : BitVec 2)
  | .g3 g => 0b11#2 ++ (BitVec.ofFin g.number : BitVec 2)

/-- What field X selects (30_encoding.md R86). -/
def IndexReg.ofNumber (x : BitVec 3) : IndexReg :=
  let i : Fin 4 := (x.extractLsb' 0 2).toFin
  if x.getLsbD 2 then .file i else .g3 (G3.ofNumber i)

/-- The value of field X that selects a register. -/
def IndexReg.number : IndexReg → BitVec 3
  | .g3 g => 0b0#1 ++ (BitVec.ofFin g.number : BitVec 2)
  | .file i => 0b1#1 ++ (BitVec.ofFin i : BitVec 2)

/-! ## The decoder -/

/-- Why a decoder answers no instruction: the slot `(xP, op)` is unassigned (30_encoding.md R120). -/
inductive DecodeError where
  | unassigned (standard : Bool) (op : Byte)
deriving DecidableEq, Repr

namespace Decode

open Machine

/-- A slot of a grid: what it makes of the opcode word and the two words after it. -/
abbrev Slot := Option (Word → Word → Word → Instr)

/-- How a memory mode is assembled from the opcode word and the two words after it. -/
abbrev Assembly := Word → Word → Word → MemMode

/-- Fields X and I of a format 3 opcode word (R85, R86). -/
def index (w : Word) : Index := ⟨IndexReg.ofNumber (fieldX w), fieldI w⟩

def zp : Assembly := fun _ o1 _ => .zp o1
def zpX : Assembly := fun w o1 _ => .zpX o1 (index w)
def zpY : Assembly := fun w o1 _ => .zpY o1 (index w)
def abs : Assembly := fun _ o1 o2 => .abs (join o1 o2)
def absX : Assembly := fun w o1 o2 => .absX (join o1 o2) (index w)
def absY : Assembly := fun w o1 o2 => .absY (join o1 o2) (index w)
def ind : Assembly := fun _ o1 o2 => .ind (join o1 o2)
def indX : Assembly := fun w o1 o2 => .indX (join o1 o2) (index w)
def indY : Assembly := fun w o1 o2 => .indY (join o1 o2) (index w)
def zpIndX : Assembly := fun w o1 _ => .zpIndX o1 (index w)
def zpIndY : Assembly := fun w o1 _ => .zpIndY o1 (index w)

/-- The immediate of R95: a byte in bits 7:0 of one word, or a longword in two. -/
def immediate (w : Width) (o1 o2 : Word) : Long :=
  match w with
  | .byte => zext (lowByte o1)
  | .long => join o1 o2

/-- The displacement of R105: a sign-extended byte of one word, or a longword in two. -/
def displacement (w : Width) (o1 o2 : Word) : Long :=
  match w with
  | .byte => sext (lowByte o1)
  | .long => join o1 o2

/-- The register of an `acc` mode: field S with the mask `1100` (R88, R104). -/
def accReg (w : Word) : Reg := Reg.ofNumber (fieldS w ^^^ 0b1100)

/-- The stack register of the PHA and RTS groups: field S, no mask (R88). -/
def stackReg (w : Word) : Reg := Reg.ofNumber (fieldS w)

/-- The constant `8 - xN` of the DEX group (R87). -/
def constant (w : Word) : Nat := 8 - (fieldN w).toNat

/-! One combinator per shape of instruction. A `G` marks a main register of the fourth group. -/

def read (k : Width → Fin 4 → Operand → Instr) (m : Assembly) : Slot :=
  some fun w o1 o2 => k (fieldD w) (fieldR w) (.mem (m w o1 o2))
def imm (k : Width → Fin 4 → Operand → Instr) : Slot :=
  some fun w o1 o2 => k (fieldD w) (fieldR w) (.imm (immediate (fieldD w) o1 o2))
def acc (k : Width → Fin 4 → Operand → Instr) : Slot :=
  some fun w _ _ => k (fieldD w) (fieldR w) (.acc (accReg w))
def readG (k : Width → G3 → Operand → Instr) (m : Assembly) : Slot :=
  some fun w o1 o2 => k (fieldD w) (G3.ofNumber (fieldR w)) (.mem (m w o1 o2))
def immG (k : Width → G3 → Operand → Instr) : Slot :=
  some fun w o1 o2 => k (fieldD w) (G3.ofNumber (fieldR w)) (.imm (immediate (fieldD w) o1 o2))
def accG (k : Width → G3 → Operand → Instr) : Slot :=
  some fun w _ _ => k (fieldD w) (G3.ofNumber (fieldR w)) (.acc (accReg w))
def mem (k : Width → Fin 4 → MemMode → Instr) (m : Assembly) : Slot :=
  some fun w o1 o2 => k (fieldD w) (fieldR w) (m w o1 o2)
def memG (k : Width → G3 → MemMode → Instr) (m : Assembly) : Slot :=
  some fun w o1 o2 => k (fieldD w) (G3.ofNumber (fieldR w)) (m w o1 o2)
def jump (k : MemMode → Instr) (m : Assembly) : Slot :=
  some fun w o1 o2 => k (m w o1 o2)
def place (k : Width → Place → Instr) (m : Assembly) : Slot :=
  some fun w o1 o2 => k (fieldD w) (.mem (m w o1 o2))
def accPlace (k : Width → Place → Instr) : Slot :=
  some fun w _ _ => k (fieldD w) (.acc (accReg w))
def exchange (k : Width → Fin 4 → Place → Instr) (m : Assembly) : Slot :=
  some fun w o1 o2 => k (fieldD w) (fieldR w) (.mem (m w o1 o2))
def accExg (k : Width → Fin 4 → Place → Instr) : Slot :=
  some fun w _ _ => k (fieldD w) (fieldR w) (.acc (accReg w))
def rel (k : Width → Long → Instr) : Slot :=
  some fun w o1 o2 => k (fieldD w) (displacement (fieldD w) o1 o2)
def implied (i : Instr) : Slot :=
  some fun _ _ _ => i
def vector (k : BitVec 7 → Instr) : Slot :=
  some fun w _ _ => k (fieldV w)
def count (k : Width → Nat → IndexReg → Instr) : Slot :=
  some fun w _ _ => k (fieldD w) (constant w) (IndexReg.ofNumber (fieldX w))
/-- DES and INS: the register is `G3[xX[1:0]]`, `xX[2]` has no effect (47_group7_index_incdec.md R286). -/
def countG (k : Width → Nat → G3 → Instr) : Slot :=
  some fun w _ _ => k (fieldD w) (constant w) (G3.ofNumber ((fieldX w).extractLsb' 0 2).toFin)
def stack (k : Width → Fin 4 → Reg → Instr) : Slot :=
  some fun w _ _ => k (fieldD w) (fieldR w) (stackReg w)
def stackOnly (k : Reg → Instr) : Slot :=
  some fun w _ _ => k (stackReg w)
def stackImm (k : Width → Long → Reg → Instr) : Slot :=
  some fun w o1 o2 => k (fieldD w) (immediate (fieldD w) o1 o2) (stackReg w)
/-- A transfer, with the mask of its second register (49_group9_10_returns_transfers.md R312). -/
def transfer (k : Width → Fin 4 → Reg → Instr) (mask : BitVec 4) : Slot :=
  some fun w _ _ => k (fieldD w) (fieldR w) (Reg.ofNumber (fieldS w ^^^ mask))

/-- The standard operations, `xP` = 1 (30_encoding.md R111): a row for the high digit of `op`, in it a slot for each low
digit; `none` is an unassigned slot (R120). -/
def standardGrid : List (List Slot) := [
  -- 00 to 0F
  [ vector .brk, read .ora zpIndX, acc .ora, none,
    none, read .ora zp, place .asl zp, none,
    stackOnly .php, imm .ora, accPlace .asl, read .ora indX,
    none, read .ora abs, place .asl abs, place .asl indX],
  -- 10 to 1F
  [ rel .bpl, read .ora zpIndY, none, place .asl absY,
    none, read .ora zpX, place .asl zpX, none,
    implied .clc, read .ora absY, none, read .ora indY,
    none, read .ora absX, place .asl absX, place .asl indY],
  -- 20 to 2F
  [ jump .jsr abs, read .and zpIndX, acc .and, none,
    mem .bit zp, read .and zp, place .rol zp, none,
    stackOnly .plp, imm .and, accPlace .rol, read .and indX,
    mem .bit abs, read .and abs, place .rol abs, place .rol indX],
  -- 30 to 3F
  [ rel .bmi, read .and zpIndY, none, place .rol absY,
    none, read .and zpX, place .rol zpX, none,
    implied .sec, read .and absY, none, read .and indY,
    none, read .and absX, place .rol absX, place .rol indY],
  -- 40 to 4F
  [ stackOnly .rti, read .eor zpIndX, acc .eor, none,
    none, read .eor zp, place .lsr zp, none,
    stack .pha, imm .eor, accPlace .lsr, read .eor indX,
    jump .jmp abs, read .eor abs, place .lsr abs, place .lsr indX],
  -- 50 to 5F
  [ rel .bvc, read .eor zpIndY, jump .jsr absY, place .lsr absY,
    jump .jsr absX, read .eor zpX, place .lsr zpX, none,
    implied .cli, read .eor absY, jump .jmp absY, read .eor indY,
    jump .jmp absX, read .eor absX, place .lsr absX, place .lsr indY],
  -- 60 to 6F
  [ stackOnly .rts, read .adc zpIndX, acc .adc, none,
    none, read .adc zp, place .ror zp, none,
    stack .pla, imm .adc, accPlace .ror, read .adc indX,
    jump .jmp ind, read .adc abs, place .ror abs, place .ror indX],
  -- 70 to 7F
  [ rel .bvs, read .adc zpIndY, jump .jsr indY, place .ror absY,
    jump .jsr indX, read .adc zpX, place .ror zpX, none,
    implied .sei, read .adc absY, jump .jmp indY, read .adc indY,
    jump .jmp indX, read .adc absX, place .ror absX, place .ror indY],
  -- 80 to 8F
  [ none, mem .sta zpIndX, none, none,
    mem .sty zp, mem .sta zp, mem .stx zp, none,
    count .dey, stackImm .psh, transfer .txa 0b0100, mem .sta indX,
    mem .sty abs, mem .sta abs, mem .stx abs, mem .stx indX],
  -- 90 to 9F
  [ rel .bcc, mem .sta zpIndY, none, mem .stx absX,
    mem .sty zpX, mem .sta zpX, mem .stx zpY, mem .sty absY,
    transfer .tya 0b1000, mem .sta absY, transfer .txs 0b0000, mem .sta indY,
    mem .sty absX, mem .sta absX, mem .stx absY, mem .stx indY],
  -- A0 to AF
  [ imm .ldy, read .lda zpIndX, imm .ldx, none,
    read .ldy zp, read .lda zp, read .ldx zp, none,
    transfer .tay 0b1000, imm .lda, transfer .tax 0b0100, read .lda indX,
    read .ldy abs, read .lda abs, read .ldx abs, read .ldx indX],
  -- B0 to BF
  [ rel .bcs, read .lda zpIndY, acc .lda, read .ldx absX,
    read .ldy zpX, read .lda zpX, read .ldx zpY, read .ldy absY,
    implied .clv, read .lda absY, transfer .tsx 0b0000, read .lda indY,
    read .ldy absX, read .lda absX, read .ldx absY, read .ldx indY],
  -- C0 to CF
  [ imm .cpy, read .cmp zpIndX, acc .cpy, none,
    read .cpy zp, read .cmp zp, place .dec zp, none,
    count .iny, imm .cmp, count .dex, read .cmp indX,
    read .cpy abs, read .cmp abs, place .dec abs, place .dec indX],
  -- D0 to DF
  [ rel .bne, read .cmp zpIndY, acc .cmp, place .dec absY,
    none, read .cmp zpX, place .dec zpX, read .cpy absY,
    implied .cld, read .cmp absY, accPlace .dec, read .cmp indY,
    read .cpy absX, read .cmp absX, place .dec absX, place .dec indY],
  -- E0 to EF
  [ imm .cpx, read .sbc zpIndX, acc .cpx, none,
    read .cpx zp, read .sbc zp, place .inc zp, none,
    count .inx, imm .sbc, implied .nop, read .sbc indX,
    read .cpx abs, read .sbc abs, place .inc abs, place .inc indX],
  -- F0 to FF
  [ rel .beq, read .sbc zpIndY, acc .sbc, place .inc absY,
    none, read .sbc zpX, place .inc zpX, read .cpx absY,
    implied .sed, read .sbc absY, accPlace .inc, read .sbc indY,
    read .cpx absX, read .sbc absX, place .inc absX, place .inc indY]]

/-- The alternate operations, `xP` = 0 (30_encoding.md R112), laid out as `standardGrid`. -/
def alternateGrid : List (List Slot) := [
  -- 00 to 0F
  [ none, none, none, none,
    none, none, exchange .exg zp, none,
    stack .phy, none, accExg .exg, none,
    none, none, exchange .exg abs, exchange .exg indX],
  -- 10 to 1F
  [ rel .bge, none, none, exchange .exg absY,
    none, none, exchange .exg zpX, none,
    none, none, none, none,
    none, none, exchange .exg absX, exchange .exg indY],
  -- 20 to 2F
  [ none, none, none, none,
    none, none, none, none,
    stack .ply, none, none, none,
    none, none, none, none],
  -- 30 to 3F
  [ rel .blt, none, none, none,
    none, none, none, none,
    none, none, none, none,
    none, none, none, none],
  -- 40 to 4F
  [ none, none, none, none,
    none, none, place .asr zp, none,
    stack .phx, none, accPlace .asr, none,
    none, none, place .asr abs, place .asr indX],
  -- 50 to 5F
  [ rel .ble, none, none, place .asr absY,
    none, none, place .asr zpX, none,
    none, none, none, none,
    none, none, place .asr absX, place .asr indY],
  -- 60 to 6F
  [ none, read .add zpIndX, acc .add, none,
    none, read .add zp, none, none,
    stack .plx, imm .add, none, read .add indX,
    none, read .add abs, none, none],
  -- 70 to 7F
  [ rel .bgt, read .add zpIndY, none, none,
    none, read .add zpX, none, none,
    none, read .add absY, none, read .add indY,
    none, read .add absX, none, none],
  -- 80 to 8F
  [ none, memG .sts zpIndX, none, none,
    none, memG .sts zp, none, none,
    none, stackImm .pop, transfer .txy 0b0100, memG .sts indX,
    none, memG .sts abs, none, none],
  -- 90 to 9F
  [ rel .bls, memG .sts zpIndY, none, none,
    none, memG .sts zpX, none, none,
    transfer .tyx 0b1000, memG .sts absY, none, memG .sts indY,
    none, memG .sts absX, none, none],
  -- A0 to AF
  [ imm .ady, readG .ads zpIndX, imm .adx, none,
    read .ady zp, readG .ads zp, read .adx zp, none,
    transfer .tyy 0b1000, immG .ads, transfer .txx 0b0100, readG .ads indX,
    read .ady abs, readG .ads abs, read .adx abs, read .adx indX],
  -- B0 to BF
  [ rel .bhi, readG .ads zpIndY, accG .ads, read .adx absX,
    read .ady zpX, readG .ads zpX, read .adx zpY, read .ady absY,
    implied .sev, readG .ads absY, none, readG .ads indY,
    read .ady absX, readG .ads absX, read .adx absY, read .adx indY],
  -- C0 to CF
  [ none, readG .sbs zpIndX, none, none,
    none, readG .sbs zp, none, none,
    count .ina, immG .sbs, countG .des, readG .sbs indX,
    none, readG .sbs abs, none, none],
  -- D0 to DF
  [ rel .bnv, readG .sbs zpIndY, accG .sbs, none,
    none, readG .sbs zpX, none, none,
    none, readG .sbs absY, none, readG .sbs indY,
    none, readG .sbs absX, none, none],
  -- E0 to EF
  [ imm .sbx, read .sub zpIndX, acc .sbx, none,
    read .sbx zp, read .sub zp, none, none,
    countG .ins, imm .sub, implied .wai, read .sub indX,
    read .sbx abs, read .sub abs, none, none],
  -- F0 to FF
  [ rel .bra, read .sub zpIndY, acc .sub, none,
    none, read .sub zpX, none, read .sbx absY,
    none, read .sub absY, none, read .sub indY,
    read .sbx absX, read .sub absX, none, none]]

/-- The slot `(xP, op)` (R83, R110). -/
def slot (standard : Bool) (op : Byte) : Slot :=
  ((if standard then standardGrid else alternateGrid).getD (op.toNat / 16) []).getD (op.toNat % 16) none

end Decode

/-- The instruction an opcode word and the two words after it make. An instruction of one or two words does not look at
the words past its end. -/
def decode (w o1 o2 : Word) : Except DecodeError Instr :=
  match Decode.slot (Machine.fieldP w) (Machine.fieldOp w) with
  | some make => .ok (make w o1 o2)
  | none => .error (.unassigned (Machine.fieldP w) (Machine.fieldOp w))

/-- The decoder on a list of words; a word the list lacks reads as zeros. -/
def decodeWords (ws : List Word) : Except DecodeError Instr :=
  decode (ws.getD 0 0) (ws.getD 1 0) (ws.getD 2 0)

/-- Words `0`, `1`, `2` of an instruction whose bits are `w`, first word in bits 15:0, bits from `nbits` on zero. -/
def tableWord (nbits w : Nat) (k : Nat) : Word := BitVec.ofNat 16 ((w % 2 ^ nbits) >>> (16 * k))

/-- The instruction the decoder reads from an instruction whose bits are `w`, numbered as spec/opcode_table.json numbers
them: bit 0 is the least significant bit of the first word, and a later word's bits count on from it. -/
def decodeTableWord (nbits w : Nat) : Option Instr :=
  (decode (tableWord nbits w 0) (tableWord nbits w 1) (tableWord nbits w 2)).toOption

/-! ## The encoder -/

namespace Encode

open Machine

/-- Field D, and field I (R83, R85). -/
def widthBit : Width → BitVec 1
  | .byte => 1
  | .long => 0

/-- Field R. -/
def main (r : Fin 4) : BitVec 2 := BitVec.ofFin r

/-- All ones: what an unused field is written as (R91). -/
def unusedIndex : Index := ⟨.file 3, .byte⟩

/-- Format 0, `PDRRSSSS` (R81). -/
def format0 (p : Bool) (w : Width) (r : Fin 4) (s : BitVec 4) (op : Byte) : Word :=
  BitVec.ofBool p ++ widthBit w ++ main r ++ s ++ op

/-- Format 1, `PDNNNXXX` (R81); `k` is the constant, `8 - xN` (R87). -/
def format1 (p : Bool) (w : Width) (k : Nat) (x : BitVec 3) (op : Byte) : Word :=
  BitVec.ofBool p ++ widthBit w ++ BitVec.ofNat 3 (8 - k) ++ x ++ op

/-- Format 2, `PVVVVVVV` (R81). -/
def format2 (p : Bool) (v : BitVec 7) (op : Byte) : Word := BitVec.ofBool p ++ v ++ op

/-- Format 3, `PDRRIXXX` (R81). -/
def format3 (p : Bool) (w : Width) (r : Fin 4) (ix : Index) (op : Byte) : Word :=
  BitVec.ofBool p ++ widthBit w ++ main r ++ widthBit ix.size ++ ix.reg.number ++ op

/-- The index a memory mode names; all ones where it names none. -/
def indexOf : MemMode → Index
  | .zpX _ ix | .zpY _ ix | .absX _ ix | .absY _ ix | .indX _ ix | .indY _ ix | .zpIndX _ ix | .zpIndY _ ix => ix
  | .zp _ | .abs _ | .ind _ => unusedIndex

/-- The operand words of a memory mode. -/
def modeWords : MemMode → List Word
  | .zp o | .zpX o _ | .zpY o _ | .zpIndX o _ | .zpIndY o _ => [o]
  | .abs b | .absX b _ | .absY b _ | .ind b | .indX b _ | .indY b _ => [splitLow b, splitHigh b]

/-- The operand words of an immediate or displacement; bits 15:8 of a byte's word are unused, so ones. -/
def valueWords : Width → Long → List Word
  | .byte, v => [0xFF#8 ++ v.extractLsb' 0 8]
  | .long, v => [splitLow v, splitHigh v]

/-! The opcodes of the memory modes, as the instruction rules list them; `none` where the instruction has no such
mode. -/

/-- Offsets of group 0 (R130). -/
def group0 (base : Byte) : MemKind → Option Byte
  | .zpIndX => some (base + 0x01)
  | .zp => some (base + 0x05)
  | .indX => some (base + 0x0B)
  | .abs => some (base + 0x0D)
  | .zpIndY => some (base + 0x11)
  | .zpX => some (base + 0x15)
  | .absY => some (base + 0x19)
  | .indY => some (base + 0x1B)
  | .absX => some (base + 0x1D)
  | .zpY | .ind => none

/-- Offsets of group 1 (R160). -/
def group1 (base : Byte) : MemKind → Option Byte
  | .zp => some (base + 0x06)
  | .abs => some (base + 0x0E)
  | .indX => some (base + 0x0F)
  | .absY => some (base + 0x13)
  | .zpX => some (base + 0x16)
  | .absX => some (base + 0x1E)
  | .indY => some (base + 0x1F)
  | .zpY | .ind | .zpIndX | .zpIndY => none

/-- BIT (R210). -/
def bit : MemKind → Option Byte
  | .zp => some 0x24
  | .abs => some 0x2C
  | .zpX | .zpY | .absX | .absY | .ind | .indX | .indY | .zpIndX | .zpIndY => none

/-- JMP (R211). -/
def jmp : MemKind → Option Byte
  | .abs => some 0x4C
  | .absY => some 0x5A
  | .absX => some 0x5C
  | .ind => some 0x6C
  | .indY => some 0x7A
  | .indX => some 0x7C
  | .zp | .zpX | .zpY | .zpIndX | .zpIndY => none

/-- JSR (R212). -/
def jsr : MemKind → Option Byte
  | .abs => some 0x20
  | .absY => some 0x52
  | .absX => some 0x54
  | .indY => some 0x72
  | .indX => some 0x74
  | .zp | .zpX | .zpY | .ind | .zpIndX | .zpIndY => none

/-- LDX and ADX (R260). -/
def ldx : MemKind → Option Byte
  | .zp => some 0xA6
  | .abs => some 0xAE
  | .zpY => some 0xB6
  | .absX => some 0xB3
  | .absY => some 0xBE
  | .indX => some 0xAF
  | .indY => some 0xBF
  | .zpX | .ind | .zpIndX | .zpIndY => none

/-- LDY and ADY (R260). -/
def ldy : MemKind → Option Byte
  | .zp => some 0xA4
  | .abs => some 0xAC
  | .zpX => some 0xB4
  | .absX => some 0xBC
  | .absY => some 0xB7
  | .zpY | .ind | .indX | .indY | .zpIndX | .zpIndY => none

/-- STX (R260). -/
def stx : MemKind → Option Byte
  | .zp => some 0x86
  | .abs => some 0x8E
  | .zpY => some 0x96
  | .absX => some 0x93
  | .absY => some 0x9E
  | .indX => some 0x8F
  | .indY => some 0x9F
  | .zpX | .ind | .zpIndX | .zpIndY => none

/-- STY (R260). -/
def sty : MemKind → Option Byte
  | .zp => some 0x84
  | .abs => some 0x8C
  | .zpX => some 0x94
  | .absX => some 0x9C
  | .absY => some 0x97
  | .zpY | .ind | .indX | .indY | .zpIndX | .zpIndY => none

/-- CPX and SBX (R260). -/
def cpx : MemKind → Option Byte
  | .zp => some 0xE4
  | .abs => some 0xEC
  | .absX => some 0xFC
  | .absY => some 0xF7
  | .zpX | .zpY | .ind | .indX | .indY | .zpIndX | .zpIndY => none

/-- CPY (R260). -/
def cpy : MemKind → Option Byte
  | .zp => some 0xC4
  | .abs => some 0xCC
  | .absX => some 0xDC
  | .absY => some 0xD7
  | .zpX | .zpY | .ind | .indX | .indY | .zpIndX | .zpIndY => none

/-- A format 3 instruction with a memory mode. -/
def memory (p : Bool) (w : Width) (r : Fin 4) (op : MemKind → Option Byte) (m : MemMode) : List Word :=
  match op m.kind with
  | some op => format3 p w r (indexOf m) op :: modeWords m
  | none => []

/-- An instruction with a reading operand: the opcodes of its `imm`, `acc` and memory modes. -/
def operand (p : Bool) (w : Width) (r : Fin 4) (immOp : Byte) (accOp : Option Byte) (op : MemKind → Option Byte) :
    Operand → List Word
  | .imm v => format3 p w r unusedIndex immOp :: valueWords w v
  | .acc s =>
    match accOp with
    | some accOp => [format0 p w r (s.number ^^^ 0b1100) accOp]
    | none => []
  | .mem m => memory p w r op m

/-- A reading instruction of group 0 with `base` and the offset of its `acc` mode (R130). -/
def adcGroup (p : Bool) (base accOffset : Byte) (w : Width) (r : Fin 4) (o : Operand) : List Word :=
  operand p w r (base + 0x09) (some (base + accOffset)) (group0 base) o

/-- An instruction of group 1 with `base` and the offset of its `acc` mode (R160). -/
def aslGroup (p : Bool) (base accOffset : Byte) (w : Width) (r : Fin 4) : Place → List Word
  | .acc s => [format0 p w r (s.number ^^^ 0b1100) (base + accOffset)]
  | .mem m => memory p w r (group1 base) m

/-- A branch: `op` is `(k << 5) or $10` (R180). -/
def branch (p : Bool) (k : BitVec 3) (w : Width) (d : Long) : List Word :=
  format3 p w 3 unusedIndex (k ++ 0x10#5) :: valueWords w d

/-- An instruction of group 5: no operand, every field but P unused (R240). -/
def flag (p : Bool) (op : Byte) : List Word := [format3 p .byte 3 unusedIndex op]

/-- An instruction of the DEX group (R280). -/
def dexGroup (p : Bool) (op : Byte) (w : Width) (k : Nat) (x : BitVec 3) : List Word := [format1 p w k x op]

/-- A one-word instruction of format 0 (R290, R310, R312). -/
def register (p : Bool) (op : Byte) (w : Width) (r : Fin 4) (s : BitVec 4) : List Word := [format0 p w r s op]

end Encode

open Encode in
/-- The words of a well-formed instruction, unused fields written as ones (30_encoding.md R91). An operand form the
instruction does not have gives no words. -/
def encode : Instr → List Word
  | .ora w r o => adcGroup true 0x00 0x02 w r o
  | .and w r o => adcGroup true 0x20 0x02 w r o
  | .eor w r o => adcGroup true 0x40 0x02 w r o
  | .adc w r o => adcGroup true 0x60 0x02 w r o
  | .sta w r m => memory true w r (group0 0x80) m
  | .lda w r o => adcGroup true 0xA0 0x12 w r o
  | .cmp w r o => adcGroup true 0xC0 0x12 w r o
  | .sbc w r o => adcGroup true 0xE0 0x12 w r o
  | .add w r o => adcGroup false 0x60 0x02 w r o
  | .sub w r o => adcGroup false 0xE0 0x12 w r o
  | .sts w g m => memory false w g.number (group0 0x80) m
  | .ads w g o => adcGroup false 0xA0 0x12 w g.number o
  | .sbs w g o => adcGroup false 0xC0 0x12 w g.number o
  | .asl w p => aslGroup true 0x00 0x0A w 3 p
  | .lsr w p => aslGroup true 0x40 0x0A w 3 p
  | .rol w p => aslGroup true 0x20 0x0A w 3 p
  | .ror w p => aslGroup true 0x60 0x0A w 3 p
  | .dec w p => aslGroup true 0xC0 0x1A w 3 p
  | .inc w p => aslGroup true 0xE0 0x1A w 3 p
  | .asr w p => aslGroup false 0x40 0x0A w 3 p
  | .exg w r p => aslGroup false 0x00 0x0A w r p
  | .bpl w d => branch true 0 w d
  | .bmi w d => branch true 1 w d
  | .bvc w d => branch true 2 w d
  | .bvs w d => branch true 3 w d
  | .bcc w d => branch true 4 w d
  | .bcs w d => branch true 5 w d
  | .bne w d => branch true 6 w d
  | .beq w d => branch true 7 w d
  | .bge w d => branch false 0 w d
  | .blt w d => branch false 1 w d
  | .ble w d => branch false 2 w d
  | .bgt w d => branch false 3 w d
  | .bls w d => branch false 4 w d
  | .bhi w d => branch false 5 w d
  | .bnv w d => branch false 6 w d
  | .bra w d => branch false 7 w d
  | .bit w r m => memory true w r Encode.bit m
  | .jmp m => memory true .byte 3 Encode.jmp m
  | .jsr m => memory true .byte 3 Encode.jsr m
  | .brk v => [format2 true v 0x00]
  | .clc => flag true 0x18
  | .sec => flag true 0x38
  | .cli => flag true 0x58
  | .sei => flag true 0x78
  | .clv => flag true 0xB8
  | .cld => flag true 0xD8
  | .sed => flag true 0xF8
  | .nop => flag true 0xEA
  | .sev => flag false 0xB8
  | .wai => flag false 0xEA
  | .ldx w r o => operand true w r 0xA2 none Encode.ldx o
  | .ldy w r o => operand true w r 0xA0 none Encode.ldy o
  | .stx w r m => memory true w r Encode.stx m
  | .sty w r m => memory true w r Encode.sty m
  | .cpx w r o => operand true w r 0xE0 (some 0xE2) Encode.cpx o
  | .cpy w r o => operand true w r 0xC0 (some 0xC2) Encode.cpy o
  | .adx w r o => operand false w r 0xA2 none Encode.ldx o
  | .ady w r o => operand false w r 0xA0 none Encode.ldy o
  | .sbx w r o => operand false w r 0xE0 (some 0xE2) Encode.cpx o
  | .dex w k t => dexGroup true 0xCA w k t.number
  | .dey w k t => dexGroup true 0x88 w k t.number
  | .inx w k t => dexGroup true 0xE8 w k t.number
  | .iny w k t => dexGroup true 0xC8 w k t.number
  | .ina w k t => dexGroup false 0xC8 w k t.number
  | .des w k g => dexGroup false 0xCA w k (IndexReg.file g.number).number
  | .ins w k g => dexGroup false 0xE8 w k (IndexReg.file g.number).number
  | .pha w r sr => register true 0x48 w r sr.number
  | .php sr => register true 0x08 .byte 3 sr.number
  | .pla w r sr => register true 0x68 w r sr.number
  | .plp sr => register true 0x28 .byte 3 sr.number
  | .psh w v sr => format0 true w 3 sr.number 0x89 :: valueWords w v
  | .phx w r sr => register false 0x48 w r sr.number
  | .phy w r sr => register false 0x08 w r sr.number
  | .plx w r sr => register false 0x68 w r sr.number
  | .ply w r sr => register false 0x28 w r sr.number
  | .pop w v sr => format0 false w 3 sr.number 0x89 :: valueWords w v
  | .rti sr => register true 0x40 .byte 3 sr.number
  | .rts sr => register true 0x60 .byte 3 sr.number
  | .tax w r s => register true 0xAA w r (s.number ^^^ 0b0100)
  | .tay w r s => register true 0xA8 w r (s.number ^^^ 0b1000)
  | .txa w r s => register true 0x8A w r (s.number ^^^ 0b0100)
  | .tya w r s => register true 0x98 w r (s.number ^^^ 0b1000)
  | .tsx w r s => register true 0xBA w r s.number
  | .txs w r s => register true 0x9A w r s.number
  | .txy w r s => register false 0x8A w r (s.number ^^^ 0b0100)
  | .tyx w r s => register false 0x98 w r (s.number ^^^ 0b1000)
  | .tyy w r s => register false 0xA8 w r (s.number ^^^ 0b1000)
  | .txx w r s => register false 0xAA w r (s.number ^^^ 0b0100)

end Sys2Proof
end

