-- ==== Sys2Proof/Config.lean ====
section
/-! DEFINITION. The open parameters of the 65020 (00_scope.md R6, 92_eei_decisions.md "Open parameters"): values the
spec leaves free. Each is opaque, so that no proof can know it. -/

namespace Sys2Proof.Config

/-- What an addition or subtraction yields: a result and the flags N V Z C. It is what `BcdAdc` and `BcdSbc` yield
(40_group0_accumulator.md R132), and what the binary adder yields with N and Z of its result. -/
structure ArithResult (n : Nat) where
  result : BitVec n
  negative : Bool
  overflow : Bool
  zero : Bool
  carry : Bool
deriving DecidableEq, Repr, Inhabited

/-- `BcdAdc(a, m, cin, n)`: ADC and ADD with the decimal flag set (R132). A free value (log 7). -/
opaque bcdAdc (n : Nat) (a m : BitVec n) (cin : Bool) : ArithResult n

/-- `BcdSbc(a, m, cin, n)`: SBC and SUB with the decimal flag set (R132). A free value (log 7). -/
opaque bcdSbc (n : Nat) (a m : BitVec n) (cin : Bool) : ArithResult n

/-- `ResetValues` for registers: what register `k` of the S table (10_state.md R22) holds after the reset event
number `draw` (R33, 70_reset_and_hazards.md R380). A free value (log 4). -/
opaque resetRegister (draw : Nat) (k : BitVec 4) : Long

/-- `ResetValues` for the flags N V D Z C, by their bit of the status byte (R28), after the reset event number
`draw` (R33, R380). A free value (log 4). -/
opaque resetFlag (draw : Nat) (bit : Fin 8) : Bool

/-- `ResetValues` for memory: what memory holds after the reset event number `draw`, as cells in any order (R33, R380,
93_implementation_defined.md U5). It may depend on what memory held before, and may be that. A free value (log 5). -/
opaque resetMemory (draw : Nat) (before : List Host.Cell) : List Host.Cell

end Sys2Proof.Config
end

