-- ==== Sys2Proof/Machine/Memory.lean ====
section
/-! DEFINITION. The memory: 2^32 words of 16 bits (20_memory.md R50), held as byte cells in one canonical form. The word
at address `a` is the cells `2a` (bits 7:0) and `2a + 1` (bits 15:8) (log 1). Every word is RAM (log 6). -/

namespace Sys2Proof.Machine

/-- The memory's cells: keys strictly rising, no cell equal to `unlisted`, so that equal memories are equal lists. -/
abbrev Memory := List Host.Cell

/-- What a byte reads as that no cell lists. DESIGN CHOICE, unsafe (log 2): the spec leaves memory after reset free. -/
def unlisted : Byte := 0

/-- The number of byte cells: two for each of the 2^32 words. -/
def cellCount : Nat := 2 ^ 33

/-- The cell of bits 7:0 of the word at `a`. -/
def lowCell (a : Long) : Nat := 2 * a.toNat

/-- The cell of bits 15:8 of the word at `a`. -/
def highCell (a : Long) : Nat := 2 * a.toNat + 1

/-- The byte of one cell. -/
def Memory.readByte : Memory → Nat → Byte
  | [], _ => unlisted
  | (k, b) :: rest, q => if k = q then b else Memory.readByte rest q

/-- Write the byte of one cell, keeping the canonical form. -/
def Memory.writeByte : Memory → Nat → Byte → Memory
  | [], q, b => if b = unlisted then [] else [(q, b)]
  | (k, c) :: rest, q, b =>
    if q < k then (if b = unlisted then (k, c) :: rest else (q, b) :: (k, c) :: rest)
    else if q = k then (if b = unlisted then rest else (q, b) :: rest)
    else (k, c) :: Memory.writeByte rest q b

/-- The memory in canonical form that holds the cells of a list, an earlier cell of one address over a later one; a cell
outside the address space is dropped. -/
def Memory.ofCells : List Host.Cell → Memory
  | [] => []
  | (k, b) :: rest => if k < cellCount then (Memory.ofCells rest).writeByte k b else Memory.ofCells rest

/-- `Mem[a]` (R50). -/
def Memory.readWord (m : Memory) (a : Long) : Word := m.readByte (highCell a) ++ m.readByte (lowCell a)

/-- `Mem[a] <- w`. -/
def Memory.writeWord (m : Memory) (a : Long) (w : Word) : Memory :=
  (m.writeByte (lowCell a) (lowByte w)).writeByte (highCell a) (highByte w)

/-- `MemRead(a, n)` (R53, R54). -/
def Memory.read (m : Memory) (a : Long) : (w : Width) → BitVec w.bits
  | .byte => m.readByte (lowCell a)
  | .long => join (m.readWord a) (m.readWord (a + 1))

/-- `MemWrite(a, n, v)` (R55, R56): a byte write keeps bits 15:8 of the word. -/
def Memory.write (m : Memory) (a : Long) (w : Width) (v : BitVec w.bits) : Memory :=
  match w, v with
  | .byte, v => m.writeByte (lowCell a) v
  | .long, v => (m.writeWord a (splitLow v)).writeWord (a + 1) (splitHigh v)

/-- The cells of a memory whose keys start at `lo` at the lowest are in canonical form. -/
def Memory.wfFrom (lo : Nat) : Memory → Bool
  | [] => true
  | (k, b) :: rest => lo ≤ k && k < cellCount && b != unlisted && Memory.wfFrom (k + 1) rest

/-- The canonical form: keys strictly rising and inside the address space, no cell equal to `unlisted`. -/
def Memory.wf (m : Memory) : Bool := Memory.wfFrom 0 m

end Sys2Proof.Machine
end

