-- ==== Sys2Proof/Machine/State.lean ====
section
/-! DEFINITION. The state of the 65020 (10_state.md): sixteen registers, six flags, the memory, two hidden bits for
interrupts; and two fields of the model's own, the samples of the input lines still to come and a counter of free
draws. All of it is plain data. -/

namespace Sys2Proof.Machine

/-- The six stored flags (10_state.md R27). B is no stored flag (R28). -/
structure Flags where
  /-- `fN`, negative. -/
  n : Bool
  /-- `fV`, overflow. -/
  v : Bool
  /-- `fD`, decimal mode. -/
  d : Bool
  /-- `fI`, interrupt disable. -/
  i : Bool
  /-- `fZ`, zero. -/
  z : Bool
  /-- `fC`, carry. -/
  c : Bool
deriving DecidableEq, Repr

/-- One sample of the three input lines (60_exceptions.md R342). -/
structure Lines where
  /-- `ResetLine(t)`. -/
  reset : Bool
  /-- `NmiEdge(t)`: an edge arrived since the last step. -/
  nmi : Bool
  /-- `IrqLine(t)`: a level. -/
  irq : Bool
deriving DecidableEq, Repr

/-- The state of the machine. -/
structure State where
  /-- A0 to A3 (R20). -/
  a : Vector Long 4
  /-- X0 to X3 (R20). -/
  x : Vector Long 4
  /-- Y0 to Y3 (R20). -/
  y : Vector Long 4
  /-- PC (R21, R23): between steps the address of the next instruction. -/
  pc : Long
  /-- Z0 (R21, R26): an ordinary register. -/
  z0 : Long
  /-- Z1 (R21). -/
  z1 : Long
  /-- SP (R21). -/
  sp : Long
  /-- The flags (R27). -/
  flags : Flags
  /-- `nmi_pending` (R31). -/
  nmiPending : Bool
  /-- `waiting` (R31): set by WAI. -/
  waiting : Bool
  /-- The memory (R32). -/
  mem : Memory
  /-- The model's own: the samples of the input lines at the coming steps, the next one first; a step past the end of
  the list samples all lines 0 (log 8). -/
  inputs : List Lines
  /-- The model's own: how many free draws have been taken (log 4). -/
  draws : Nat
deriving DecidableEq, Repr

/-- Why a step can stop with a fault. Both are the `Undefined` of the spec, no exception of the machine. -/
inductive Fault where
  /-- Raised by the step when the opcode word at PC names an unassigned slot `(xP, op)` (30_encoding.md R120,
  93_implementation_defined.md U1). Safe: the spec gives the slot no meaning and asks for a fault (log 9). -/
  | unassignedSlot (standard : Bool) (op : Byte)
  /-- Raised by an instruction of the PHA or RTS group whose stack register is PC (48_group8_stack.md R290,
  49_group9_10_returns_transfers.md R310, R311, U2). Safe: the spec asks for a fault (log 10). -/
  | pcAsStackRegister
deriving DecidableEq, Repr

/-- Why an instruction can be refused. -/
inductive Refusal where
  /-- Raised by an arm of `exec` for an instruction that has no meaning in the model. No arm raises it: every
  instruction has its meaning. Safe. -/
  | notModelled (mnemonic : String)
deriving DecidableEq, Repr

/-- The machine right after reset (10_state.md R33, 60_exceptions.md R349): `fI` = 1, `nmi_pending` = `waiting` = 0, PC
the longword at `$FFFFFFFC`. DESIGN CHOICE, unsafe (log 2, log 3, log 8): no memory cell is listed, every register and
flag the spec leaves free is 0, and no input is scheduled. -/
def State.reset : State where
  a := #v[0, 0, 0, 0]
  x := #v[0, 0, 0, 0]
  y := #v[0, 0, 0, 0]
  pc := Memory.read [] 0xFFFFFFFC .long
  z0 := 0
  z1 := 0
  sp := 0
  flags := ⟨false, false, false, true, false, false⟩
  nmiPending := false
  waiting := false
  mem := []
  inputs := []
  draws := 0

end Sys2Proof.Machine
end

