-- ==== Sys2Proof/Machine/Flags.lean ====
section
/-! DEFINITION. Every flag computation of the spec: N and Z of a result, the adder, the shifts and rotates, the status
byte. Each works at the operation width `n` (10_state.md R29). -/

namespace Sys2Proof.Machine

open Config (ArithResult)

/-- `setNZ(v, n)` (10_state.md R29). -/
def Flags.setNZ {n : Nat} (f : Flags) (v : BitVec n) : Flags := { f with n := v.msb, z := v == 0 }

/-- N V Z C of an addition or subtraction. -/
def Flags.setArith {n : Nat} (f : Flags) (x : ArithResult n) : Flags :=
  { f with n := x.negative, v := x.overflow, z := x.zero, c := x.carry }

/-- N Z C of a comparison; V is kept (40_group0_accumulator.md R139). -/
def Flags.setCompare {n : Nat} (f : Flags) (x : ArithResult n) : Flags :=
  { f with n := x.negative, z := x.zero, c := x.carry }

/-- N Z of a result and C (41_group1_shifts.md). -/
def Flags.setNZC {n : Nat} (f : Flags) (v : BitVec n) (c : Bool) : Flags := { f.setNZ v with c := c }

/-- `AddCore(a, m, cin, n)` (40_group0_accumulator.md R131), with N and Z of its result. -/
def addCore {n : Nat} (a m : BitVec n) (cin : Bool) : ArithResult n :=
  let s := a.toNat + m.toNat + cin.toNat
  let r := BitVec.ofNat n s
  { result := r
    negative := r.msb
    overflow := ((a ^^^ r) &&& (m ^^^ r)).msb
    zero := r == 0
    carry := decide (2 ^ n ≤ s) }

/-- `AddCore(a, not_n(m), cin, n)`: subtraction (R131, R140). -/
def subCore {n : Nat} (a m : BitVec n) (cin : Bool) : ArithResult n := addCore a (~~~m) cin

/-- The adder of ADC and ADD, which honour the decimal flag (R132, R136, R141). -/
def addDecimal {n : Nat} (d : Bool) (a m : BitVec n) (cin : Bool) : ArithResult n :=
  if d then Config.bcdAdc n a m cin else addCore a m cin

/-- The subtractor of SBC and SUB, which honour the decimal flag (R132, R140, R142). -/
def subDecimal {n : Nat} (d : Bool) (a m : BitVec n) (cin : Bool) : ArithResult n :=
  if d then Config.bcdSbc n a m cin else subCore a m cin

/-- A shift or rotate yields a result and a carry, from the operand and the old carry. -/
abbrev Shift (n : Nat) := BitVec n → Bool → BitVec n × Bool

/-- The carry flag as a number. -/
def carryBit (n : Nat) (c : Bool) : BitVec n := (BitVec.ofBool c).setWidth n

/-- ASL (41_group1_shifts.md R161). -/
def shiftLeft {n : Nat} : Shift n := fun t _ => (t <<< 1, t.msb)

/-- LSR (R162). -/
def shiftRight {n : Nat} : Shift n := fun t _ => (t >>> 1, t.getLsbD 0)

/-- ROL (R163). -/
def rotateLeft {n : Nat} : Shift n := fun t c => ((t <<< 1) ||| carryBit n c, t.msb)

/-- ROR (R164). -/
def rotateRight {n : Nat} : Shift n := fun t c => ((t >>> 1) ||| (carryBit n c <<< (n - 1)), t.getLsbD 0)

/-- ASR (R167). -/
def arithmeticRight {n : Nat} : Shift n := fun t _ => ((t >>> 1) ||| (t &&& BitVec.twoPow n (n - 1)), t.getLsbD 0)

/-- `SR(b)`: the status byte `fN : fV : 1 : b : fD : fI : fZ : fC` (10_state.md R28). -/
def Flags.status (f : Flags) (b : Bool) : Byte :=
  BitVec.ofBool f.n ++ BitVec.ofBool f.v ++ 1#1 ++ BitVec.ofBool b ++ BitVec.ofBool f.d ++ BitVec.ofBool f.i
    ++ BitVec.ofBool f.z ++ BitVec.ofBool f.c

/-- The flags a pulled status byte gives; bits 5 and 4 are ignored (10_state.md R28, 48_group8_stack.md R294). -/
def Flags.ofStatus (b : Byte) : Flags where
  n := b.getLsbD 7
  v := b.getLsbD 6
  d := b.getLsbD 3
  i := b.getLsbD 2
  z := b.getLsbD 1
  c := b.getLsbD 0

end Sys2Proof.Machine
end

