-- ==== Sys2Proof/Machine/Ops.lean ====
section
/-! DEFINITION. The named operations over registers, memory and the stack; taking a trap, returning from one, and the
reset event. -/

namespace Sys2Proof.Machine

/-! ## Registers. While an instruction runs, `pc` already holds `npc` (see `State.advance`), so reading PC gives `npc`
and writing it is the control transfer of 10_state.md R24 and R25 (log 16). -/

/-- The contents of a register (10_state.md R20, R21). -/
def State.reg (s : State) : Reg → Long
  | .a i => s.a[i]
  | .x i => s.x[i]
  | .y i => s.y[i]
  | .g3 .pc => s.pc
  | .g3 .z0 => s.z0
  | .g3 .z1 => s.z1
  | .g3 .sp => s.sp

/-- Replace the contents of a register. -/
def State.setReg (s : State) (r : Reg) (v : Long) : State :=
  match r with
  | .a i => { s with a := s.a.set i v }
  | .x i => { s with x := s.x.set i v }
  | .y i => { s with y := s.y.set i v }
  | .g3 .pc => { s with pc := v }
  | .g3 .z0 => { s with z0 := v }
  | .g3 .z1 => { s with z1 := v }
  | .g3 .sp => { s with sp := v }

/-- `RegRead(r, n)` (10_state.md R24). -/
def State.read (s : State) (r : Reg) (w : Width) : BitVec w.bits := (s.reg r).setWidth w.bits

/-- `RegWrite(r, n, v)` (10_state.md R25): a byte write keeps bits 31:8. -/
def State.write (s : State) (r : Reg) (w : Width) (v : BitVec w.bits) : State :=
  s.setReg r (replaceLow w (s.reg r) v)

/-- Replace the flags. -/
def State.setFlags (s : State) (f : Flags) : State := { s with flags := f }

/-- `pc <- t`: a control transfer (10_state.md R23). -/
def State.jump (s : State) (t : Long) : State := { s with pc := t }

/-- `pc <- npc`, for an instruction of `len` words (10_state.md R23). Every meaning begins with it: while the
instruction runs PC reads as `npc`, and it ends there unless it writes PC. -/
def State.advance (s : State) (len : Nat) : State := s.jump (s.pc + BitVec.ofNat 32 len)

/-- Write a result to a register and set N and Z from it. -/
def State.writeNZ (s : State) (r : Reg) (w : Width) (v : BitVec w.bits) : State :=
  (s.write r w v).setFlags (s.flags.setNZ v)

/-- Write an addition's or subtraction's result to a register and set N V Z C. -/
def State.writeArith (s : State) (r : Reg) (w : Width) (x : Config.ArithResult w.bits) : State :=
  (s.write r w x.result).setFlags (s.flags.setArith x)

/-! ## Memory -/

/-- `MemRead(a, n)` (20_memory.md R53, R54). -/
def State.load (s : State) (a : Long) (w : Width) : BitVec w.bits := s.mem.read a w

/-- `MemWrite(a, n, v)` (20_memory.md R55, R56). -/
def State.store (s : State) (a : Long) (w : Width) (v : BitVec w.bits) : State :=
  { s with mem := s.mem.write a w v }

/-! ## The stack, through any register, at its full 32 bits -/

/-- The words a datum takes on a stack: 1 for a byte, 2 for a longword. -/
def stackWords : Width → Long
  | .byte => 1
  | .long => 2

/-- The lowest word a push writes: `sp` for a byte, `sp - 1` for a longword (20_memory.md R60). -/
def pushAddress (sp : Long) : Width → Long
  | .byte => sp
  | .long => sp - 1

/-- `Push(sr, n, v)` (20_memory.md R60). -/
def State.push (s : State) (sr : Reg) (w : Width) (v : BitVec w.bits) : State :=
  (s.store (pushAddress (s.reg sr) w) w v).setReg sr (s.reg sr - stackWords w)

/-- What `Pull(sr, n)` returns (20_memory.md R61). -/
def State.pulled (s : State) (sr : Reg) (w : Width) : BitVec w.bits := s.load (s.reg sr + 1) w

/-- What `Pull(sr, n)` does to the stack register (20_memory.md R61). -/
def State.pull (s : State) (sr : Reg) (w : Width) : State := s.setReg sr (s.reg sr + stackWords w)

/-- A group 8 or 9 instruction with PC as the stack register is `Undefined` (48_group8_stack.md R290); with any other it
goes on to `t`. -/
def onStack (sr : Reg) (t : State) : Host.Outcome State Fault Refusal :=
  if sr = .g3 .pc then .fault .pcAsStackRegister else .next t

/-! ## Traps and reset -/

/-- The register that traps and JSR push through. -/
def spReg : Reg := .g3 .sp

/-- `TrapEnter(ret, b, vec)`: the entry of BRK, IRQ and NMI (60_exceptions.md R344). -/
def State.enterTrap (s : State) (ret : Long) (b : Bool) (vec : Long) : State :=
  let s := s.push spReg .long ret
  let s := s.push spReg .byte (s.flags.status b)
  let s := s.setFlags { s.flags with i := true }
  s.jump (s.load vec .long)

/-- Return from a trap: pull the status byte, then PC (49_group9_10_returns_transfers.md R310, 60_exceptions.md R348). -/
def State.leaveTrap (s : State) (sr : Reg) : State :=
  let b := s.pulled sr .byte
  let s := (s.pull sr .byte).setFlags (Flags.ofStatus b)
  let t := s.pulled sr .long
  (s.pull sr .long).jump t

/-- `$FFFFFF00 + 2*V` (30_encoding.md R89, 60_exceptions.md R341). -/
def vectorAddress (v : BitVec 7) : Long := 0xFFFFFF00 + 2 * zext v

/-- NMI is vector 125, `$FFFFFFFA` (60_exceptions.md R341). -/
def nmiVector : Long := 0xFFFFFFFA

/-- Reset is vector 126, `$FFFFFFFC` (60_exceptions.md R341). -/
def resetVector : Long := 0xFFFFFFFC

/-- IRQ is vector 127, `$FFFFFFFE` (60_exceptions.md R341). -/
def irqVector : Long := 0xFFFFFFFE

/-- What the reset event number `draw` leaves in register `r`: any value (10_state.md R33; log 4). -/
def drawnRegister (draw : Nat) (r : Reg) : Long := Config.resetRegister draw r.number

/-- What the reset event number `draw` leaves in memory: any contents (10_state.md R33; log 5). -/
def drawnMemory (draw : Nat) (before : Memory) : Memory := Memory.ofCells (Config.resetMemory draw before)

/-- The reset event (60_exceptions.md R349): `fI <- 1`, the hidden bits cleared, PC the longword at the reset vector. The
other registers and flags and all of memory are unspecified after it (10_state.md R33, 70_reset_and_hazards.md R380):
they are free draws (log 4, log 5). PC is read from memory as the reset leaves it. -/
def State.resetEvent (s : State) : State :=
  { s with
    a := Vector.ofFn fun i => drawnRegister s.draws (.a i)
    x := Vector.ofFn fun i => drawnRegister s.draws (.x i)
    y := Vector.ofFn fun i => drawnRegister s.draws (.y i)
    pc := (drawnMemory s.draws s.mem).read resetVector .long
    z0 := drawnRegister s.draws (.g3 .z0)
    z1 := drawnRegister s.draws (.g3 .z1)
    sp := drawnRegister s.draws (.g3 .sp)
    flags :=
      { n := Config.resetFlag s.draws 7
        v := Config.resetFlag s.draws 6
        d := Config.resetFlag s.draws 3
        i := true
        z := Config.resetFlag s.draws 1
        c := Config.resetFlag s.draws 0 }
    nmiPending := false
    waiting := false
    mem := drawnMemory s.draws s.mem
    draws := s.draws + 1 }

end Sys2Proof.Machine
end

