-- ==== Sys2Proof/Machine/Operands.lean ====
section
/-! DEFINITION. The addressing modes: index values, effective addresses and operand values (30_encoding.md R93 to R108).
All are read in the state in which PC is already `npc`. -/

namespace Sys2Proof.Machine

/-- The register field X selects, `file` being the file of the mode or the mnemonic (30_encoding.md R86). -/
def indexRegister (file : Fin 4 → Reg) : IndexReg → Reg
  | .g3 g => .g3 g
  | .file i => file i

/-- `idx`: the index value, zero-extended when it is 8 bits (R85, R94). -/
def State.index (s : State) (file : Fin 4 → Reg) (ix : Index) : Long :=
  zext (s.read (indexRegister file ix.reg) ix.size)

/-- The address of `zp,X` and `zp,Y`: with an 8 bit index the sum wraps inside the zero page (R97). -/
def zpIndexed (o : Word) (size : Width) (idx : Long) : Long :=
  match size with
  | .byte => (zpaddr o).extractLsb' 8 24 ++ (lowByte o + idx.extractLsb' 0 8)
  | .long => zpaddr o + idx

/-- `EA`: the effective address of a memory mode (R96 to R103). -/
def State.ea (s : State) : MemMode → Long
  | .zp o => zpaddr o
  | .zpX o ix => zpIndexed o ix.size (s.index .x ix)
  | .zpY o ix => zpIndexed o ix.size (s.index .y ix)
  | .abs base => base
  | .absX base ix => base + s.index .x ix
  | .absY base ix => base + s.index .y ix
  | .ind base => s.load base .long
  | .indX base ix => s.load (base + s.index .x ix) .long
  | .indY base ix => s.load base .long + s.index .y ix
  | .zpIndX o ix => s.load (zpIndexed o ix.size (s.index .x ix)) .long
  | .zpIndY o ix => s.load (zpaddr o) .long + s.index .y ix

/-- `M`: the operand of an instruction that reads (R95, R104, R107). -/
def State.operand (s : State) (w : Width) : Operand → BitVec w.bits
  | .imm v => v.setWidth w.bits
  | .acc r => s.read r w
  | .mem m => s.load (s.ea m) w

/-- `t`: the operand of a read-modify-write instruction (41_group1_shifts.md R160). -/
def State.placeValue (s : State) (w : Width) : Place → BitVec w.bits
  | .acc r => s.read r w
  | .mem m => s.load (s.ea m) w

/-- Write the result of a read-modify-write instruction back to its operand (R160). -/
def State.writePlace (s : State) (w : Width) (p : Place) (v : BitVec w.bits) : State :=
  match p with
  | .acc r => s.write r w v
  | .mem m => s.store (s.ea m) w v

end Sys2Proof.Machine
end

