-- ==== Sys2Proof/Machine/Accumulator.lean ====
section
/-! DEFINITION. Group 0, the ADC group (40_group0_accumulator.md R130 to R146). -/

namespace Sys2Proof.Machine

open Config (ArithResult)

/-- Combine a register with the operand bit by bit, write the result and set N Z. -/
def State.logic (s : State) (w : Width) (dst : Reg) (o : Operand)
    (f : BitVec w.bits → BitVec w.bits → BitVec w.bits) : State :=
  let s := s.advance (o.len w)
  s.writeNZ dst w (f (s.read dst w) (s.operand w o))

/-- Add the operand to, or subtract it from, a register, write the result and set N V Z C. `f` sees the flags before. -/
def State.arith (s : State) (w : Width) (dst : Reg) (o : Operand)
    (f : Flags → BitVec w.bits → BitVec w.bits → ArithResult w.bits) : State :=
  let s := s.advance (o.len w)
  s.writeArith dst w (f s.flags (s.read dst w) (s.operand w o))

/-- Load the operand into a register and set N Z. -/
def State.loadReg (s : State) (w : Width) (dst : Reg) (o : Operand) : State :=
  let s := s.advance (o.len w)
  s.writeNZ dst w (s.operand w o)

/-- Store a register at the effective address. -/
def State.storeReg (s : State) (w : Width) (src : Reg) (m : MemMode) : State :=
  let s := s.advance m.len
  s.store (s.ea m) w (s.read src w)

/-- Compare a register with the operand: N Z C of the difference. -/
def State.compare (s : State) (w : Width) (r : Reg) (o : Operand) : State :=
  let s := s.advance (o.len w)
  s.setFlags (s.flags.setCompare (subCore (s.read r w) (s.operand w o) true))

/-- ORA (R133). -/
def execOra (w : Width) (r : Fin 4) (o : Operand) (s : State) : Host.Outcome State Fault Refusal :=
  .next (s.logic w (.a r) o fun a m => a ||| m)

/-- AND (R134). -/
def execAnd (w : Width) (r : Fin 4) (o : Operand) (s : State) : Host.Outcome State Fault Refusal :=
  .next (s.logic w (.a r) o fun a m => a &&& m)

/-- EOR (R135). -/
def execEor (w : Width) (r : Fin 4) (o : Operand) (s : State) : Host.Outcome State Fault Refusal :=
  .next (s.logic w (.a r) o fun a m => a ^^^ m)

/-- ADC (R136, R132). -/
def execAdc (w : Width) (r : Fin 4) (o : Operand) (s : State) : Host.Outcome State Fault Refusal :=
  .next (s.arith w (.a r) o fun f a m => addDecimal f.d a m f.c)

/-- STA (R137). -/
def execSta (w : Width) (r : Fin 4) (m : MemMode) (s : State) : Host.Outcome State Fault Refusal :=
  .next (s.storeReg w (.a r) m)

/-- LDA (R138). -/
def execLda (w : Width) (r : Fin 4) (o : Operand) (s : State) : Host.Outcome State Fault Refusal :=
  .next (s.loadReg w (.a r) o)

/-- CMP (R139). -/
def execCmp (w : Width) (r : Fin 4) (o : Operand) (s : State) : Host.Outcome State Fault Refusal :=
  .next (s.compare w (.a r) o)

/-- SBC (R140, R132). -/
def execSbc (w : Width) (r : Fin 4) (o : Operand) (s : State) : Host.Outcome State Fault Refusal :=
  .next (s.arith w (.a r) o fun f a m => subDecimal f.d a m f.c)

/-- ADD (R141, R132): ADC with the carry input 0. -/
def execAdd (w : Width) (r : Fin 4) (o : Operand) (s : State) : Host.Outcome State Fault Refusal :=
  .next (s.arith w (.a r) o fun f a m => addDecimal f.d a m false)

/-- SUB (R142, R132): SBC with the carry input 1. -/
def execSub (w : Width) (r : Fin 4) (o : Operand) (s : State) : Host.Outcome State Fault Refusal :=
  .next (s.arith w (.a r) o fun f a m => subDecimal f.d a m true)

/-- STS (R143, R144): store a register of the fourth group. -/
def execSts (w : Width) (g : G3) (m : MemMode) (s : State) : Host.Outcome State Fault Refusal :=
  .next (s.storeReg w (.g3 g) m)

/-- ADS (R143, R145): add to a register of the fourth group, always binary. -/
def execAds (w : Width) (g : G3) (o : Operand) (s : State) : Host.Outcome State Fault Refusal :=
  .next (s.arith w (.g3 g) o fun _ a m => addCore a m false)

/-- SBS (R143, R146): subtract from a register of the fourth group, always binary. -/
def execSbs (w : Width) (g : G3) (o : Operand) (s : State) : Host.Outcome State Fault Refusal :=
  .next (s.arith w (.g3 g) o fun _ a m => subCore a m true)

end Sys2Proof.Machine
end

