-- ==== Sys2Proof/Machine/Branches.lean ====
section
/-! DEFINITION. Group 2, the branches (42_group2_branches.md R180 to R196). -/

namespace Sys2Proof.Machine

/-- A branch: to `npc + d` if the condition holds, else to `npc` (R105, R180). -/
def State.branch (s : State) (w : Width) (d : Long) (cond : Bool) : State :=
  let s := s.advance w.len
  if cond then s.jump (s.pc + d) else s

/-- BPL (R181). -/
def execBpl (w : Width) (d : Long) (s : State) : Host.Outcome State Fault Refusal :=
  .next (s.branch w d (!s.flags.n))

/-- BMI (R182). -/
def execBmi (w : Width) (d : Long) (s : State) : Host.Outcome State Fault Refusal :=
  .next (s.branch w d (s.flags.n))

/-- BVC (R183). -/
def execBvc (w : Width) (d : Long) (s : State) : Host.Outcome State Fault Refusal :=
  .next (s.branch w d (!s.flags.v))

/-- BVS (R184). -/
def execBvs (w : Width) (d : Long) (s : State) : Host.Outcome State Fault Refusal :=
  .next (s.branch w d (s.flags.v))

/-- BCC (R185). -/
def execBcc (w : Width) (d : Long) (s : State) : Host.Outcome State Fault Refusal :=
  .next (s.branch w d (!s.flags.c))

/-- BCS (R186). -/
def execBcs (w : Width) (d : Long) (s : State) : Host.Outcome State Fault Refusal :=
  .next (s.branch w d (s.flags.c))

/-- BNE (R187). -/
def execBne (w : Width) (d : Long) (s : State) : Host.Outcome State Fault Refusal :=
  .next (s.branch w d (!s.flags.z))

/-- BEQ (R188). -/
def execBeq (w : Width) (d : Long) (s : State) : Host.Outcome State Fault Refusal :=
  .next (s.branch w d (s.flags.z))

/-- BGE (R189). -/
def execBge (w : Width) (d : Long) (s : State) : Host.Outcome State Fault Refusal :=
  .next (s.branch w d (s.flags.n == s.flags.v))

/-- BLT (R190). -/
def execBlt (w : Width) (d : Long) (s : State) : Host.Outcome State Fault Refusal :=
  .next (s.branch w d (s.flags.n != s.flags.v))

/-- BLE (R191). -/
def execBle (w : Width) (d : Long) (s : State) : Host.Outcome State Fault Refusal :=
  .next (s.branch w d (s.flags.z || s.flags.n != s.flags.v))

/-- BGT (R192). -/
def execBgt (w : Width) (d : Long) (s : State) : Host.Outcome State Fault Refusal :=
  .next (s.branch w d (!s.flags.z && s.flags.n == s.flags.v))

/-- BLS (R193). -/
def execBls (w : Width) (d : Long) (s : State) : Host.Outcome State Fault Refusal :=
  .next (s.branch w d (!s.flags.c || s.flags.z))

/-- BHI (R194). -/
def execBhi (w : Width) (d : Long) (s : State) : Host.Outcome State Fault Refusal :=
  .next (s.branch w d (s.flags.c && !s.flags.z))

/-- BNV (R195: never). -/
def execBnv (w : Width) (d : Long) (s : State) : Host.Outcome State Fault Refusal :=
  .next (s.branch w d (false))

/-- BRA (R196: always). -/
def execBra (w : Width) (d : Long) (s : State) : Host.Outcome State Fault Refusal :=
  .next (s.branch w d (true))

end Sys2Proof.Machine
end

