-- ==== Sys2Proof/Machine/Control.lean ====
section
/-! DEFINITION. Group 3, BIT JMP JSR (43_group3_bit_jmp_jsr.md R210 to R212), and group 4, BRK (44_group4_brk.md R230). -/

namespace Sys2Proof.Machine

/-- The flags of BIT: Z from the AND, N and V the two top bits of the operand (R210). -/
def Flags.setBit {n : Nat} (f : Flags) (a m : BitVec n) : Flags :=
  { f with n := m.getLsbD (n - 1), v := m.getLsbD (n - 2), z := a &&& m == 0 }

/-- BIT (R210). -/
def execBit (w : Width) (r : Fin 4) (m : MemMode) (s : State) : Host.Outcome State Fault Refusal :=
  let s := s.advance m.len
  .next (s.setFlags (s.flags.setBit (s.read (.a r) w) (s.load (s.ea m) w)))

/-- JMP (R211). -/
def execJmp (m : MemMode) (s : State) : Host.Outcome State Fault Refusal :=
  let s := s.advance m.len
  .next (s.jump (s.ea m))

/-- JSR (R212): the target is computed first; `npc - 1` is pushed as a longword through SP. -/
def execJsr (m : MemMode) (s : State) : Host.Outcome State Fault Refusal :=
  let s := s.advance m.len
  .next ((s.push spReg .long (s.pc - 1)).jump (s.ea m))

/-- BRK (R230, 60_exceptions.md R345): the trap entry through vector `v`, with `pc + 2` pushed and B = 1. -/
def execBrk (v : BitVec 7) (s : State) : Host.Outcome State Fault Refusal :=
  .next (s.enterTrap (s.pc + 2) true (vectorAddress v))

end Sys2Proof.Machine
end

