-- ==== Sys2Proof/Machine/Counting.lean ====
section
/-! DEFINITION. Group 7, the DEX group (47_group7_index_incdec.md R280 to R287). -/

namespace Sys2Proof.Machine

/-- Change a register by a function and set N Z; with PC the value read is `npc` and the write a jump (R280). -/
def State.stepReg (s : State) (w : Width) (t : Reg) (f : BitVec w.bits → BitVec w.bits) : State :=
  let s := s.advance 1
  s.writeNZ t w (f (s.read t w))

/-- DEX (R281). -/
def execDex (w : Width) (k : Nat) (t : IndexReg) (s : State) : Host.Outcome State Fault Refusal :=
  .next (s.stepReg w (indexRegister .x t) fun a => a - BitVec.ofNat w.bits k)

/-- DEY (R282). -/
def execDey (w : Width) (k : Nat) (t : IndexReg) (s : State) : Host.Outcome State Fault Refusal :=
  .next (s.stepReg w (indexRegister .y t) fun a => a - BitVec.ofNat w.bits k)

/-- INX (R283). -/
def execInx (w : Width) (k : Nat) (t : IndexReg) (s : State) : Host.Outcome State Fault Refusal :=
  .next (s.stepReg w (indexRegister .x t) fun a => a + BitVec.ofNat w.bits k)

/-- INY (R284). -/
def execIny (w : Width) (k : Nat) (t : IndexReg) (s : State) : Host.Outcome State Fault Refusal :=
  .next (s.stepReg w (indexRegister .y t) fun a => a + BitVec.ofNat w.bits k)

/-- INA (R285). -/
def execIna (w : Width) (k : Nat) (t : IndexReg) (s : State) : Host.Outcome State Fault Refusal :=
  .next (s.stepReg w (indexRegister .a t) fun a => a + BitVec.ofNat w.bits k)

/-- DES (R286). -/
def execDes (w : Width) (k : Nat) (g : G3) (s : State) : Host.Outcome State Fault Refusal :=
  .next (s.stepReg w (.g3 g) fun a => a - BitVec.ofNat w.bits k)

/-- INS (R287). -/
def execIns (w : Width) (k : Nat) (g : G3) (s : State) : Host.Outcome State Fault Refusal :=
  .next (s.stepReg w (.g3 g) fun a => a + BitVec.ofNat w.bits k)

end Sys2Proof.Machine
end

