-- ==== Sys2Proof/Machine/FlagOps.lean ====
section
/-! DEFINITION. Group 5: flag instructions, NOP and WAI (45_group5_flags_nop.md R240 to R250). Each is one word long. -/

namespace Sys2Proof.Machine

/-- CLC (R241). -/
def execClc (s : State) : Host.Outcome State Fault Refusal :=
  .next ((s.advance 1).setFlags { s.flags with c := false })

/-- SEC (R242). -/
def execSec (s : State) : Host.Outcome State Fault Refusal :=
  .next ((s.advance 1).setFlags { s.flags with c := true })

/-- CLI (R243). -/
def execCli (s : State) : Host.Outcome State Fault Refusal :=
  .next ((s.advance 1).setFlags { s.flags with i := false })

/-- SEI (R244). -/
def execSei (s : State) : Host.Outcome State Fault Refusal :=
  .next ((s.advance 1).setFlags { s.flags with i := true })

/-- CLV (R245). -/
def execClv (s : State) : Host.Outcome State Fault Refusal :=
  .next ((s.advance 1).setFlags { s.flags with v := false })

/-- CLD (R246). -/
def execCld (s : State) : Host.Outcome State Fault Refusal :=
  .next ((s.advance 1).setFlags { s.flags with d := false })

/-- SED (R247). -/
def execSed (s : State) : Host.Outcome State Fault Refusal :=
  .next ((s.advance 1).setFlags { s.flags with d := true })

/-- SEV (R249). -/
def execSev (s : State) : Host.Outcome State Fault Refusal :=
  .next ((s.advance 1).setFlags { s.flags with v := true })

/-- NOP (R248). -/
def execNop (s : State) : Host.Outcome State Fault Refusal :=
  .next (s.advance 1)

/-- WAI (R250): from the next boundary on the machine waits for an interrupt request. -/
def execWai (s : State) : Host.Outcome State Fault Refusal :=
  .next { s.advance 1 with waiting := true }

end Sys2Proof.Machine
end

