-- ==== Sys2Proof/Machine/IndexOps.lean ====
section
/-! DEFINITION. Group 6: index register loads, stores, compares and arithmetic (46_group6_index_load_store.md R260 to
R269), over the operations of group 0. -/

namespace Sys2Proof.Machine

/-- LDX (R261). -/
def execLdx (w : Width) (r : Fin 4) (o : Operand) (s : State) : Host.Outcome State Fault Refusal :=
  .next (s.loadReg w (.x r) o)

/-- LDY (R262). -/
def execLdy (w : Width) (r : Fin 4) (o : Operand) (s : State) : Host.Outcome State Fault Refusal :=
  .next (s.loadReg w (.y r) o)

/-- STX (R263). -/
def execStx (w : Width) (r : Fin 4) (m : MemMode) (s : State) : Host.Outcome State Fault Refusal :=
  .next (s.storeReg w (.x r) m)

/-- STY (R264). -/
def execSty (w : Width) (r : Fin 4) (m : MemMode) (s : State) : Host.Outcome State Fault Refusal :=
  .next (s.storeReg w (.y r) m)

/-- CPX (R265). -/
def execCpx (w : Width) (r : Fin 4) (o : Operand) (s : State) : Host.Outcome State Fault Refusal :=
  .next (s.compare w (.x r) o)

/-- CPY (R266). -/
def execCpy (w : Width) (r : Fin 4) (o : Operand) (s : State) : Host.Outcome State Fault Refusal :=
  .next (s.compare w (.y r) o)

/-- ADX (R267): always binary. -/
def execAdx (w : Width) (r : Fin 4) (o : Operand) (s : State) : Host.Outcome State Fault Refusal :=
  .next (s.arith w (.x r) o fun _ a m => addCore a m false)

/-- ADY (R268): always binary. -/
def execAdy (w : Width) (r : Fin 4) (o : Operand) (s : State) : Host.Outcome State Fault Refusal :=
  .next (s.arith w (.y r) o fun _ a m => addCore a m false)

/-- SBX (R269): always binary. -/
def execSbx (w : Width) (r : Fin 4) (o : Operand) (s : State) : Host.Outcome State Fault Refusal :=
  .next (s.arith w (.x r) o fun _ a m => subCore a m true)

end Sys2Proof.Machine
end

