-- ==== Sys2Proof/Machine/Shifts.lean ====
section
/-! DEFINITION. Group 1, the ASL group (41_group1_shifts.md R160 to R168). -/

namespace Sys2Proof.Machine

/-- Shift or rotate the operand: write the result back, set N Z from it and C. -/
def State.shift (s : State) (w : Width) (p : Place) (f : Shift w.bits) : State :=
  let s := s.advance p.len
  let r := f (s.placeValue w p) s.flags.c
  (s.writePlace w p r.1).setFlags (s.flags.setNZC r.1 r.2)

/-- Change the operand by a function: write the result back and set N Z from it. -/
def State.modify (s : State) (w : Width) (p : Place) (f : BitVec w.bits → BitVec w.bits) : State :=
  let s := s.advance p.len
  let r := f (s.placeValue w p)
  (s.writePlace w p r).setFlags (s.flags.setNZ r)

/-- ASL (R161). -/
def execAsl (w : Width) (p : Place) (s : State) : Host.Outcome State Fault Refusal :=
  .next (s.shift w p shiftLeft)

/-- LSR (R162). -/
def execLsr (w : Width) (p : Place) (s : State) : Host.Outcome State Fault Refusal :=
  .next (s.shift w p shiftRight)

/-- ROL (R163). -/
def execRol (w : Width) (p : Place) (s : State) : Host.Outcome State Fault Refusal :=
  .next (s.shift w p rotateLeft)

/-- ROR (R164). -/
def execRor (w : Width) (p : Place) (s : State) : Host.Outcome State Fault Refusal :=
  .next (s.shift w p rotateRight)

/-- DEC (R165): always by 1. -/
def execDec (w : Width) (p : Place) (s : State) : Host.Outcome State Fault Refusal :=
  .next (s.modify w p fun t => t - 1)

/-- INC (R166): always by 1. -/
def execInc (w : Width) (p : Place) (s : State) : Host.Outcome State Fault Refusal :=
  .next (s.modify w p fun t => t + 1)

/-- ASR (R167). -/
def execAsr (w : Width) (p : Place) (s : State) : Host.Outcome State Fault Refusal :=
  .next (s.shift w p arithmeticRight)

/-- EXG (R168): the A register and the operand change places; N Z from what arrives in the A register. -/
def execExg (w : Width) (r : Fin 4) (p : Place) (s : State) : Host.Outcome State Fault Refusal :=
  let s := s.advance p.len
  let t := s.placeValue w p
  .next ((s.writePlace w p (s.read (.a r) w)).writeNZ (.a r) w t)

end Sys2Proof.Machine
end

