-- ==== Sys2Proof/Machine/Stack.lean ====
section
/-! DEFINITION. Group 8, the PHA group (48_group8_stack.md R290 to R300). With PC as the stack register each is
`Undefined` (R290). -/

namespace Sys2Proof.Machine

/-- Push a register; its value is read before the stack register changes (R290). -/
def State.pushReg (s : State) (w : Width) (src sr : Reg) : State :=
  let s := s.advance 1
  s.push sr w (s.read src w)

/-- Pull into a register and set N Z; the stack register changes before the register is written (R290). -/
def State.pullReg (s : State) (w : Width) (dst sr : Reg) : State :=
  let s := s.advance 1
  (s.pull sr w).writeNZ dst w (s.pulled sr w)

/-- PHA (R291). -/
def execPha (w : Width) (r : Fin 4) (sr : Reg) (s : State) : Host.Outcome State Fault Refusal :=
  onStack sr (s.pushReg w (.a r) sr)

/-- PHX (R296). -/
def execPhx (w : Width) (r : Fin 4) (sr : Reg) (s : State) : Host.Outcome State Fault Refusal :=
  onStack sr (s.pushReg w (.x r) sr)

/-- PHY (R297). -/
def execPhy (w : Width) (r : Fin 4) (sr : Reg) (s : State) : Host.Outcome State Fault Refusal :=
  onStack sr (s.pushReg w (.y r) sr)

/-- PLA (R293). -/
def execPla (w : Width) (r : Fin 4) (sr : Reg) (s : State) : Host.Outcome State Fault Refusal :=
  onStack sr (s.pullReg w (.a r) sr)

/-- PLX (R298). -/
def execPlx (w : Width) (r : Fin 4) (sr : Reg) (s : State) : Host.Outcome State Fault Refusal :=
  onStack sr (s.pullReg w (.x r) sr)

/-- PLY (R299). -/
def execPly (w : Width) (r : Fin 4) (sr : Reg) (s : State) : Host.Outcome State Fault Refusal :=
  onStack sr (s.pullReg w (.y r) sr)

/-- PHP (R292): the status byte with bits 5 and 4 set. -/
def execPhp (sr : Reg) (s : State) : Host.Outcome State Fault Refusal :=
  onStack sr ((s.advance 1).push sr .byte (s.flags.status true))

/-- PLP (R294). -/
def execPlp (sr : Reg) (s : State) : Host.Outcome State Fault Refusal :=
  let s := s.advance 1
  onStack sr ((s.pull sr .byte).setFlags (Flags.ofStatus (s.pulled sr .byte)))

/-- PSH (R295). -/
def execPsh (w : Width) (v : Long) (sr : Reg) (s : State) : Host.Outcome State Fault Refusal :=
  onStack sr ((s.advance w.len).push sr w (v.setWidth w.bits))

/-- POP (R300): discard as many words as the immediate says; no memory is read. -/
def execPop (w : Width) (v : Long) (sr : Reg) (s : State) : Host.Outcome State Fault Refusal :=
  let s := s.advance w.len
  onStack sr (s.setReg sr (s.reg sr + zext (v.setWidth w.bits)))

end Sys2Proof.Machine
end

