-- ==== Sys2Proof/Machine/Transfers.lean ====
section
/-! DEFINITION. Group 9, returns, and group 10, register transfers (49_group9_10_returns_transfers.md R310 to R322). -/

namespace Sys2Proof.Machine

/-- RTI (R310): return from a trap through the stack register. -/
def execRti (sr : Reg) (s : State) : Host.Outcome State Fault Refusal :=
  onStack sr ((s.advance 1).leaveTrap sr)

/-- RTS (R311): pull PC and add 1. -/
def execRts (sr : Reg) (s : State) : Host.Outcome State Fault Refusal :=
  onStack sr ((s.pull sr .long).jump (s.pulled sr .long + 1))

/-- Copy a register to a register and set N Z; PC as source reads `npc`, PC as destination is a jump (R312). -/
def State.transfer (s : State) (w : Width) (src dst : Reg) : State :=
  let s := s.advance 1
  s.writeNZ dst w (s.read src w)

/-- TAX (R313). -/
def execTax (w : Width) (r : Fin 4) (t : Reg) (s : State) : Host.Outcome State Fault Refusal :=
  .next (s.transfer w (.a r) t)

/-- TAY (R314). -/
def execTay (w : Width) (r : Fin 4) (t : Reg) (s : State) : Host.Outcome State Fault Refusal :=
  .next (s.transfer w (.a r) t)

/-- TXA (R315). -/
def execTxa (w : Width) (r : Fin 4) (t : Reg) (s : State) : Host.Outcome State Fault Refusal :=
  .next (s.transfer w t (.a r))

/-- TYA (R316). -/
def execTya (w : Width) (r : Fin 4) (t : Reg) (s : State) : Host.Outcome State Fault Refusal :=
  .next (s.transfer w t (.a r))

/-- TSX (R317). -/
def execTsx (w : Width) (r : Fin 4) (t : Reg) (s : State) : Host.Outcome State Fault Refusal :=
  .next (s.transfer w t (.x r))

/-- TXS (R318): no flag is written. -/
def execTxs (w : Width) (r : Fin 4) (t : Reg) (s : State) : Host.Outcome State Fault Refusal :=
  let s := s.advance 1
  .next (s.write t w (s.read (.x r) w))

/-- TXY (R319). -/
def execTxy (w : Width) (r : Fin 4) (t : Reg) (s : State) : Host.Outcome State Fault Refusal :=
  .next (s.transfer w t (.y r))

/-- TYX (R320). -/
def execTyx (w : Width) (r : Fin 4) (t : Reg) (s : State) : Host.Outcome State Fault Refusal :=
  .next (s.transfer w t (.x r))

/-- TYY (R321). -/
def execTyy (w : Width) (r : Fin 4) (t : Reg) (s : State) : Host.Outcome State Fault Refusal :=
  .next (s.transfer w (.y r) t)

/-- TXX (R322). -/
def execTxx (w : Width) (r : Fin 4) (t : Reg) (s : State) : Host.Outcome State Fault Refusal :=
  .next (s.transfer w (.x r) t)

end Sys2Proof.Machine
end

