-- ==== Sys2Proof/Machine/Dispatch.lean ====
section
/-! DEFINITION. One arm per instruction, each one call of its meaning. -/

namespace Sys2Proof.Machine

/-- Run one instruction whose opcode word is at `s.pc`. -/
def exec (i : Instr) (s : State) : Host.Outcome State Fault Refusal :=
  match i with
  | .ora w r o => Sys2Proof.Machine.execOra w r o s
  | .and w r o => Sys2Proof.Machine.execAnd w r o s
  | .eor w r o => Sys2Proof.Machine.execEor w r o s
  | .adc w r o => Sys2Proof.Machine.execAdc w r o s
  | .sta w r m => Sys2Proof.Machine.execSta w r m s
  | .lda w r o => Sys2Proof.Machine.execLda w r o s
  | .cmp w r o => Sys2Proof.Machine.execCmp w r o s
  | .sbc w r o => Sys2Proof.Machine.execSbc w r o s
  | .add w r o => Sys2Proof.Machine.execAdd w r o s
  | .sub w r o => Sys2Proof.Machine.execSub w r o s
  | .sts w g m => Sys2Proof.Machine.execSts w g m s
  | .ads w g o => Sys2Proof.Machine.execAds w g o s
  | .sbs w g o => Sys2Proof.Machine.execSbs w g o s
  | .asl w p => Sys2Proof.Machine.execAsl w p s
  | .lsr w p => Sys2Proof.Machine.execLsr w p s
  | .rol w p => Sys2Proof.Machine.execRol w p s
  | .ror w p => Sys2Proof.Machine.execRor w p s
  | .dec w p => Sys2Proof.Machine.execDec w p s
  | .inc w p => Sys2Proof.Machine.execInc w p s
  | .asr w p => Sys2Proof.Machine.execAsr w p s
  | .exg w r p => Sys2Proof.Machine.execExg w r p s
  | .bpl w d => Sys2Proof.Machine.execBpl w d s
  | .bmi w d => Sys2Proof.Machine.execBmi w d s
  | .bvc w d => Sys2Proof.Machine.execBvc w d s
  | .bvs w d => Sys2Proof.Machine.execBvs w d s
  | .bcc w d => Sys2Proof.Machine.execBcc w d s
  | .bcs w d => Sys2Proof.Machine.execBcs w d s
  | .bne w d => Sys2Proof.Machine.execBne w d s
  | .beq w d => Sys2Proof.Machine.execBeq w d s
  | .bge w d => Sys2Proof.Machine.execBge w d s
  | .blt w d => Sys2Proof.Machine.execBlt w d s
  | .ble w d => Sys2Proof.Machine.execBle w d s
  | .bgt w d => Sys2Proof.Machine.execBgt w d s
  | .bls w d => Sys2Proof.Machine.execBls w d s
  | .bhi w d => Sys2Proof.Machine.execBhi w d s
  | .bnv w d => Sys2Proof.Machine.execBnv w d s
  | .bra w d => Sys2Proof.Machine.execBra w d s
  | .bit w r m => Sys2Proof.Machine.execBit w r m s
  | .jmp m => Sys2Proof.Machine.execJmp m s
  | .jsr m => Sys2Proof.Machine.execJsr m s
  | .brk v => Sys2Proof.Machine.execBrk v s
  | .clc => Sys2Proof.Machine.execClc s
  | .sec => Sys2Proof.Machine.execSec s
  | .cli => Sys2Proof.Machine.execCli s
  | .sei => Sys2Proof.Machine.execSei s
  | .clv => Sys2Proof.Machine.execClv s
  | .cld => Sys2Proof.Machine.execCld s
  | .sed => Sys2Proof.Machine.execSed s
  | .nop => Sys2Proof.Machine.execNop s
  | .sev => Sys2Proof.Machine.execSev s
  | .wai => Sys2Proof.Machine.execWai s
  | .ldx w r o => Sys2Proof.Machine.execLdx w r o s
  | .ldy w r o => Sys2Proof.Machine.execLdy w r o s
  | .stx w r m => Sys2Proof.Machine.execStx w r m s
  | .sty w r m => Sys2Proof.Machine.execSty w r m s
  | .cpx w r o => Sys2Proof.Machine.execCpx w r o s
  | .cpy w r o => Sys2Proof.Machine.execCpy w r o s
  | .adx w r o => Sys2Proof.Machine.execAdx w r o s
  | .ady w r o => Sys2Proof.Machine.execAdy w r o s
  | .sbx w r o => Sys2Proof.Machine.execSbx w r o s
  | .dex w k t => Sys2Proof.Machine.execDex w k t s
  | .dey w k t => Sys2Proof.Machine.execDey w k t s
  | .inx w k t => Sys2Proof.Machine.execInx w k t s
  | .iny w k t => Sys2Proof.Machine.execIny w k t s
  | .ina w k t => Sys2Proof.Machine.execIna w k t s
  | .des w k g => Sys2Proof.Machine.execDes w k g s
  | .ins w k g => Sys2Proof.Machine.execIns w k g s
  | .pha w r sr => Sys2Proof.Machine.execPha w r sr s
  | .php sr => Sys2Proof.Machine.execPhp sr s
  | .pla w r sr => Sys2Proof.Machine.execPla w r sr s
  | .plp sr => Sys2Proof.Machine.execPlp sr s
  | .psh w v sr => Sys2Proof.Machine.execPsh w v sr s
  | .phx w r sr => Sys2Proof.Machine.execPhx w r sr s
  | .phy w r sr => Sys2Proof.Machine.execPhy w r sr s
  | .plx w r sr => Sys2Proof.Machine.execPlx w r sr s
  | .ply w r sr => Sys2Proof.Machine.execPly w r sr s
  | .pop w v sr => Sys2Proof.Machine.execPop w v sr s
  | .rti sr => Sys2Proof.Machine.execRti sr s
  | .rts sr => Sys2Proof.Machine.execRts sr s
  | .tax w r t => Sys2Proof.Machine.execTax w r t s
  | .tay w r t => Sys2Proof.Machine.execTay w r t s
  | .txa w r t => Sys2Proof.Machine.execTxa w r t s
  | .tya w r t => Sys2Proof.Machine.execTya w r t s
  | .tsx w r t => Sys2Proof.Machine.execTsx w r t s
  | .txs w r t => Sys2Proof.Machine.execTxs w r t s
  | .txy w r t => Sys2Proof.Machine.execTxy w r t s
  | .tyx w r t => Sys2Proof.Machine.execTyx w r t s
  | .tyy w r t => Sys2Proof.Machine.execTyy w r t s
  | .txx w r t => Sys2Proof.Machine.execTxx w r t s

end Sys2Proof.Machine
end

