-- ==== Sys2Proof/Machine/Fetch.lean ====
section
/-! DEFINITION. Fetching an instruction, and what happens at the boundary before one (60_exceptions.md R342). -/

namespace Sys2Proof.Machine

/-- Fetch and decode the instruction at PC: its words are `Mem[pc]`, `Mem[pc + 1]`, `Mem[pc + 2]`, addresses modulo 2^32,
as memory is at this moment (20_memory.md R59, R73). -/
def State.fetch (s : State) : Except DecodeError Instr :=
  decode (s.mem.readWord s.pc) (s.mem.readWord (s.pc + 1)) (s.mem.readWord (s.pc + 2))

/-- The sample of the input lines at this step; past the end of the schedule all lines are 0 (log 8). -/
def State.lines (s : State) : Lines := s.inputs.headD ⟨false, false, false⟩

/-- The state after the lines are sampled: the sample is used up, and an NMI edge is latched (R342). -/
def State.sampled (s : State) : State :=
  { s with inputs := s.inputs.tail, nmiPending := s.nmiPending || s.lines.nmi }

/-- What happens at a boundary. -/
inductive Boundary where
  /-- The step is over: a reset, an interrupt entry, a wake, or a step of waiting. -/
  | taken (s : State)
  /-- The instruction at PC executes in this state. -/
  | run (s : State)
deriving DecidableEq, Repr

/-- The entry of an interrupt: the wait ends, the address of the next instruction is pushed, B is 0 (R346, R347). -/
def State.interrupt (s : State) (vec : Long) : State :=
  State.enterTrap { s with waiting := false } s.pc false vec

/-- The boundary before an instruction: reset, then NMI, then IRQ, then the wait of WAI (R342). -/
def State.boundary (s : State) : Boundary :=
  let t := s.sampled
  if s.lines.reset then .taken t.resetEvent
  else if t.nmiPending then .taken (State.interrupt { t with nmiPending := false } nmiVector)
  else if s.lines.irq && !t.flags.i then .taken (t.interrupt irqVector)
  else if s.lines.irq && t.waiting then .taken { t with waiting := false }
  else if t.waiting then .taken t
  else .run t

/-- Store an instruction's words, given as the number spec/opcode_table.json makes of them, where the next fetch reads:
at PC and the two addresses after it. The schedule of inputs, a pending NMI and the wait of WAI are cleared, so that
the next step is this fetch (log 13). -/
def State.placeInstruction (s : State) (nbits w : Nat) : State :=
  { s with
    mem := ((s.mem.writeWord s.pc (tableWord nbits w 0)).writeWord (s.pc + 1) (tableWord nbits w 1)).writeWord
      (s.pc + 2) (tableWord nbits w 2)
    inputs := []
    nmiPending := false
    waiting := false }

end Sys2Proof.Machine
end

