-- ==== Sys2Proof/Machine/Step.lean ====
section
/-! DEFINITION. One step of the processor (60_exceptions.md R342). -/

namespace Sys2Proof.Machine

/-- Fetch the instruction at PC and run it; an unassigned slot is a fault (30_encoding.md R120). -/
def runNext (s : State) : Host.Outcome State Fault Refusal :=
  match s.fetch with
  | .ok i => exec i s
  | .error (.unassigned p op) => .fault (.unassignedSlot p op)

/-- One step: sample the inputs, then a reset, an interrupt entry, a step of waiting, or one instruction (R342). -/
def step (s : State) : Host.Outcome State Fault Refusal :=
  match s.boundary with
  | .taken t => .next t
  | .run t => runNext t

/-- `s` with an instruction stored where the next step fetches (log 13). -/
def State.withFetchWord (s : State) (nbits w : Nat) : State := s.placeInstruction nbits w

end Sys2Proof.Machine
end

