-- ==== Sys2Proof/Safety.lean ====
section
/-! DEFINITION. The words the statements use: what an instruction leaves unchanged, what a result and its flags are in
plain arithmetic, which instructions may write which flag. None of it is used by the machine. -/

namespace Sys2Proof.Machine

/-! ## Registers and memory -/

/-- The invariant of the model's memory: it is in canonical form. -/
abbrev State.Inv (s : State) : Prop := s.mem.wf

/-- What a register reads as while an instruction of `len` words runs: PC as the address after it, any other register as
it stands (10_state.md R24). -/
def State.seen (s : State) (len : Nat) (r : Reg) : Long :=
  if r = .g3 .pc then s.pc + BitVec.ofNat 32 len else s.reg r

/-- The low `n` bits of `new` are `v` and its other bits are those of `old`. -/
def HoldsLow (w : Width) (old new : Long) (v : BitVec w.bits) : Prop :=
  new.toNat = old.toNat / 2 ^ w.bits * 2 ^ w.bits + v.toNat

/-- The cells that hold the datum of width `w` at address `a`: bits 7:0 of one word, or all bits of two. -/
def cellsOf (a : Long) : Width → List Nat
  | .byte => [lowCell a]
  | .long => [lowCell a, highCell a, lowCell (a + 1), highCell (a + 1)]

/-- From `s` to `t`, across an instruction of `len` words, at most the registers of `regs` and the cells of `cells`
changed; PC is the address after the instruction unless `regs` has it. It says nothing of the flags. -/
structure Frame (s t : State) (len : Nat) (regs : List Reg) (cells : List Nat) : Prop where
  registers : ∀ r, r ∉ regs → t.reg r = s.seen len r
  memory : ∀ k, k ∉ cells → t.mem.readByte k = s.mem.readByte k
  nmiPending : t.nmiPending = s.nmiPending
  waiting : t.waiting = s.waiting
  inputs : t.inputs = s.inputs
  draws : t.draws = s.draws

/-- The operand of a read-modify-write instruction of `len` words now holds `v`, and nothing else changed but flags. -/
def PlaceHolds (s t : State) (len : Nat) (w : Width) (p : Place) (v : BitVec w.bits) : Prop :=
  match p with
  | .acc r => HoldsLow w (s.seen len r) (t.reg r) v ∧ Frame s t len [r] []
  | .mem m =>
    t.load ((s.advance len).ea m) w = v ∧ Frame s t len [] (cellsOf ((s.advance len).ea m) w)

/-! ## Results and flags -/

/-- Bit `n - 1` of a result. -/
def topBit {n : Nat} (v : BitVec n) : Bool := decide (2 ^ (n - 1) ≤ v.toNat)

/-- Whether a result is zero. -/
def isZero {n : Nat} (v : BitVec n) : Bool := decide (v.toNat = 0)

/-- `g` is `f` with N and Z taken from a result. -/
def SetsNZ {n : Nat} (f g : Flags) (v : BitVec n) : Prop := g = { f with n := topBit v, z := isZero v }

/-- A signed number lies outside the range of `n` bits. -/
def SignedOverflow (n : Nat) (x : Int) : Prop := x < -2 ^ (n - 1) ∨ 2 ^ (n - 1) ≤ x

/-- `r` is the `n` bit sum of `a`, `m` and a carry, and `g` is `f` with N V Z C of that sum. -/
def Adds {n : Nat} (f g : Flags) (a m r : BitVec n) (cin : Bool) : Prop :=
  r.toNat = (a.toNat + m.toNat + cin.toNat) % 2 ^ n ∧ g.n = topBit r ∧ g.z = isZero r ∧ g.d = f.d ∧ g.i = f.i ∧
    (g.c = true ↔ 2 ^ n ≤ a.toNat + m.toNat + cin.toNat) ∧
    (g.v = true ↔ SignedOverflow n (a.toInt + m.toInt + cin.toNat))

/-- `r` is the `n` bit difference `a - m - (1 - cin)`, and `g` is `f` with N V Z C of it; C is 1 when there is no
borrow. -/
def Subtracts {n : Nat} (f g : Flags) (a m r : BitVec n) (cin : Bool) : Prop :=
  (r.toNat : Int) = (a.toNat - m.toNat - (1 - cin.toNat)) % 2 ^ n ∧ g.n = topBit r ∧ g.z = isZero r ∧ g.d = f.d ∧
    g.i = f.i ∧ (g.c = true ↔ m.toNat + (1 - cin.toNat) ≤ a.toNat) ∧
    (g.v = true ↔ SignedOverflow n (a.toInt - m.toInt - (1 - cin.toNat)))

/-! ## Boundaries and traps -/

/-- No reset, NMI or unmasked IRQ is present at the boundary before the next instruction, and the machine is not
waiting: the instruction at PC executes (60_exceptions.md R342). -/
def State.Quiet (s : State) : Prop :=
  s.lines.reset = false ∧ s.lines.nmi = false ∧ s.nmiPending = false ∧ (s.lines.irq = false ∨ s.flags.i = true) ∧
    s.waiting = false

/-- `t` is `s` after a trap entry that pushed `ret` and a status byte with bit 4 = `b` and went through the vector at
`vec` (60_exceptions.md R344). It says nothing of the hidden bits and the inputs. -/
structure TrapEntered (s t : State) (ret : Long) (b : Bool) (vec : Long) : Prop where
  returnLow : t.mem.readWord (s.sp - 1) = splitLow ret
  returnHigh : t.mem.readWord s.sp = splitHigh ret
  status : t.mem.readByte (lowCell (s.sp - 2)) = s.flags.status b
  memory : ∀ k, k ∉ cellsOf (s.sp - 1) .long ++ cellsOf (s.sp - 2) .byte → t.mem.readByte k = s.mem.readByte k
  sp : t.sp = s.sp - 3
  pc : t.pc = t.load vec .long
  flags : t.flags = { s.flags with i := true }
  registers : ∀ r, r ≠ .g3 .sp → r ≠ .g3 .pc → t.reg r = s.reg r
  draws : t.draws = s.draws

/-! ## Which instruction may write what -/

/-- The instructions of 10_state.md R30 that write N. -/
def writesN : Instr → Bool
  | .ora _ _ _ | .and _ _ _ | .eor _ _ _ | .lda _ _ _ | .ldx _ _ _ | .ldy _ _ _ => true
  | .inc _ _ | .dec _ _ | .inx _ _ _ | .iny _ _ _ | .dex _ _ _ | .dey _ _ _ | .ina _ _ _ | .ins _ _ _ | .des _ _ _ => true
  | .tax _ _ _ | .tay _ _ _ | .txa _ _ _ | .tya _ _ _ | .tsx _ _ _ | .txy _ _ _ | .tyx _ _ _ | .tyy _ _ _ | .txx _ _ _ => true
  | .pla _ _ _ | .plx _ _ _ | .ply _ _ _ | .exg _ _ _ => true
  | .asl _ _ | .lsr _ _ | .rol _ _ | .ror _ _ | .asr _ _ | .cmp _ _ _ | .cpx _ _ _ | .cpy _ _ _ => true
  | .adc _ _ _ | .sbc _ _ _ | .add _ _ _ | .sub _ _ _ | .adx _ _ _ | .ady _ _ _ | .ads _ _ _ | .sbx _ _ _ | .sbs _ _ _ => true
  | .bit _ _ _ | .plp _ | .rti _ => true
  | _ => false

/-- The instructions of R30 that write C. -/
def writesC : Instr → Bool
  | .asl _ _ | .lsr _ _ | .rol _ _ | .ror _ _ | .asr _ _ | .cmp _ _ _ | .cpx _ _ _ | .cpy _ _ _ => true
  | .adc _ _ _ | .sbc _ _ _ | .add _ _ _ | .sub _ _ _ | .adx _ _ _ | .ady _ _ _ | .ads _ _ _ | .sbx _ _ _ | .sbs _ _ _ => true
  | .clc | .sec | .plp _ | .rti _ => true
  | _ => false

/-- The instructions of R30 that write V. -/
def writesV : Instr → Bool
  | .adc _ _ _ | .sbc _ _ _ | .add _ _ _ | .sub _ _ _ | .adx _ _ _ | .ady _ _ _ | .ads _ _ _ | .sbx _ _ _ | .sbs _ _ _ => true
  | .bit _ _ _ | .clv | .sev | .plp _ | .rti _ => true
  | _ => false

/-- The instructions of R30 that write D. -/
def writesD : Instr → Bool
  | .cld | .sed | .plp _ | .rti _ => true
  | _ => false

/-- The instructions of R30 that write I. -/
def writesI : Instr → Bool
  | .cli | .sei | .brk _ | .plp _ | .rti _ => true
  | _ => false

/-- The instructions that look at `fD`, or push it (40_group0_accumulator.md R132; PHP and BRK push it). -/
def readsD : Instr → Bool
  | .adc _ _ _ | .sbc _ _ _ | .add _ _ _ | .sub _ _ _ | .php _ | .brk _ => true
  | _ => false

/-- A read-modify-write operand in memory. -/
def Place.isMemory : Place → Bool
  | .acc _ => false
  | .mem _ => true

/-- The instructions that write memory: stores, read-modify-write and EXG on memory, JSR, BRK and the pushes. -/
def storesToMemory : Instr → Bool
  | .sta _ _ _ | .stx _ _ _ | .sty _ _ _ | .sts _ _ _ | .jsr _ | .brk _ => true
  | .asl _ p | .lsr _ p | .rol _ p | .ror _ p | .asr _ p | .inc _ p | .dec _ p | .exg _ _ p => Place.isMemory p
  | .pha _ _ _ | .phx _ _ _ | .phy _ _ _ | .php _ | .psh _ _ _ => true
  | _ => false

/-- The stack register of an instruction of the PHA or RTS group (48_group8_stack.md R290). -/
def stackRegister : Instr → Option Reg
  | .pha _ _ sr | .phx _ _ sr | .phy _ _ sr | .pla _ _ sr | .plx _ _ sr | .ply _ _ sr | .psh _ _ sr | .pop _ _ sr => some sr
  | .php sr | .plp sr | .rti sr | .rts sr => some sr
  | _ => none

end Sys2Proof.Machine
end

