-- ==== Sys2Proof/Certificates/Slice0/Obligations.lean ====
section
/-! DEFINITION. The statements for the provers. Their words are those of Sys2Proof/Safety.lean. Unless a statement says
otherwise it holds for every state, one that no run reaches included. -/

open Sys2Proof Sys2Proof.Machine

/-! ## Encoding -/

/-- Decoding the words of a well-formed instruction gives it back, whatever words follow (30_encoding.md R80 to R112).
That unused fields are written as ones and ignored is the spec's decision D2 (log 11). -/
def Obligations.DecodeOfEncodeIsTheInstruction : Prop :=
  ∀ (i : Instr) (rest : List Word), i.wf = true → decodeWords (encode i ++ rest) = .ok i

/-- Whatever the decoder answers is a well-formed instruction. -/
def Obligations.DecodedInstructionIsWellFormed : Prop :=
  ∀ (w o1 o2 : Word) (i : Instr), decode w o1 o2 = .ok i → i.wf = true

/-- The decoder refuses exactly the unassigned slots, by their name: with `xP` = 1 the 37 values of `op` that R120 lists,
with `xP` = 0 every value of `op` that is blank in the grid of R112. That the fetch of one ends the run is decision D3. -/
def Obligations.DecoderRefusesExactlyTheUnassignedSlots : Prop :=
  let unassignedStandard : List Byte :=
    [0x03, 0x04, 0x07, 0x0C, 0x12, 0x14, 0x17, 0x1A, 0x1C, 0x23, 0x27, 0x32, 0x34, 0x37, 0x3A, 0x3C, 0x43, 0x44, 0x47,
      0x57, 0x63, 0x64, 0x67, 0x77, 0x80, 0x82, 0x83, 0x87, 0x92, 0xA3, 0xA7, 0xC3, 0xC7, 0xD4, 0xE3, 0xE7, 0xF4]
  let assignedAlternate : List Byte :=
    [0x06, 0x08, 0x0A, 0x0E, 0x0F, 0x10, 0x13, 0x16, 0x1E, 0x1F, 0x28, 0x30, 0x46, 0x48, 0x4A, 0x4E, 0x4F, 0x50, 0x53,
      0x56, 0x5E, 0x5F, 0x61, 0x62, 0x65, 0x68, 0x69, 0x6B, 0x6D, 0x70, 0x71, 0x75, 0x79, 0x7B, 0x7D, 0x81, 0x85, 0x89,
      0x8A, 0x8B, 0x8D, 0x90, 0x91, 0x95, 0x98, 0x99, 0x9B, 0x9D, 0xA0, 0xA1, 0xA2, 0xA4, 0xA5, 0xA6, 0xA8, 0xA9, 0xAA,
      0xAB, 0xAC, 0xAD, 0xAE, 0xAF, 0xB0, 0xB1, 0xB2, 0xB3, 0xB4, 0xB5, 0xB6, 0xB7, 0xB8, 0xB9, 0xBB, 0xBC, 0xBD, 0xBE,
      0xBF, 0xC1, 0xC5, 0xC8, 0xC9, 0xCA, 0xCB, 0xCD, 0xD0, 0xD1, 0xD2, 0xD5, 0xD9, 0xDB, 0xDD, 0xE0, 0xE1, 0xE2, 0xE4,
      0xE5, 0xE8, 0xE9, 0xEA, 0xEB, 0xEC, 0xED, 0xF0, 0xF1, 0xF2, 0xF5, 0xF7, 0xF9, 0xFB, 0xFC, 0xFD]
  ∀ (w o1 o2 : Word),
    (decode w o1 o2 = .error (.unassigned (w.getLsbD 15) (w.extractLsb' 0 8)) ↔
        if w.getLsbD 15 = true then w.extractLsb' 0 8 ∈ unassignedStandard
        else w.extractLsb' 0 8 ∉ assignedAlternate) ∧
      ((∃ i, decode w o1 o2 = .ok i) ∨
        decode w o1 o2 = .error (.unassigned (w.getLsbD 15) (w.extractLsb' 0 8)))

/-- A decoded instruction is one to three words long and does not depend on the words past its length, and the encoding
of a well-formed instruction has exactly that many words (30_encoding.md section 1; the sizes of `imm` and `rel` are
decision D6, log 18). -/
def Obligations.InstructionDependsOnlyOnItsOwnWords : Prop :=
  (∀ (w o1 o2 : Word) (i : Instr), decode w o1 o2 = .ok i →
    1 ≤ i.len ∧ i.len ≤ 3 ∧ (i.len ≤ 2 → ∀ q, decode w o1 q = .ok i) ∧ (i.len = 1 → ∀ p q, decode w p q = .ok i)) ∧
  (∀ i : Instr, i.wf = true → (encode i).length = i.len)

/-- The constant of the DEX group is `8 - xN` in each of its seven slots; INC and DEC do not use the field, they step their
operand by 1 whatever the opcode word (30_encoding.md section 1, 41_group1_shifts.md section 2,
47_group7_index_incdec.md section 1). That the field is bits 13:11 is decision D1, that INA, DES and INS use it decisions
D4 and D29, that an 8 bit write keeps the upper bits D7, that a write to PC is a jump D10 (log 16, log 18). -/
def Obligations.CountFieldGivesEightMinusN : Prop :=
  (∀ (w o1 o2 : Word) (i : Instr), decode w o1 o2 = .ok i → ∀ k,
    ((∃ d t, i = .dex d k t ∨ i = .dey d k t ∨ i = .inx d k t ∨ i = .iny d k t ∨ i = .ina d k t) ∨
      ∃ d g, i = .des d k g ∨ i = .ins d k g) →
    k + (w.extractLsb' 11 3).toNat = 8) ∧
  (∀ (w o1 o2 : Word) (d : Width) (p : Place) (s : State), s.Inv →
    (decode w o1 o2 = .ok (.inc d p) →
      ∃ t, exec (.inc d p) s = .next t ∧ PlaceHolds s t p.len d p ((s.advance p.len).placeValue d p + 1)) ∧
    (decode w o1 o2 = .ok (.dec d p) →
      ∃ t, exec (.dec d p) s = .next t ∧ PlaceHolds s t p.len d p ((s.advance p.len).placeValue d p - 1)))

/-- Sanity: one word of each group, written bit by bit from the encoding, decodes to its instruction. The words rest on the
spec's own decisions (log 18): the bit order D1, the format of an alternate D4, the masks of field S for ASL acc, CPX acc
and TAX D5, the operand of BNE D6, the register of DES for `xX` = 111 D29. -/
def Obligations.SpecEncodingsDecodeToTheirInstructions : Prop :=
  decode 0b1000010110111101 0x0000 0x0010 = .ok (.lda .long 0 (.mem (.absX 0x1000 ⟨.file 1, .long⟩))) ∧
  decode 0b1011010000001010 0 0 = .ok (.asl .long (.acc (.x 0))) ∧
  decode 0b1111111111010000 0xFFFD 0 = .ok (.bne .byte 0xFFFFFFFD) ∧
  decode 0b1111111101101100 0x0000 0x0010 = .ok (.jmp (.ind 0x1000)) ∧
  decode 0b1000010100000000 0 0 = .ok (.brk 5) ∧
  decode 0b0111111111101010 0 0 = .ok .wai ∧
  decode 0b1001110011100010 0 0 = .ok (.cpx .long 1 (.acc (.a 0))) ∧
  decode 0b0010011111001010 0 0 = .ok (.des .long 4 .sp) ∧
  decode 0b1000101001001000 0 0 = .ok (.pha .long 0 (.x 2)) ∧
  decode 0b1111101001100000 0 0 = .ok (.rts (.x 2)) ∧
  decode 0b1000110110101010 0 0 = .ok (.tax .long 0 (.x 1))

/-- The S table: the register of each of the sixteen numbers; bits 3:2 select the file, bits 1:0 the register in it; and
every register has one number (10_state.md R22). -/
def Obligations.RegistersAreNumberedByTheSTable : Prop :=
  Reg.ofNumber 0b0000 = .a 0 ∧ Reg.ofNumber 0b0001 = .a 1 ∧ Reg.ofNumber 0b0010 = .a 2 ∧ Reg.ofNumber 0b0011 = .a 3 ∧
  Reg.ofNumber 0b0100 = .y 0 ∧ Reg.ofNumber 0b0101 = .y 1 ∧ Reg.ofNumber 0b0110 = .y 2 ∧ Reg.ofNumber 0b0111 = .y 3 ∧
  Reg.ofNumber 0b1000 = .x 0 ∧ Reg.ofNumber 0b1001 = .x 1 ∧ Reg.ofNumber 0b1010 = .x 2 ∧ Reg.ofNumber 0b1011 = .x 3 ∧
  Reg.ofNumber 0b1100 = .g3 .pc ∧ Reg.ofNumber 0b1101 = .g3 .z0 ∧ Reg.ofNumber 0b1110 = .g3 .z1 ∧
  Reg.ofNumber 0b1111 = .g3 .sp ∧
  (∀ k : BitVec 4, (Reg.ofNumber k).number = k) ∧ (∀ r : Reg, Reg.ofNumber r.number = r)

/-- The slot `xP` = 1, `op` = `$00` is BRK, its 7 bit field is bits 14:8 of the opcode word, whatever they are, and vector
`V` lies at `$FFFFFF00 + 2*V`; 127 gives `$FFFFFFFE` (30_encoding.md section 1, 44_group4_brk.md). The places of `xP` and
of the field in the word are decision D1 (log 18). -/
def Obligations.BreakVectorLiesAtTwiceItsNumber : Prop :=
  (∀ (w o1 o2 : Word), w.getLsbD 15 = true → w.extractLsb' 0 8 = 0x00 →
    decode w o1 o2 = .ok (.brk (w.extractLsb' 8 7))) ∧
  (∀ v : BitVec 7, (vectorAddress v).toNat = 0xFFFFFF00 + 2 * v.toNat) ∧
  vectorAddress 127 = 0xFFFFFFFE

/-! ## Words, longwords and memory -/

/-- `join` lays the bytes of two words out as `w1[15:8] : w0[15:8] : w1[7:0] : w0[7:0]`, and `split` undoes it, each the
inverse of the other (00_scope.md R9). -/
def Obligations.JoinAndSplitAreInverse : Prop :=
  (∀ w0 w1 : Word, (join w0 w1).toNat =
      w1.toNat / 256 * 2 ^ 24 + w0.toNat / 256 * 2 ^ 16 + w1.toNat % 256 * 2 ^ 8 + w0.toNat % 256) ∧
  (∀ v : Long, (splitLow v).toNat = v.toNat / 2 ^ 16 % 256 * 2 ^ 8 + v.toNat % 256 ∧
      (splitHigh v).toNat = v.toNat / 2 ^ 24 * 2 ^ 8 + v.toNat / 2 ^ 8 % 256) ∧
  (∀ v : Long, join (splitLow v) (splitHigh v) = v) ∧
  (∀ w0 w1 : Word, splitLow (join w0 w1) = w0 ∧ splitHigh (join w0 w1) = w1) ∧
  join 0xAABB 0xCCDD = 0xCCAADDBB

/-- A longword write puts `split(v)` into the two words, all 16 bits of both, wrapping at the top of memory; it reads back
as `v`; a byte read sees bits 7:0 of its word, so bytes of `v` at the two addresses; nothing else changes
(20_memory.md R53, R54, R56). -/
def Obligations.LongwordWriteReadsBack : Prop :=
  ∀ (m : Memory) (a : Long) (v : Long), m.wf = true →
    (m.write a .long v).readWord a = splitLow v ∧ (m.write a .long v).readWord (a + 1) = splitHigh v ∧
    (∀ b, m.read b .long = join (m.readWord b) (m.readWord (b + 1))) ∧
    (∀ b, m.read b .byte = (m.readWord b).extractLsb' 0 8) ∧
    (m.write a .long v).read a .long = v ∧
    (m.write a .long v).read a .byte = v.extractLsb' 0 8 ∧
    (m.write a .long v).read (a + 1) .byte = v.extractLsb' 8 8 ∧
    (∀ k, k ∉ cellsOf a .long → (m.write a .long v).readByte k = m.readByte k) ∧
    (∀ b, b ≠ a → b ≠ a + 1 → (m.write a .long v).readWord b = m.readWord b)

/-- A byte write changes bits 7:0 of one word and keeps bits 15:8 (20_memory.md section 2; decision D7); a byte read
ignores bits 15:8. -/
def Obligations.ByteWriteKeepsTheUpperHalf : Prop :=
  ∀ (m : Memory) (a : Long) (v : Byte), m.wf = true →
    (m.write a .byte v).readWord a = (m.readWord a).extractLsb' 8 8 ++ v ∧
    (m.write a .byte v).read a .byte = v ∧
    (∀ b, m.read b .byte = (m.readWord b).extractLsb' 0 8) ∧
    (∀ k, k ∉ cellsOf a .byte → (m.write a .byte v).readByte k = m.readByte k) ∧
    (∀ b, b ≠ a → (m.write a .byte v).readWord b = m.readWord b)

/-- The model's own representation (log 1): canonical memories that read alike are equal data, and undoing a write by
writing the old datum back gives the very same memory. -/
def Obligations.CanonicalMemoriesThatReadAlikeAreEqual : Prop :=
  (∀ m₁ m₂ : Memory, m₁.wf = true → m₂.wf = true → (∀ k, m₁.readByte k = m₂.readByte k) → m₁ = m₂) ∧
  (∀ (m : Memory) (a : Long) (w : Width) (v : BitVec w.bits), m.wf = true →
    (m.write a w v).write a w (m.read a w) = m)

/-- Pulling undoes pushing at the same width: the datum comes back and the stack register with it, through any register
and wrapping at both ends of memory (20_memory.md section 5; decision D14). -/
def Obligations.PullUndoesPush : Prop :=
  ∀ (s : State) (sr : Reg) (w : Width) (v : BitVec w.bits), s.Inv →
    (s.push sr w v).pulled sr w = v ∧ ∀ r, ((s.push sr w v).pull sr w).reg r = s.reg r

/-! ## Operands -/

/-- Every effective address, as arithmetic modulo 2^32 over the operand words, the index and the pointers in memory; the
index is bits 7:0 or all bits of the register. Every operand: an immediate modulo `2^n`, the low `n` bits of a register,
the datum at the effective address; a load sees bits 7:0 of one word or joins two; past an instruction's words PC reads
as the address after them, all else as before (30_encoding.md section 2, 10_state.md section 1, 20_memory.md section 2,
41_group1_shifts.md section 1; decisions D5, D6, D10, D11, D12, D13, D37; log 16, log 18). -/
def Obligations.EffectiveAddressesOfTheModes : Prop :=
  (∀ (s : State) (o : Word) (base : Long) (ix : Index),
    let xv : Nat := (s.reg (indexRegister .x ix.reg)).toNat % 2 ^ ix.size.bits
    let yv : Nat := (s.reg (indexRegister .y ix.reg)).toNat % 2 ^ ix.size.bits
    let page : Nat := 0xFF000000 + o.toNat / 256 * 2 ^ 16
    let zp (v : Nat) : Nat :=
      if ix.size = .byte then page + (o.toNat % 256 + v) % 256 else (page + o.toNat % 256 + v) % 2 ^ 32
    let pointer (a : Nat) : Nat := (s.load (BitVec.ofNat 32 a) .long).toNat
    (s.ea (.zp o)).toNat = page + o.toNat % 256 ∧
    (s.ea (.zpX o ix)).toNat = zp xv ∧
    (s.ea (.zpY o ix)).toNat = zp yv ∧
    (s.ea (.abs base)).toNat = base.toNat ∧
    (s.ea (.absX base ix)).toNat = (base.toNat + xv) % 2 ^ 32 ∧
    (s.ea (.absY base ix)).toNat = (base.toNat + yv) % 2 ^ 32 ∧
    (s.ea (.ind base)).toNat = pointer base.toNat ∧
    (s.ea (.indX base ix)).toNat = pointer ((base.toNat + xv) % 2 ^ 32) ∧
    (s.ea (.indY base ix)).toNat = (pointer base.toNat + yv) % 2 ^ 32 ∧
    (s.ea (.zpIndX o ix)).toNat = pointer (zp xv) ∧
    (s.ea (.zpIndY o ix)).toNat = (pointer (page + o.toNat % 256) + yv) % 2 ^ 32) ∧
  (∀ (s : State) (w : Width) (v : Long) (r : Reg) (m : MemMode),
    (s.read r w).toNat = (s.reg r).toNat % 2 ^ w.bits ∧
    (s.operand w (.imm v)).toNat = v.toNat % 2 ^ w.bits ∧
    (s.operand w (.acc r)).toNat = (s.reg r).toNat % 2 ^ w.bits ∧
    s.operand w (.mem m) = s.load (s.ea m) w ∧
    (s.placeValue w (.acc r)).toNat = (s.reg r).toNat % 2 ^ w.bits ∧
    s.placeValue w (.mem m) = s.load (s.ea m) w) ∧
  (∀ (s : State) (a : Long), s.load a .byte = (s.mem.readWord a).extractLsb' 0 8 ∧
    s.load a .long = join (s.mem.readWord a) (s.mem.readWord (a + 1))) ∧
  (∀ (s : State) (n : Nat) (r : Reg), (s.advance n).mem = s.mem ∧
    (s.advance n).reg r = if r = .g3 .pc then s.pc + BitVec.ofNat 32 n else s.reg r)

/-! ## Groups 0 and 6 -/

/-- ORA, AND and EOR in every operand form: result, N, Z, and the frame (40_group0_accumulator.md section 2). -/
def Obligations.LogicalInstructionsCombineRegisterAndOperand : Prop :=
  ∀ (w : Width) (r : Fin 4) (o : Operand) (s : State),
    let a := s.read (.a r) w
    let m := (s.advance (o.len w)).operand w o
    ∀ p ∈ [(Instr.ora w r o, a ||| m), (Instr.and w r o, a &&& m), (Instr.eor w r o, a ^^^ m)],
      ∃ t, exec p.1 s = .next t ∧ HoldsLow w (s.reg (.a r)) (t.reg (.a r)) p.2 ∧ SetsNZ s.flags t.flags p.2 ∧
        Frame s t (o.len w) [.a r] []

/-- LDA, LDX and LDY in every operand form: the register takes the operand, an 8 bit load keeps bits 31:8, N and Z
(40_group0_accumulator.md section 2, 46_group6_index_load_store.md section 2). -/
def Obligations.LoadsTakeTheOperand : Prop :=
  ∀ (w : Width) (r : Fin 4) (o : Operand) (s : State),
    let m := (s.advance (o.len w)).operand w o
    ∀ p ∈ [(Instr.lda w r o, Reg.a r), (Instr.ldx w r o, Reg.x r), (Instr.ldy w r o, Reg.y r)],
      ∃ t, exec p.1 s = .next t ∧ HoldsLow w (s.reg p.2) (t.reg p.2) m ∧ SetsNZ s.flags t.flags m ∧
        Frame s t (o.len w) [p.2] []

/-- STA, STX, STY and STS in every memory mode: the datum stands at the effective address, no other cell changes, nor
any flag or register (40_group0_accumulator.md sections 2 and 3, 46_group6_index_load_store.md section 2; STS is
decision D20). STS of PC stores the address of the next instruction. -/
def Obligations.StoresWriteTheEffectiveAddressOnly : Prop :=
  ∀ (w : Width) (r : Fin 4) (g : G3) (m : MemMode) (s : State), s.Inv →
    let ea := (s.advance m.len).ea m
    ∀ p ∈ [(Instr.sta w r m, Reg.a r), (Instr.stx w r m, Reg.x r), (Instr.sty w r m, Reg.y r),
        (Instr.sts w g m, Reg.g3 g)],
      ∃ t, exec p.1 s = .next t ∧ t.load ea w = (s.seen m.len p.2).setWidth w.bits ∧ t.flags = s.flags ∧
        Frame s t m.len [] (cellsOf ea w)

/-- CMP, CPX and CPY in every operand form: C exactly when the register is not below the operand, Z exactly when they are
equal, N the top bit of the difference; V, D, I, registers and memory unchanged (40_group0_accumulator.md section 2,
46_group6_index_load_store.md section 2). -/
def Obligations.ComparesOrderRegisterAndOperand : Prop :=
  ∀ (w : Width) (r : Fin 4) (o : Operand) (s : State),
    let m := (s.advance (o.len w)).operand w o
    ∀ p ∈ [(Instr.cmp w r o, Reg.a r), (Instr.cpx w r o, Reg.x r), (Instr.cpy w r o, Reg.y r)],
      let a := s.read p.2 w
      ∃ t, exec p.1 s = .next t ∧ (t.flags.c = true ↔ m.toNat ≤ a.toNat) ∧ (t.flags.z = true ↔ a = m) ∧
        t.flags.n = topBit (a - m) ∧ t.flags.v = s.flags.v ∧ t.flags.d = s.flags.d ∧ t.flags.i = s.flags.i ∧
        Frame s t (o.len w) [] []

/-- ADC, SBC, ADD and SUB with the decimal flag clear, in every operand form: the binary sum or difference with N V Z C,
V being signed overflow (40_group0_accumulator.md sections 1 to 3; the 32 bit flags are decision D8, ADD and SUB D19). -/
def Obligations.BinaryAddAndSubtract : Prop :=
  ∀ (w : Width) (r : Fin 4) (o : Operand) (s : State), s.flags.d = false →
    let a := s.read (.a r) w
    let m := (s.advance (o.len w)).operand w o
    (∀ p ∈ [(Instr.adc w r o, s.flags.c), (Instr.add w r o, false)],
      ∃ t x, exec p.1 s = .next t ∧ HoldsLow w (s.reg (.a r)) (t.reg (.a r)) x ∧ Adds s.flags t.flags a m x p.2 ∧
        Frame s t (o.len w) [.a r] []) ∧
    (∀ p ∈ [(Instr.sbc w r o, s.flags.c), (Instr.sub w r o, true)],
      ∃ t x, exec p.1 s = .next t ∧ HoldsLow w (s.reg (.a r)) (t.reg (.a r)) x ∧ Subtracts s.flags t.flags a m x p.2 ∧
        Frame s t (o.len w) [.a r] [])

/-- With the decimal flag set the four instructions complete as well: result and N V Z C are those of the open parameters
`BcdAdc` and `BcdSbc`, whatever they are, D and I are kept, and the frame holds (40_group0_accumulator.md section 1;
decision D18, log 7). -/
def Obligations.DecimalAddAndSubtractUseTheParameters : Prop :=
  ∀ (w : Width) (r : Fin 4) (o : Operand) (s : State), s.flags.d = true →
    let a := s.read (.a r) w
    let m := (s.advance (o.len w)).operand w o
    ∀ p ∈ [(Instr.adc w r o, Config.bcdAdc _ a m s.flags.c), (Instr.add w r o, Config.bcdAdc _ a m false),
        (Instr.sbc w r o, Config.bcdSbc _ a m s.flags.c), (Instr.sub w r o, Config.bcdSbc _ a m true)],
      ∃ t, exec p.1 s = .next t ∧ HoldsLow w (s.reg (.a r)) (t.reg (.a r)) p.2.result ∧
        t.flags = ⟨p.2.negative, p.2.overflow, s.flags.d, s.flags.i, p.2.zero, p.2.carry⟩ ∧
        Frame s t (o.len w) [.a r] []

/-- ADS, ADX, ADY, SBS and SBX are binary whatever the decimal flag, in every operand form; with PC as the register of
ADS or SBS the address of the next instruction is what is added to and the result is where control goes
(40_group0_accumulator.md section 3, 46_group6_index_load_store.md section 3; decisions D10, D20, D21). -/
def Obligations.RegisterAddAndSubtractAreAlwaysBinary : Prop :=
  ∀ (w : Width) (r : Fin 4) (g : G3) (o : Operand) (s : State),
    let m := (s.advance (o.len w)).operand w o
    (∀ p ∈ [(Instr.ads w g o, Reg.g3 g), (Instr.adx w r o, Reg.x r), (Instr.ady w r o, Reg.y r)],
      ∃ t x, exec p.1 s = .next t ∧ HoldsLow w (s.seen (o.len w) p.2) (t.reg p.2) x ∧
        Adds s.flags t.flags ((s.seen (o.len w) p.2).setWidth w.bits) m x false ∧ Frame s t (o.len w) [p.2] []) ∧
    (∀ p ∈ [(Instr.sbs w g o, Reg.g3 g), (Instr.sbx w r o, Reg.x r)],
      ∃ t x, exec p.1 s = .next t ∧ HoldsLow w (s.seen (o.len w) p.2) (t.reg p.2) x ∧
        Subtracts s.flags t.flags ((s.seen (o.len w) p.2).setWidth w.bits) m x true ∧ Frame s t (o.len w) [p.2] [])

/-! ## Group 1 -/

/-- ASL, LSR, ROL, ROR and ASR on a register or in memory, as arithmetic on the operand `v` and the old carry; N Z from
the result; C the bit shifted out; V, D, I kept; PC as the operand is a jump (41_group1_shifts.md; ASR is decision
D23). -/
def Obligations.ShiftsAndRotatesMoveEveryBit : Prop :=
  ∀ (w : Width) (p : Place) (s : State), s.Inv →
    let v := ((s.advance p.len).placeValue w p).toNat
    let c := s.flags.c.toNat
    let half := 2 ^ (w.bits - 1)
    ∀ q ∈ [(Instr.asl w p, 2 * v % 2 ^ w.bits, decide (half ≤ v)), (Instr.lsr w p, v / 2, decide (v % 2 = 1)),
        (Instr.rol w p, (2 * v + c) % 2 ^ w.bits, decide (half ≤ v)),
        (Instr.ror w p, v / 2 + c * half, decide (v % 2 = 1)),
        (Instr.asr w p, v / 2 + v / half * half, decide (v % 2 = 1))],
      ∃ t x, exec q.1 s = .next t ∧ x.toNat = q.2.1 ∧ PlaceHolds s t p.len w p x ∧
        t.flags = { s.flags with n := topBit x, z := isZero x, c := q.2.2 }

/-- INC and DEC on a register or in memory: by 1 modulo `2^n`, N Z from the result, C and V kept (41_group1_shifts.md
section 2). -/
def Obligations.IncrementAndDecrementByOne : Prop :=
  ∀ (w : Width) (p : Place) (s : State), s.Inv →
    let v := ((s.advance p.len).placeValue w p).toNat
    ∀ q ∈ [(Instr.inc w p, (v + 1) % 2 ^ w.bits), (Instr.dec w p, (v + 2 ^ w.bits - 1) % 2 ^ w.bits)],
      ∃ t x, exec q.1 s = .next t ∧ x.toNat = q.2 ∧ PlaceHolds s t p.len w p x ∧ SetsNZ s.flags t.flags x

/-- EXG exchanges the A register with a register or with memory; N Z from what arrives in the A register
(41_group1_shifts.md section 3; decision D22). With the same register twice nothing but N Z and PC changes; with PC the A
register takes the address of the next instruction and control goes to its old value. -/
def Obligations.ExchangeSwapsRegisterAndOperand : Prop :=
  ∀ (w : Width) (r : Fin 4) (s : State), s.Inv →
    (∀ q : Reg, ∃ t, exec (.exg w r (.acc q)) s = .next t ∧
      HoldsLow w (s.reg (.a r)) (t.reg (.a r)) ((s.seen 1 q).setWidth w.bits) ∧
      HoldsLow w (s.seen 1 q) (t.reg q) (s.read (.a r) w) ∧
      SetsNZ s.flags t.flags ((s.seen 1 q).setWidth w.bits) ∧ Frame s t 1 [.a r, q] []) ∧
    (∀ m : MemMode, let u := s.advance m.len
      ∃ t, exec (.exg w r (.mem m)) s = .next t ∧
        HoldsLow w (s.reg (.a r)) (t.reg (.a r)) (u.load (u.ea m) w) ∧ t.load (u.ea m) w = s.read (.a r) w ∧
        SetsNZ s.flags t.flags (u.load (u.ea m) w) ∧ Frame s t m.len [.a r] (cellsOf (u.ea m) w))

/-! ## Group 2 -/

/-- Each branch goes to the address after it plus the displacement exactly when its condition holds, else to the address
after it, and changes nothing but PC (42_group2_branches.md; the alternates are decision D24, the base of the
displacement D6). -/
def Obligations.BranchesTestTheirConditions : Prop :=
  ∀ (w : Width) (d : Long) (s : State),
    let f := s.flags
    ∀ p ∈ [(Instr.bpl w d, decide (f.n = false)), (Instr.bmi w d, decide (f.n = true)),
        (Instr.bvc w d, decide (f.v = false)), (Instr.bvs w d, decide (f.v = true)),
        (Instr.bcc w d, decide (f.c = false)), (Instr.bcs w d, decide (f.c = true)),
        (Instr.bne w d, decide (f.z = false)), (Instr.beq w d, decide (f.z = true)),
        (Instr.bge w d, decide (f.n = f.v)), (Instr.blt w d, decide (f.n ≠ f.v)),
        (Instr.ble w d, decide (f.z = true ∨ f.n ≠ f.v)), (Instr.bgt w d, decide (f.z = false ∧ f.n = f.v)),
        (Instr.bls w d, decide (f.c = false ∨ f.z = true)), (Instr.bhi w d, decide (f.c = true ∧ f.z = false)),
        (Instr.bnv w d, false), (Instr.bra w d, true)],
      exec p.1 s =
        .next { s with pc := s.pc + (if w = .byte then 2 else 3) + (if p.2 = true then d else 0) }

/-- After a subtraction without borrow of `m` from `a` (SUB, SBX, SBS) the branches compare `a` with `m`: BGE BLT BLE BGT
as signed numbers, BCC BCS BLS BHI as unsigned ones, BNE BEQ for equality (42_group2_branches.md section 3; decision
D24). A branch is taken when it reaches the target. -/
def Obligations.BranchesCompareAfterSubtraction : Prop :=
  ∀ (n : Nat) (a m : BitVec n) (f : Flags) (w : Width) (d : Long) (s : State), 0 < n → d ≠ 0 →
    let u := s.setFlags (f.setArith (subCore a m true))
    let taken (i : Instr) : Prop := exec i u = .next (u.jump (u.pc + (if w = .byte then 2 else 3) + d))
    (taken (.bge w d) ↔ m.toInt ≤ a.toInt) ∧ (taken (.blt w d) ↔ a.toInt < m.toInt) ∧
    (taken (.ble w d) ↔ a.toInt ≤ m.toInt) ∧ (taken (.bgt w d) ↔ m.toInt < a.toInt) ∧
    (taken (.bcc w d) ↔ a.toNat < m.toNat) ∧ (taken (.bcs w d) ↔ m.toNat ≤ a.toNat) ∧
    (taken (.bls w d) ↔ a.toNat ≤ m.toNat) ∧ (taken (.bhi w d) ↔ m.toNat < a.toNat) ∧
    (taken (.bne w d) ↔ a ≠ m) ∧ (taken (.beq w d) ↔ a = m)

/-! ## Groups 3 and 4 -/

/-- BIT: Z from the AND with the A register, N and V the two top bits of the operand; nothing else (43_group3_bit_jmp_jsr.md;
the 32 bit form is decision D39). -/
def Obligations.BitTestsMemory : Prop :=
  ∀ (w : Width) (r : Fin 4) (m : MemMode) (s : State),
    let v := (s.advance m.len).load ((s.advance m.len).ea m) w
    ∃ t, exec (.bit w r m) s = .next t ∧ (t.flags.z = true ↔ ∀ j, ¬(v.getLsbD j = true ∧ (s.read (.a r) w).getLsbD j = true)) ∧
      (t.flags.n = true ↔ 2 ^ (w.bits - 1) ≤ v.toNat) ∧ (t.flags.v = true ↔ 2 ^ (w.bits - 2) ≤ v.toNat % 2 ^ (w.bits - 1)) ∧
      t.flags.c = s.flags.c ∧ t.flags.d = s.flags.d ∧ t.flags.i = s.flags.i ∧ Frame s t m.len [] []

/-- JMP goes to its effective address and changes nothing else; JSR also pushes the address of its last word as a longword
through SP, the target being computed before the push (43_group3_bit_jmp_jsr.md; decisions D15, D37). -/
def Obligations.JumpAndCallGoToTheEffectiveAddress : Prop :=
  ∀ (m : MemMode) (s : State), s.Inv →
    let ea := (s.advance m.len).ea m
    exec (.jmp m) s = .next { s with pc := ea } ∧
    ∃ t, exec (.jsr m) s = .next t ∧ t.pc = ea ∧ t.sp = s.sp - 2 ∧
      t.load (s.sp - 1) .long = s.pc + BitVec.ofNat 32 m.len - 1 ∧ t.flags = s.flags ∧
      Frame s t m.len [.g3 .pc, .g3 .sp] (cellsOf (s.sp - 1) .long)

/-- RTS after JSR resumes after the JSR with SP as before, every register and flag kept (43_group3_bit_jmp_jsr.md,
49_group9_10_returns_transfers.md; decision D15). -/
def Obligations.ReturnUndoesCall : Prop :=
  ∀ (m : MemMode) (s t : State), s.Inv → exec (.jsr m) s = .next t →
    ∃ u, exec (.rts (.g3 .sp)) t = .next u ∧ u.flags = s.flags ∧ ∀ r, u.reg r = s.seen m.len r

/-- BRK takes the trap of vector `v`: `pc + 2` and the status byte with B = 1 are pushed through SP, I is set, the other
flags kept, PC loaded from `$FFFFFF00 + 2*V` (44_group4_brk.md, 60_exceptions.md section 3; decisions D15, D17). -/
def Obligations.BreakEntersItsTrap : Prop :=
  ∀ (v : BitVec 7) (s : State), s.Inv →
    ∃ t, exec (.brk v) s = .next t ∧ TrapEntered s t (s.pc + 2) true (BitVec.ofNat 32 (0xFFFFFF00 + 2 * v.toNat)) ∧
      t.nmiPending = s.nmiPending ∧ t.waiting = s.waiting ∧ t.inputs = s.inputs

/-- RTI after BRK resumes two words after the BRK with every flag, SP and every other register as before
(60_exceptions.md section 4; decisions D15, D17). -/
def Obligations.ReturnFromInterruptUndoesBreak : Prop :=
  ∀ (v : BitVec 7) (s t : State), s.Inv → exec (.brk v) s = .next t →
    ∃ u, exec (.rti (.g3 .sp)) t = .next u ∧ u.pc = s.pc + 2 ∧ u.flags = s.flags ∧
      ∀ r, r ≠ .g3 .pc → u.reg r = s.reg r

/-! ## Group 5 -/

/-- CLC, SEC, CLV and NOP: each opcode word with `xP` = 1 and their `op` is that instruction, whatever its other bits, and
it changes its one flag, or nothing, and PC; with `xP` = 0 the word of NOP is WAI (45_group5_flags_nop.md sections 1 to 3,
30_encoding.md section 1). That unused fields are ignored is decision D2 (log 11), the place of `xP` D1, that the slot
holds WAI's meaning D30 (log 18). -/
def Obligations.ClearSetCarryClearOverflowAndNop : Prop :=
  (∀ (w o1 o2 : Word), w.getLsbD 15 = true →
    (w.extractLsb' 0 8 = 0x18 → decode w o1 o2 = .ok .clc) ∧ (w.extractLsb' 0 8 = 0x38 → decode w o1 o2 = .ok .sec) ∧
    (w.extractLsb' 0 8 = 0xB8 → decode w o1 o2 = .ok .clv) ∧ (w.extractLsb' 0 8 = 0xEA → decode w o1 o2 = .ok .nop)) ∧
  (∀ (w o1 o2 : Word), w.getLsbD 15 = false → w.extractLsb' 0 8 = 0xEA → decode w o1 o2 = .ok .wai) ∧
  (∀ s : State,
    exec .clc s = .next { s with pc := s.pc + 1, flags := { s.flags with c := false } } ∧
    exec .sec s = .next { s with pc := s.pc + 1, flags := { s.flags with c := true } } ∧
    exec .clv s = .next { s with pc := s.pc + 1, flags := { s.flags with v := false } } ∧
    exec .nop s = .next { s with pc := s.pc + 1 })

/-- CLI, SEI, CLD, SED, SEV and WAI: each changes its one flag, or sets `waiting`, and PC (45_group5_flags_nop.md; SEV is
decision D28, WAI decision D30). -/
def Obligations.InterruptDecimalOverflowFlagsAndWait : Prop :=
  ∀ s : State,
    exec .cli s = .next { s with pc := s.pc + 1, flags := { s.flags with i := false } } ∧
    exec .sei s = .next { s with pc := s.pc + 1, flags := { s.flags with i := true } } ∧
    exec .cld s = .next { s with pc := s.pc + 1, flags := { s.flags with d := false } } ∧
    exec .sed s = .next { s with pc := s.pc + 1, flags := { s.flags with d := true } } ∧
    exec .sev s = .next { s with pc := s.pc + 1, flags := { s.flags with v := true } } ∧
    exec .wai s = .next { s with pc := s.pc + 1, waiting := true }

/-! ## Group 7 -/

/-- DEX DEY INX INY INA DES INS add or subtract the constant modulo `2^n` and set N Z, on every register they can name; C
and V are kept; PC reads as the address after the instruction and its write is a jump (47_group7_index_incdec.md; the
register table is decision D29). -/
def Obligations.CountingInstructionsStepARegister : Prop :=
  ∀ (w : Width) (k : Nat) (x : IndexReg) (g : G3) (s : State), 1 ≤ k → k ≤ 8 →
    ∀ p ∈ [(Instr.dex w k x, indexRegister .x x, false), (Instr.dey w k x, indexRegister .y x, false),
        (Instr.inx w k x, indexRegister .x x, true), (Instr.iny w k x, indexRegister .y x, true),
        (Instr.ina w k x, indexRegister .a x, true), (Instr.des w k g, Reg.g3 g, false), (Instr.ins w k g, Reg.g3 g, true)],
      let a := (s.seen 1 p.2.1).toNat % 2 ^ w.bits
      ∃ t v, exec p.1 s = .next t ∧
        v.toNat = (if p.2.2 = true then a + k else a + 2 ^ w.bits - k) % 2 ^ w.bits ∧
        HoldsLow w (s.seen 1 p.2.1) (t.reg p.2.1) v ∧ SetsNZ s.flags t.flags v ∧ Frame s t 1 [p.2.1] []

/-! ## Group 8 -/

/-- PHA PHX PHY PHP PSH, through any stack register but PC: a byte goes to the word the stack register names and the
register falls by 1; a longword goes to that word and the one below and the register falls by 2. The datum is read first,
so a register pushed through itself pushes its old value. No flag changes (48_group8_stack.md, 20_memory.md section 5;
decision D14, the alternates D25). -/
def Obligations.PushesStoreBelowTheStackRegister : Prop :=
  ∀ (w : Width) (r : Fin 4) (v : Long) (sr : Reg) (s : State), s.Inv → sr ≠ .g3 .pc →
    (∀ p ∈ [(Instr.pha w r sr, s.read (.a r) w, 1), (Instr.phx w r sr, s.read (.x r) w, 1),
        (Instr.phy w r sr, s.read (.y r) w, 1), (Instr.psh w v sr, v.setWidth w.bits, if w = .byte then 2 else 3)],
      let at_ := if w = .byte then s.reg sr else s.reg sr - 1
      ∃ t, exec p.1 s = .next t ∧ t.load at_ w = p.2.1 ∧ t.reg sr = s.reg sr - (if w = .byte then 1 else 2) ∧
        t.flags = s.flags ∧ Frame s t p.2.2 [sr] (cellsOf at_ w)) ∧
    (∃ t, exec (.php sr) s = .next t ∧ t.load (s.reg sr) .byte = s.flags.status true ∧ t.reg sr = s.reg sr - 1 ∧
      t.flags = s.flags ∧ Frame s t 1 [sr] (cellsOf (s.reg sr) .byte))

/-- PLA PLX PLY, through any stack register but PC: the stack register rises by 1 or 2, then the datum above its old value
is written to the main register, which may be the stack register itself; N Z (48_group8_stack.md; decision D14, the
alternates D25). -/
def Obligations.PullsLoadAboveTheStackRegister : Prop :=
  ∀ (w : Width) (r : Fin 4) (sr : Reg) (s : State), sr ≠ .g3 .pc →
    let v := s.load (s.reg sr + 1) w
    let up := s.reg sr + (if w = .byte then 1 else 2)
    ∀ p ∈ [(Instr.pla w r sr, Reg.a r), (Instr.plx w r sr, Reg.x r), (Instr.ply w r sr, Reg.y r)],
      ∃ t, exec p.1 s = .next t ∧ HoldsLow w (if p.2 = sr then up else s.reg p.2) (t.reg p.2) v ∧
        (sr ≠ p.2 → t.reg sr = up) ∧ SetsNZ s.flags t.flags v ∧ Frame s t 1 [p.2, sr] []

/-- PLP takes all six flags from the pulled byte; POP raises the stack register by its immediate and reads no memory; both
through any stack register but PC (48_group8_stack.md; POP is decision D26). -/
def Obligations.PullStatusAndDiscard : Prop :=
  ∀ (w : Width) (v : Long) (sr : Reg) (s : State), sr ≠ .g3 .pc →
    (let b := s.load (s.reg sr + 1) .byte
      ∃ t, exec (.plp sr) s = .next t ∧ t.reg sr = s.reg sr + 1 ∧ Frame s t 1 [sr] [] ∧
        t.flags = ⟨b.getLsbD 7, b.getLsbD 6, b.getLsbD 3, b.getLsbD 2, b.getLsbD 1, b.getLsbD 0⟩) ∧
    (∃ t, exec (.pop w v sr) s = .next t ∧
      (t.reg sr).toNat = ((s.reg sr).toNat + v.toNat % 2 ^ w.bits) % 2 ^ 32 ∧ t.flags = s.flags ∧
      Frame s t (if w = .byte then 2 else 3) [sr] [])

/-- PHP then PLP through the same register restores the flags; the pushed byte has bit 5 set and bit 4 as asked
(10_state.md section 2, 48_group8_stack.md; the 8 bit status register is decision D9). -/
def Obligations.StatusByteRoundTrip : Prop :=
  (∀ (f : Flags) (b : Bool), Flags.ofStatus (f.status b) = f ∧ (f.status b).getLsbD 5 = true ∧
    (f.status b).getLsbD 4 = b) ∧
  (∀ (sr : Reg) (s t : State), s.Inv → sr ≠ .g3 .pc → exec (.php sr) s = .next t →
    ∀ f, ∃ u, exec (.plp sr) (t.setFlags f) = .next u ∧ u.flags = s.flags ∧ u.reg sr = s.reg sr)

/-- PC as the stack register of the PHA and RTS groups is `Undefined`: the run ends in a fault
(48_group8_stack.md section 1, 49_group9_10_returns_transfers.md section 1; decision D14; log 10). Nothing else in `exec`
stops: no instruction but BRK raises an exception, and BRK enters its trap (60_exceptions.md sections 1, 6). Where the
spec lets a model stop or run, this one runs: ADC SBC ADD SUB with D set (40_group0_accumulator.md section 1; decision
D18; log 7, where vector V009 prints a fault), a read of what nothing has written since reset (D34; log 4), and the
decisions D10, D13, D20 to D22, D24, D26, D27, D29 (93_implementation_defined.md section 1; log 18). No access stops,
since every word is RAM (20_memory.md sections 3, 6; decision D41; log 6). -/
def Obligations.OnlyPcAsStackRegisterStopsAnInstruction : Prop :=
  ∀ (i : Instr) (s : State),
    (stackRegister i = some (.g3 .pc) → exec i s = .fault .pcAsStackRegister) ∧
    (stackRegister i ≠ some (.g3 .pc) → ∃ t, exec i s = .next t)

/-! ## Groups 9 and 10 -/

/-- RTI pulls the status byte and then PC, RTS pulls PC and adds 1; the stack register, any but PC, rises by 3 or 2; no
other register and no memory changes (49_group9_10_returns_transfers.md section 1; decision D15). -/
def Obligations.ReturnsPullThroughTheStackRegister : Prop :=
  ∀ (sr : Reg) (s : State), sr ≠ .g3 .pc →
    (let b := s.load (s.reg sr + 1) .byte
      ∃ t, exec (.rti sr) s = .next t ∧ t.pc = s.load (s.reg sr + 2) .long ∧ t.reg sr = s.reg sr + 3 ∧
        t.flags = ⟨b.getLsbD 7, b.getLsbD 6, b.getLsbD 3, b.getLsbD 2, b.getLsbD 1, b.getLsbD 0⟩ ∧
        Frame s t 1 [.g3 .pc, sr] []) ∧
    (∃ t, exec (.rts sr) s = .next t ∧ t.pc = s.load (s.reg sr + 1) .long + 1 ∧ t.reg sr = s.reg sr + 2 ∧
      t.flags = s.flags ∧ Frame s t 1 [.g3 .pc, sr] [])

/-- The ten transfers: source and destination by mnemonic, the second register any of the sixteen; N Z, but none for TXS;
PC as source reads the address after the instruction, PC as destination is a jump (49_group9_10_returns_transfers.md
section 2; decisions D5, D10, D27, D36). -/
def Obligations.TransfersCopyARegister : Prop :=
  ∀ (w : Width) (r : Fin 4) (q : Reg) (s : State),
    (∀ p ∈ [(Instr.tax w r q, Reg.a r, q), (Instr.tay w r q, Reg.a r, q), (Instr.txa w r q, q, Reg.a r),
        (Instr.tya w r q, q, Reg.a r), (Instr.tsx w r q, q, Reg.x r), (Instr.txy w r q, q, Reg.y r),
        (Instr.tyx w r q, q, Reg.x r), (Instr.tyy w r q, Reg.y r, q), (Instr.txx w r q, Reg.x r, q)],
      let v := (s.seen 1 p.2.1).setWidth w.bits
      ∃ t, exec p.1 s = .next t ∧ HoldsLow w (s.seen 1 p.2.2) (t.reg p.2.2) v ∧ SetsNZ s.flags t.flags v ∧
        Frame s t 1 [p.2.2] []) ∧
    (∃ t, exec (.txs w r q) s = .next t ∧ HoldsLow w (s.seen 1 q) (t.reg q) (s.read (.x r) w) ∧ t.flags = s.flags ∧
      Frame s t 1 [q] [])

/-! ## The machine -/

/-- A step runs the decoded instruction: at a quiet boundary, if the words at PC decode to `i`, the step is `exec i` in the
state whose sample of the input lines is used up, nothing else changed before it (60_exceptions.md section 2; 20_memory.md
section 4 for the fetch). That the lines are sampled once at each boundary is decision D40, the wait of WAI D30, the fetch
at addresses modulo 2^32 D11 and D43 (log 18); the schedule whose sample is used up is the model's own (log 8). -/
def Obligations.StepRunsTheDecodedInstruction : Prop :=
  ∀ (s : State) (i : Instr), s.Quiet →
    decode (s.mem.readWord s.pc) (s.mem.readWord (s.pc + 1)) (s.mem.readWord (s.pc + 2)) = .ok i → i.wf = true →
    step s = exec i { s with inputs := s.inputs.tail }

/-- At a quiet boundary an unassigned slot at PC is a fault that names it (30_encoding.md section 4; decision D3). -/
def Obligations.StepFaultsOnAnUnassignedSlot : Prop :=
  ∀ (s : State), s.Quiet →
    (∀ i, decode (s.mem.readWord s.pc) (s.mem.readWord (s.pc + 1)) (s.mem.readWord (s.pc + 2)) ≠ .ok i) →
    step s = .fault (.unassignedSlot ((s.mem.readWord s.pc).getLsbD 15) ((s.mem.readWord s.pc).extractLsb' 0 8))

/-- A reset sampled at a boundary comes before everything: I is set, the hidden bits cleared, PC is the longword that
stands at `$FFFFFFFC` after the reset (10_state.md section 5, 60_exceptions.md section 5; decision D34), and a sample of
the inputs is used up. Memory after it is a free value, any canonical contents, those before the reset among them (log 5).
It says nothing of the registers and flags that reset leaves unspecified (log 4). -/
def Obligations.ResetComesFirst : Prop :=
  (∀ s : State, s.lines.reset = true →
    ∃ t, step s = .next t ∧ t.flags.i = true ∧ t.nmiPending = false ∧ t.waiting = false ∧
      t.pc = t.load 0xFFFFFFFC .long ∧ t.mem = Memory.ofCells (Config.resetMemory s.draws s.mem) ∧ t.Inv ∧
      t.inputs = s.inputs.tail) ∧
  (∀ m : Memory, m.wf = true → Memory.ofCells m = m)

/-- Without a reset, an NMI that is pending or arrives is taken next, whatever I is: the wait ends, the address of the
next instruction and the status byte with B = 0 are pushed, PC is loaded from `$FFFFFFFA` (60_exceptions.md sections 2, 3;
decisions D16, D17, D40). -/
def Obligations.NmiEntersItsTrap : Prop :=
  ∀ s : State, s.Inv → s.lines.reset = false → (s.nmiPending = true ∨ s.lines.nmi = true) →
    ∃ t, step s = .next t ∧ TrapEntered s t s.pc false 0xFFFFFFFA ∧ t.nmiPending = false ∧ t.waiting = false ∧
      t.inputs = s.inputs.tail

/-- Without a reset or an NMI, an IRQ with I clear is taken: as NMI, through `$FFFFFFFE` (60_exceptions.md sections 2, 3;
decisions D16, D17, D40). -/
def Obligations.UnmaskedIrqEntersItsTrap : Prop :=
  ∀ s : State, s.Inv → s.lines.reset = false → s.nmiPending = false → s.lines.nmi = false → s.lines.irq = true →
    s.flags.i = false →
    ∃ t, step s = .next t ∧ TrapEntered s t s.pc false 0xFFFFFFFE ∧ t.nmiPending = false ∧ t.waiting = false ∧
      t.inputs = s.inputs.tail

/-- While waiting, a masked IRQ ends the wait without a trap, and with no request nothing changes
(45_group5_flags_nop.md section 3, 60_exceptions.md section 2; decision D30). -/
def Obligations.WaitingEndsOnlyOnARequest : Prop :=
  ∀ s : State, s.lines.reset = false → s.nmiPending = false → s.lines.nmi = false → s.waiting = true →
    (s.lines.irq = true → s.flags.i = true → step s = .next { s with waiting := false, inputs := s.inputs.tail }) ∧
    (s.lines.irq = false → step s = .next { s with inputs := s.inputs.tail })

/-- A step never refuses, and it stops only with one of the two faults, each only where the spec has `Undefined`
(60_exceptions.md sections 1 and 6; decisions D3, D14; log 9, log 10), and only at a quiet boundary (60_exceptions.md
section 2; decisions D30, D40). Where the spec lets a model stop or run, this one runs: ADC SBC ADD SUB with D set (D18;
log 7), unused fields that are not ones (D2; log 11), a read of what nothing has written since reset (D34; log 4), code
that was stored to (D31), and the decisions D10, D13, D20 to D22, D24, D26, D27, D29 (93_implementation_defined.md
section 1; log 18). No access stops, since every word is RAM (20_memory.md section 6; decision D41; log 6). -/
def Obligations.StepStopsOnlyWhereTheSpecIsUndefined : Prop :=
  ∀ s : State,
    (∃ t, step s = .next t) ∨
    (∃ p op, step s = .fault (.unassignedSlot p op) ∧ s.Quiet ∧ Decode.slot p op = none) ∨
    (∃ i, step s = .fault .pcAsStackRegister ∧ s.Quiet ∧ s.fetch = .ok i ∧ stackRegister i = some (.g3 .pc))

/-- INVARIANT. Every step keeps the canonical form of memory, from every state that has it. -/
def Obligations.StepKeepsMemoryCanonical : Prop :=
  ∀ s t : State, s.Inv → step s = .next t → t.Inv

/-- The reset state has the canonical form of memory. -/
def Obligations.ResetStateHasCanonicalMemory : Prop := State.reset.Inv

/-- What the spec gives of the state after reset: I is 1, both hidden bits 0, PC the longword at `$FFFFFFFC`
(10_state.md section 5; decision D34). -/
def Obligations.ResetStateHoldsTheSpecValues : Prop :=
  State.reset.flags.i = true ∧ State.reset.nmiPending = false ∧ State.reset.waiting = false ∧
    State.reset.pc = State.reset.load 0xFFFFFFFC .long

/-- Only the instructions of the table of 10_state.md section 2 write a flag: each keeps the flags it is not listed for. -/
def Obligations.InstructionsKeepTheFlagsTheyAreNotListedFor : Prop :=
  ∀ (i : Instr) (s t : State), exec i s = .next t →
    (writesN i = false → t.flags.n = s.flags.n ∧ (t.flags.z = s.flags.z)) ∧
    (writesV i = false → t.flags.v = s.flags.v) ∧ (writesC i = false → t.flags.c = s.flags.c) ∧
    (writesD i = false → t.flags.d = s.flags.d) ∧ (writesI i = false → t.flags.i = s.flags.i)

/-- Interrupts are unmasked only by CLI, PLP and RTI: in any step that clears I, one of these ran (60_exceptions.md
section 2). -/
def Obligations.OnlyThreeInstructionsUnmaskInterrupts : Prop :=
  ∀ s t : State, step s = .next t → s.flags.i = true → t.flags.i = false →
    s.Quiet ∧ ∃ i, s.fetch = .ok i ∧ (i = .cli ∨ (∃ sr, i = .plp sr) ∨ ∃ sr, i = .rti sr)

/-- Only the storing instructions change memory: STA STX STY STS, the shifts, INC DEC and EXG on memory, JSR, BRK, PHA PHX
PHY PHP PSH; any other leaves every byte as it was (the instruction sections, 40_group0_accumulator.md to
49_group9_10_returns_transfers.md). Which of the alternates store rests on the spec's decisions (log 18): STS D20, ADS ADX
and the like D20 D21, EXG D22, ASR D23, PHX PHY PLX PLY D25, POP D26, the transfers D27, INA DES INS D29, WAI D30; what
JSR and BRK push D14, D15, D17. -/
def Obligations.OnlyStoringInstructionsChangeMemory : Prop :=
  ∀ (i : Instr) (s t : State), exec i s = .next t → storesToMemory i = false → t.mem = s.mem

/-- No instruction but ADC, SBC, ADD, SUB looks at the decimal flag (40_group0_accumulator.md section 1; decision D18):
any other that neither pushes nor writes it does the same with the flag set as with it clear. -/
def Obligations.OtherInstructionsIgnoreTheDecimalFlag : Prop :=
  ∀ (i : Instr) (s t : State) (b : Bool), readsD i = false → writesD i = false → exec i s = .next t →
    exec i (s.setFlags { s.flags with d := b }) = .next (t.setFlags { t.flags with d := b })

/-- No instruction touches the NMI latch, the schedule of inputs or the free draws; `waiting` is set by WAI alone; a step
uses up exactly one sample of the inputs, draws free values only for a reset, and leaves no NMI pending, since a boundary
takes it at once (10_state.md section 3, 60_exceptions.md section 2; the schedule and the draws are the model's, log 4,
log 8). -/
def Obligations.OnlyTheBoundaryTouchesHiddenState : Prop :=
  (∀ (i : Instr) (s t : State), exec i s = .next t →
    t.nmiPending = s.nmiPending ∧ t.inputs = s.inputs ∧ t.draws = s.draws ∧
      (i ≠ .wai → t.waiting = s.waiting) ∧ (i = .wai → t.waiting = true)) ∧
  (∀ s t : State, step s = .next t → t.inputs = s.inputs.tail ∧ t.nmiPending = false ∧
    t.draws = s.draws + (if s.lines.reset = true then 1 else 0))

/-- The instruction that `withFetchWord` stores is the one the next step runs (log 13). -/
def Obligations.StoredInstructionIsTheOneFetched : Prop :=
  ∀ (s : State) (nbits w : Nat), s.Inv →
    (s.withFetchWord nbits w).Quiet ∧
    (∀ i, decodeTableWord nbits w = some i →
      step (s.withFetchWord nbits w) = exec i (s.withFetchWord nbits w))

/-! ## Lengths -/

/-- Every instruction's length in words, the opcode word included: 1 for an implied or `acc` form, 2 for an 8 bit and 3 for
a 32 bit immediate or displacement, 2 for a zero-page and 3 for an absolute mode (30_encoding.md section 1; that field D
chooses the size of `imm` and `rel` is decision D6, log 18). -/
def Obligations.InstructionLengthsFollowTheTable : Prop :=
  (∀ (o : Word) (b : Long) (ix : Index),
    (∀ m ∈ [MemMode.zp o, .zpX o ix, .zpY o ix, .zpIndX o ix, .zpIndY o ix], m.len = 2) ∧
    (∀ m ∈ [MemMode.abs b, .absX b ix, .absY b ix, .ind b, .indX b ix, .indY b ix], m.len = 3)) ∧
  (∀ (w : Width) (v : Long) (r : Reg) (m : MemMode),
    Operand.len w (.imm v) = (if w = .byte then 2 else 3) ∧ Operand.len w (.acc r) = 1 ∧
    Operand.len w (.mem m) = m.len ∧ Place.len (.acc r) = 1 ∧ Place.len (.mem m) = m.len) ∧
  (∀ (w : Width) (r : Fin 4) (g : G3) (o : Operand) (m : MemMode) (p : Place),
    (∀ i ∈ [Instr.ora w r o, .and w r o, .eor w r o, .adc w r o, .lda w r o, .cmp w r o, .sbc w r o, .add w r o,
        .sub w r o, .ads w g o, .sbs w g o, .ldx w r o, .ldy w r o, .cpx w r o, .cpy w r o, .adx w r o, .ady w r o,
        .sbx w r o], i.len = o.len w) ∧
    (∀ i ∈ [Instr.sta w r m, .sts w g m, .stx w r m, .sty w r m, .bit w r m, .jmp m, .jsr m], i.len = m.len) ∧
    (∀ i ∈ [Instr.asl w p, .lsr w p, .rol w p, .ror w p, .dec w p, .inc w p, .asr w p, .exg w r p], i.len = p.len)) ∧
  (∀ (w : Width) (d : Long) (sr : Reg),
    ∀ i ∈ [Instr.bpl w d, .bmi w d, .bvc w d, .bvs w d, .bcc w d, .bcs w d, .bne w d, .beq w d, .bge w d, .blt w d,
        .ble w d, .bgt w d, .bls w d, .bhi w d, .bnv w d, .bra w d, .psh w d sr, .pop w d sr],
      i.len = if w = .byte then 2 else 3) ∧
  (∀ (w : Width) (r : Fin 4) (g : G3) (v : BitVec 7) (k : Nat) (x : IndexReg) (q : Reg),
    ∀ i ∈ [Instr.brk v, .clc, .sec, .cli, .sei, .clv, .cld, .sed, .nop, .sev, .wai, .dex w k x, .dey w k x, .inx w k x,
        .iny w k x, .ina w k x, .des w k g, .ins w k g, .pha w r q, .php q, .pla w r q, .plp q, .phx w r q, .phy w r q,
        .plx w r q, .ply w r q, .rti q, .rts q, .tax w r q, .tay w r q, .txa w r q, .tya w r q, .tsx w r q, .txs w r q,
        .txy w r q, .tyx w r q, .tyy w r q, .txx w r q], i.len = 1)
end

