-- ==== Sys2Proof/Laws/Memory.lean ====
section
/-! SUPPORT. The memory: what a read sees after a write, and that every operation keeps the canonical form. -/

namespace Sys2Proof.Machine

/-- The canonical form from a lower bound on holds from every smaller bound on. -/
theorem Memory.wfFrom_mono {lo lo' : Nat} (h : lo' ≤ lo) : ∀ {m : Memory}, m.wfFrom lo → m.wfFrom lo'
  | [], _ => rfl
  | (k, b) :: rest, hm => by
    simp only [Memory.wfFrom, Bool.and_eq_true, decide_eq_true_eq] at hm ⊢
    exact ⟨⟨⟨h.trans hm.1.1.1, hm.1.1.2⟩, hm.1.2⟩, hm.2⟩

/-- Below the lowest key of a canonical memory every byte is unlisted. -/
theorem Memory.readByte_below {lo q : Nat} (hq : q < lo) : ∀ {m : Memory}, m.wfFrom lo → m.readByte q = unlisted
  | [], _ => rfl
  | (k, b) :: rest, hm => by
    simp only [Memory.wfFrom, Bool.and_eq_true, decide_eq_true_eq] at hm
    rw [Memory.readByte, if_neg (by omega)]
    exact Memory.readByte_below (by omega) hm.2

/-- Reading one byte after writing one byte. -/
theorem Memory.readByte_writeByte_from {lo q : Nat} {b : Byte} :
    ∀ {m : Memory}, m.wfFrom lo → ∀ k, (m.writeByte q b).readByte k = if k = q then b else m.readByte k
  | [], _, k => by
    by_cases hb : b = unlisted <;> simp [Memory.writeByte, Memory.readByte, hb, eq_comm (a := q)]
  | (j, c) :: rest, hm, k => by
    simp only [Memory.wfFrom, Bool.and_eq_true, decide_eq_true_eq] at hm
    have below := fun p (h : p < j + 1) => Memory.readByte_below h hm.2
    rw [Memory.writeByte]
    split
    · split <;> simp only [Memory.readByte]
      · rename_i h hb
        split_ifs with h1 h2 h2
        · omega
        · rfl
        · rw [below k (by omega), hb]
        · rfl
      · split_ifs <;> first | rfl | omega
    · split
      · split <;> simp only [Memory.readByte]
        · rename_i _ h hb
          split_ifs with h1 h2
          · rw [below k (by omega), hb]
          · omega
          · rfl
        · split_ifs <;> first | rfl | omega
      · rw [Memory.readByte, Memory.readByte, Memory.readByte_writeByte_from hm.2 k]
        split_ifs <;> first | rfl | omega

/-- Reading one byte of a canonical memory after writing one byte: the byte written, or what was there. -/
theorem Memory.readByte_writeByte {m : Memory} (h : m.wf) (q : Nat) (b : Byte) (k : Nat) :
    (m.writeByte q b).readByte k = if k = q then b else m.readByte k :=
  Memory.readByte_writeByte_from h k

/-- Writing a byte keeps the canonical form. -/
theorem Memory.wfFrom_writeByte {q : Nat} {b : Byte} (hq : q < cellCount) :
    ∀ {m : Memory} {lo : Nat}, m.wfFrom lo → lo ≤ q → (m.writeByte q b).wfFrom lo
  | [], lo, _, hl => by
    by_cases hb : b = unlisted <;> simp [Memory.writeByte, Memory.wfFrom, hb, hl, hq]
  | (j, c) :: rest, lo, hm, hl => by
    have hm' := hm
    simp only [Memory.wfFrom, Bool.and_eq_true, decide_eq_true_eq] at hm
    obtain ⟨⟨⟨h1, h2⟩, h3⟩, h4⟩ := hm
    rw [Memory.writeByte]
    split
    · split
      · exact hm'
      · rename_i h hb
        simp only [Memory.wfFrom, Bool.and_eq_true, decide_eq_true_eq]
        exact ⟨⟨⟨hl, hq⟩, by simpa using hb⟩, ⟨⟨by omega, h2⟩, h3⟩, h4⟩
    · split
      · split
        · exact Memory.wfFrom_mono (by omega) h4
        · rename_i _ h hb
          simp only [Memory.wfFrom, Bool.and_eq_true, decide_eq_true_eq]
          exact ⟨⟨⟨hl, hq⟩, by simpa using hb⟩, h ▸ h4⟩
      · simp only [Memory.wfFrom, Bool.and_eq_true, decide_eq_true_eq]
        exact ⟨⟨⟨h1, h2⟩, h3⟩, Memory.wfFrom_writeByte hq h4 (by omega)⟩

/-- The memory of a list of cells is in canonical form. -/
theorem Memory.wf_ofCells : ∀ l : List Host.Cell, (Memory.ofCells l).wf
  | [] => rfl
  | (k, b) :: rest => by
    rw [Memory.ofCells]
    split
    · exact Memory.wfFrom_writeByte ‹_› (Memory.wf_ofCells rest) (Nat.zero_le _)
    · exact Memory.wf_ofCells rest

/-- Writing a cell below every other one of a canonical memory puts it first. -/
theorem Memory.writeByte_below {k : Nat} {b : Byte} (hb : b ≠ unlisted) :
    ∀ {m : Memory}, m.wfFrom (k + 1) → m.writeByte k b = (k, b) :: m
  | [], _ => by simp [Memory.writeByte, hb]
  | (j, c) :: rest, hm => by
    simp only [Memory.wfFrom, Bool.and_eq_true, decide_eq_true_eq] at hm
    rw [Memory.writeByte, if_pos (by omega), if_neg hb]

/-- The cells of a canonical memory give that memory: every contents of memory is the memory of some list. -/
theorem Memory.ofCells_of_wfFrom {lo : Nat} : ∀ {m : Memory}, m.wfFrom lo → Memory.ofCells m = m
  | [], _ => rfl
  | (k, b) :: rest, hm => by
    simp only [Memory.wfFrom, Bool.and_eq_true, decide_eq_true_eq, bne_iff_ne] at hm
    rw [Memory.ofCells, if_pos hm.1.1.2, Memory.ofCells_of_wfFrom hm.2, Memory.writeByte_below hm.1.2 hm.2]

theorem lowCell_lt (a : Long) : lowCell a < cellCount := by
  have := a.isLt
  simp only [lowCell, cellCount]
  omega

theorem highCell_lt (a : Long) : highCell a < cellCount := by
  have := a.isLt
  simp only [highCell, cellCount]
  omega

/-- Writing a byte of the address space keeps the canonical form. -/
theorem Memory.wf_writeByte {m : Memory} (h : m.wf) {q : Nat} (hq : q < cellCount) (b : Byte) :
    (m.writeByte q b).wf :=
  Memory.wfFrom_writeByte hq h (Nat.zero_le _)

/-- Writing a word keeps the canonical form. -/
theorem Memory.wf_writeWord {m : Memory} (h : m.wf) (a : Long) (w : Word) : (m.writeWord a w).wf :=
  Memory.wf_writeByte (Memory.wf_writeByte h (lowCell_lt a) _) (highCell_lt a) _

/-- Writing a datum of either width keeps the canonical form. -/
theorem Memory.wf_write {m : Memory} (h : m.wf) (a : Long) (w : Width) (v : BitVec w.bits) : (m.write a w v).wf := by
  cases w
  · exact Memory.wf_writeByte h (lowCell_lt a) v
  · exact Memory.wf_writeWord (Memory.wf_writeWord h a _) (a + 1) _

/-- No address is its own successor. -/
theorem ne_succ (a : Long) : a ≠ a + 1 := by
  intro h
  have := congrArg BitVec.toNat h
  simp at this
  have := a.isLt
  omega

@[simp] theorem lowCell_inj {a b : Long} : lowCell a = lowCell b ↔ a = b := by
  rw [lowCell, lowCell, ← BitVec.toNat_inj]
  omega

@[simp] theorem highCell_inj {a b : Long} : highCell a = highCell b ↔ a = b := by
  rw [highCell, highCell, ← BitVec.toNat_inj]
  omega

@[simp] theorem lowCell_ne_highCell (a b : Long) : lowCell a ≠ highCell b := by
  rw [lowCell, highCell]
  omega

@[simp] theorem highCell_ne_lowCell (a b : Long) : highCell a ≠ lowCell b := by
  rw [lowCell, highCell]
  omega

/-- What a word write does to one byte. -/
theorem Memory.readByte_writeWord {m : Memory} (h : m.wf) (a : Long) (w : Word) (k : Nat) :
    (m.writeWord a w).readByte k =
      if k = highCell a then highByte w else if k = lowCell a then lowByte w else m.readByte k := by
  rw [Memory.writeWord, Memory.readByte_writeByte (Memory.wf_writeByte h (lowCell_lt a) _),
    Memory.readByte_writeByte h]

/-- What a byte write (R55) does to one cell. -/
theorem Memory.readByte_write_byte {m : Memory} (h : m.wf) (a : Long) (v : Byte) (k : Nat) :
    (m.write a .byte v).readByte k = if k = lowCell a then v else m.readByte k :=
  Memory.readByte_writeByte h _ _ k

/-- What a longword write (R56) does to one cell. -/
theorem Memory.readByte_write_long {m : Memory} (h : m.wf) (a : Long) (v : Long) (k : Nat) :
    (m.write a .long v).readByte k =
      if k = highCell (a + 1) then highByte (splitHigh v) else if k = lowCell (a + 1) then lowByte (splitHigh v)
      else if k = highCell a then highByte (splitLow v) else if k = lowCell a then lowByte (splitLow v)
      else m.readByte k := by
  rw [Memory.write, Memory.readByte_writeWord (Memory.wf_writeWord h a _), Memory.readByte_writeWord h]

end Sys2Proof.Machine
end

