-- ==== Sys2Proof/Laws/State.lean ====
section
/-! SUPPORT. One lemma for each field of State and each named update, and the laws of reading a register after writing
one. Later proofs cite these instead of unfolding an update. -/

namespace Sys2Proof.Machine

/-! ## `setFlags` -/

@[simp] theorem State.setFlags_a (s : State) (f : Flags) : (s.setFlags f).a = s.a := rfl
@[simp] theorem State.setFlags_x (s : State) (f : Flags) : (s.setFlags f).x = s.x := rfl
@[simp] theorem State.setFlags_y (s : State) (f : Flags) : (s.setFlags f).y = s.y := rfl
@[simp] theorem State.setFlags_pc (s : State) (f : Flags) : (s.setFlags f).pc = s.pc := rfl
@[simp] theorem State.setFlags_z0 (s : State) (f : Flags) : (s.setFlags f).z0 = s.z0 := rfl
@[simp] theorem State.setFlags_z1 (s : State) (f : Flags) : (s.setFlags f).z1 = s.z1 := rfl
@[simp] theorem State.setFlags_sp (s : State) (f : Flags) : (s.setFlags f).sp = s.sp := rfl
@[simp] theorem State.setFlags_flags (s : State) (f : Flags) : (s.setFlags f).flags = f := rfl
@[simp] theorem State.setFlags_nmiPending (s : State) (f : Flags) : (s.setFlags f).nmiPending = s.nmiPending := rfl
@[simp] theorem State.setFlags_waiting (s : State) (f : Flags) : (s.setFlags f).waiting = s.waiting := rfl
@[simp] theorem State.setFlags_mem (s : State) (f : Flags) : (s.setFlags f).mem = s.mem := rfl
@[simp] theorem State.setFlags_inputs (s : State) (f : Flags) : (s.setFlags f).inputs = s.inputs := rfl
@[simp] theorem State.setFlags_draws (s : State) (f : Flags) : (s.setFlags f).draws = s.draws := rfl

/-! ## `jump` -/

@[simp] theorem State.jump_a (s : State) (t : Long) : (s.jump t).a = s.a := rfl
@[simp] theorem State.jump_x (s : State) (t : Long) : (s.jump t).x = s.x := rfl
@[simp] theorem State.jump_y (s : State) (t : Long) : (s.jump t).y = s.y := rfl
@[simp] theorem State.jump_pc (s : State) (t : Long) : (s.jump t).pc = t := rfl
@[simp] theorem State.jump_z0 (s : State) (t : Long) : (s.jump t).z0 = s.z0 := rfl
@[simp] theorem State.jump_z1 (s : State) (t : Long) : (s.jump t).z1 = s.z1 := rfl
@[simp] theorem State.jump_sp (s : State) (t : Long) : (s.jump t).sp = s.sp := rfl
@[simp] theorem State.jump_flags (s : State) (t : Long) : (s.jump t).flags = s.flags := rfl
@[simp] theorem State.jump_nmiPending (s : State) (t : Long) : (s.jump t).nmiPending = s.nmiPending := rfl
@[simp] theorem State.jump_waiting (s : State) (t : Long) : (s.jump t).waiting = s.waiting := rfl
@[simp] theorem State.jump_mem (s : State) (t : Long) : (s.jump t).mem = s.mem := rfl
@[simp] theorem State.jump_inputs (s : State) (t : Long) : (s.jump t).inputs = s.inputs := rfl
@[simp] theorem State.jump_draws (s : State) (t : Long) : (s.jump t).draws = s.draws := rfl

/-! ## `advance` -/

@[simp] theorem State.advance_a (s : State) (n : Nat) : (s.advance n).a = s.a := rfl
@[simp] theorem State.advance_x (s : State) (n : Nat) : (s.advance n).x = s.x := rfl
@[simp] theorem State.advance_y (s : State) (n : Nat) : (s.advance n).y = s.y := rfl
@[simp] theorem State.advance_pc (s : State) (n : Nat) : (s.advance n).pc = s.pc + BitVec.ofNat 32 n := rfl
@[simp] theorem State.advance_z0 (s : State) (n : Nat) : (s.advance n).z0 = s.z0 := rfl
@[simp] theorem State.advance_z1 (s : State) (n : Nat) : (s.advance n).z1 = s.z1 := rfl
@[simp] theorem State.advance_sp (s : State) (n : Nat) : (s.advance n).sp = s.sp := rfl
@[simp] theorem State.advance_flags (s : State) (n : Nat) : (s.advance n).flags = s.flags := rfl
@[simp] theorem State.advance_nmiPending (s : State) (n : Nat) : (s.advance n).nmiPending = s.nmiPending := rfl
@[simp] theorem State.advance_waiting (s : State) (n : Nat) : (s.advance n).waiting = s.waiting := rfl
@[simp] theorem State.advance_mem (s : State) (n : Nat) : (s.advance n).mem = s.mem := rfl
@[simp] theorem State.advance_inputs (s : State) (n : Nat) : (s.advance n).inputs = s.inputs := rfl
@[simp] theorem State.advance_draws (s : State) (n : Nat) : (s.advance n).draws = s.draws := rfl

/-! ## `store` -/

@[simp] theorem State.store_a (s : State) (a : Long) (w : Width) (v : BitVec w.bits) : (s.store a w v).a = s.a := rfl
@[simp] theorem State.store_x (s : State) (a : Long) (w : Width) (v : BitVec w.bits) : (s.store a w v).x = s.x := rfl
@[simp] theorem State.store_y (s : State) (a : Long) (w : Width) (v : BitVec w.bits) : (s.store a w v).y = s.y := rfl
@[simp] theorem State.store_pc (s : State) (a : Long) (w : Width) (v : BitVec w.bits) : (s.store a w v).pc = s.pc := rfl
@[simp] theorem State.store_z0 (s : State) (a : Long) (w : Width) (v : BitVec w.bits) : (s.store a w v).z0 = s.z0 := rfl
@[simp] theorem State.store_z1 (s : State) (a : Long) (w : Width) (v : BitVec w.bits) : (s.store a w v).z1 = s.z1 := rfl
@[simp] theorem State.store_sp (s : State) (a : Long) (w : Width) (v : BitVec w.bits) : (s.store a w v).sp = s.sp := rfl
@[simp] theorem State.store_flags (s : State) (a : Long) (w : Width) (v : BitVec w.bits) : (s.store a w v).flags = s.flags := rfl
@[simp] theorem State.store_nmiPending (s : State) (a : Long) (w : Width) (v : BitVec w.bits) : (s.store a w v).nmiPending = s.nmiPending := rfl
@[simp] theorem State.store_waiting (s : State) (a : Long) (w : Width) (v : BitVec w.bits) : (s.store a w v).waiting = s.waiting := rfl
@[simp] theorem State.store_mem (s : State) (a : Long) (w : Width) (v : BitVec w.bits) : (s.store a w v).mem = s.mem.write a w v := rfl
@[simp] theorem State.store_inputs (s : State) (a : Long) (w : Width) (v : BitVec w.bits) : (s.store a w v).inputs = s.inputs := rfl
@[simp] theorem State.store_draws (s : State) (a : Long) (w : Width) (v : BitVec w.bits) : (s.store a w v).draws = s.draws := rfl

/-! ## `setReg`: everything but the registers -/

@[simp] theorem State.setReg_flags (s : State) (r : Reg) (v : Long) : (s.setReg r v).flags = s.flags := by
  rcases r with _ | _ | _ | _ | _ | _ | _ <;> rfl
@[simp] theorem State.setReg_nmiPending (s : State) (r : Reg) (v : Long) : (s.setReg r v).nmiPending = s.nmiPending := by
  rcases r with _ | _ | _ | _ | _ | _ | _ <;> rfl
@[simp] theorem State.setReg_waiting (s : State) (r : Reg) (v : Long) : (s.setReg r v).waiting = s.waiting := by
  rcases r with _ | _ | _ | _ | _ | _ | _ <;> rfl
@[simp] theorem State.setReg_mem (s : State) (r : Reg) (v : Long) : (s.setReg r v).mem = s.mem := by
  rcases r with _ | _ | _ | _ | _ | _ | _ <;> rfl
@[simp] theorem State.setReg_inputs (s : State) (r : Reg) (v : Long) : (s.setReg r v).inputs = s.inputs := by
  rcases r with _ | _ | _ | _ | _ | _ | _ <;> rfl
@[simp] theorem State.setReg_draws (s : State) (r : Reg) (v : Long) : (s.setReg r v).draws = s.draws := by
  rcases r with _ | _ | _ | _ | _ | _ | _ <;> rfl

/-! ## Registers -/

/-- A register reads as what was last written to it. -/
@[simp] theorem State.reg_setReg_same (s : State) (r : Reg) (v : Long) : (s.setReg r v).reg r = v := by
  rcases r with i | i | i | _ | _ | _ | _ <;> simp [State.setReg, State.reg]

/-- Writing one register leaves every other. -/
theorem State.reg_setReg_of_ne (s : State) {q r : Reg} (v : Long) (h : q ≠ r) : (s.setReg r v).reg q = s.reg q := by
  rcases r with i | i | i | _ | _ | _ | _ <;> rcases q with j | j | j | _ | _ | _ | _ <;>
    first
      | rfl
      | exact absurd rfl h
      | exact Vector.getElem_set_ne i.isLt j.isLt (fun e => h (by rw [Fin.ext e]))

/-- Reading any register after writing one. -/
theorem State.reg_setReg (s : State) (r q : Reg) (v : Long) :
    (s.setReg r v).reg q = if q = r then v else s.reg q := by
  split
  · rename_i h
    rw [h, State.reg_setReg_same]
  · exact State.reg_setReg_of_ne s v ‹_›

@[simp] theorem State.reg_setFlags (s : State) (f : Flags) (r : Reg) : (s.setFlags f).reg r = s.reg r := by
  rcases r with _ | _ | _ | _ | _ | _ | _ <;> rfl

@[simp] theorem State.reg_store (s : State) (a : Long) (w : Width) (v : BitVec w.bits) (r : Reg) :
    (s.store a w v).reg r = s.reg r := by
  rcases r with _ | _ | _ | _ | _ | _ | _ <;> rfl

/-- A jump changes PC and no other register. -/
theorem State.reg_jump (s : State) (t : Long) (r : Reg) :
    (s.jump t).reg r = if r = .g3 .pc then t else s.reg r := by
  rcases r with _ | _ | _ | _ | _ | _ | _ <;> rfl

@[simp] theorem State.reg_pc (s : State) : s.reg (.g3 .pc) = s.pc := rfl

@[simp] theorem State.reg_sp (s : State) : s.reg (.g3 .sp) = s.sp := rfl

/-- PC after a register write: the value written if the register is PC. -/
theorem State.setReg_pc (s : State) (r : Reg) (v : Long) :
    (s.setReg r v).pc = if r = .g3 .pc then v else s.pc := by
  rcases r with _ | _ | _ | _ | _ | _ | _ <;> rfl

/-- Two states with equal registers and equal other fields are equal. -/
theorem State.ext_reg {s t : State} (hr : ∀ r, s.reg r = t.reg r) (hf : s.flags = t.flags)
    (hn : s.nmiPending = t.nmiPending) (hw : s.waiting = t.waiting) (hm : s.mem = t.mem)
    (hi : s.inputs = t.inputs) (hd : s.draws = t.draws) : s = t := by
  have ha : s.a = t.a := Vector.ext fun i h => hr (.a ⟨i, h⟩)
  have hx : s.x = t.x := Vector.ext fun i h => hr (.x ⟨i, h⟩)
  have hy : s.y = t.y := Vector.ext fun i h => hr (.y ⟨i, h⟩)
  have h1 := hr (.g3 .pc)
  have h2 := hr (.g3 .z0)
  have h3 := hr (.g3 .z1)
  have h4 := hr (.g3 .sp)
  cases s
  cases t
  simp only [State.reg] at ha hx hy hf hn hw hm hi hd h1 h2 h3 h4
  simp only [ha, hx, hy, hf, hn, hw, hm, hi, hd, h1, h2, h3, h4]

end Sys2Proof.Machine
end

