-- ==== Sys2Proof/Laws/Ops.lean ====
section
/-! SUPPORT. One law for each shared operation of Sys2Proof/Machine/Ops.lean, Operands.lean and Flags.lean: all it can do,
in the words of Sys2Proof/Safety.lean. -/

namespace Sys2Proof.Machine

/-! ## Registers while an instruction runs -/

/-- Past the instruction's words a register reads as the instruction sees it. -/
@[simp] theorem State.reg_advance (s : State) (n : Nat) (r : Reg) : (s.advance n).reg r = s.seen n r := by
  rw [State.advance, State.reg_jump, State.seen]

theorem State.seen_of_ne (s : State) (n : Nat) {r : Reg} (h : r ≠ .g3 .pc) : s.seen n r = s.reg r := if_neg h

@[simp] theorem State.seen_pc (s : State) (n : Nat) : s.seen n (.g3 .pc) = s.pc + BitVec.ofNat 32 n := rfl

@[simp] theorem State.seen_a (s : State) (n : Nat) (i : Fin 4) : s.seen n (.a i) = s.reg (.a i) := rfl

@[simp] theorem State.seen_x (s : State) (n : Nat) (i : Fin 4) : s.seen n (.x i) = s.reg (.x i) := rfl

@[simp] theorem State.seen_y (s : State) (n : Nat) (i : Fin 4) : s.seen n (.y i) = s.reg (.y i) := rfl

@[simp] theorem State.seen_sp (s : State) (n : Nat) : s.seen n (.g3 .sp) = s.sp := rfl

/-- What an instruction reads from a register (10_state.md R24). -/
theorem State.read_advance (s : State) (n : Nat) (r : Reg) (w : Width) :
    (s.advance n).read r w = (s.seen n r).setWidth w.bits := by
  rw [State.read, State.reg_advance]

/-- Replacing the low bits of a register (10_state.md R25). -/
theorem holdsLow_replaceLow (w : Width) (old : Long) (v : BitVec w.bits) : HoldsLow w old (replaceLow w old v) v := by
  cases w
  · have h1 := old.isLt
    have h2 := BitVec.isLt v
    simp only [HoldsLow, replaceLow, Width.bits, BitVec.toNat_append, BitVec.extractLsb'_toNat, Nat.shiftRight_eq_div_pow]
    rw [Nat.shiftLeft_eq, ← Nat.mul_comm (2 ^ 8), ← Nat.two_pow_add_eq_or_of_lt (i := 8) (show v.toNat < 2 ^ 8 from h2)]
    omega
  · have h1 := old.isLt
    simp only [HoldsLow, replaceLow, Width.bits]
    omega

/-- Every register after `RegWrite`. -/
theorem State.reg_write (s : State) (r : Reg) (w : Width) (v : BitVec w.bits) (q : Reg) :
    (s.write r w v).reg q = if q = r then replaceLow w (s.reg r) v else s.reg q :=
  State.reg_setReg s r q _

@[simp] theorem State.reg_write_same (s : State) (r : Reg) (w : Width) (v : BitVec w.bits) :
    (s.write r w v).reg r = replaceLow w (s.reg r) v :=
  State.reg_setReg_same s r _

theorem State.reg_write_of_ne (s : State) {q r : Reg} (w : Width) (v : BitVec w.bits) (h : q ≠ r) :
    (s.write r w v).reg q = s.reg q :=
  State.reg_setReg_of_ne s _ h

@[simp] theorem State.write_flags (s : State) (r : Reg) (w : Width) (v : BitVec w.bits) :
    (s.write r w v).flags = s.flags := State.setReg_flags s r _
@[simp] theorem State.write_mem (s : State) (r : Reg) (w : Width) (v : BitVec w.bits) :
    (s.write r w v).mem = s.mem := State.setReg_mem s r _
@[simp] theorem State.write_nmiPending (s : State) (r : Reg) (w : Width) (v : BitVec w.bits) :
    (s.write r w v).nmiPending = s.nmiPending := State.setReg_nmiPending s r _
@[simp] theorem State.write_waiting (s : State) (r : Reg) (w : Width) (v : BitVec w.bits) :
    (s.write r w v).waiting = s.waiting := State.setReg_waiting s r _
@[simp] theorem State.write_inputs (s : State) (r : Reg) (w : Width) (v : BitVec w.bits) :
    (s.write r w v).inputs = s.inputs := State.setReg_inputs s r _
@[simp] theorem State.write_draws (s : State) (r : Reg) (w : Width) (v : BitVec w.bits) :
    (s.write r w v).draws = s.draws := State.setReg_draws s r _

/-! ## Memory -/

/-- The memory of the reset state is in canonical form. -/
theorem State.reset_mem_wf : State.reset.mem.wf = true := rfl

/-- A store keeps the canonical form of memory. -/
theorem State.inv_store {s : State} (h : s.Inv) (a : Long) (w : Width) (v : BitVec w.bits) : (s.store a w v).Inv :=
  Memory.wf_write h a w v

/-- The invariant is about memory alone. -/
theorem State.inv_of_mem {s t : State} (h : s.Inv) (e : t.mem = s.mem) : t.Inv := by
  rw [State.Inv, e]
  exact h

/-- A store changes no cell but those of its datum. -/
theorem State.readByte_store_of_notMem {s : State} (h : s.Inv) (a : Long) (w : Width) (v : BitVec w.bits) {k : Nat}
    (hk : k ∉ cellsOf a w) : (s.store a w v).mem.readByte k = s.mem.readByte k := by
  rw [State.store_mem]
  cases w
  · rw [Memory.readByte_write_byte h, if_neg (by simpa [cellsOf] using hk)]
  · simp only [cellsOf, List.mem_cons, List.not_mem_nil, or_false, not_or] at hk
    rw [Memory.readByte_write_long h, if_neg hk.2.2.2, if_neg hk.2.2.1, if_neg hk.2.1, if_neg hk.1]

/-- Loading one word sees only its own two cells. -/
theorem Memory.readWord_congr {m m' : Memory} {a : Long} (hl : m.readByte (lowCell a) = m'.readByte (lowCell a))
    (hh : m.readByte (highCell a) = m'.readByte (highCell a)) : m.readWord a = m'.readWord a := by
  rw [Memory.readWord, Memory.readWord, hl, hh]

/-- Loading a datum sees only its own cells. -/
theorem Memory.read_congr {m m' : Memory} {a : Long} {w : Width}
    (h : ∀ k ∈ cellsOf a w, m.readByte k = m'.readByte k) : m.read a w = m'.read a w := by
  cases w
  · exact h _ (by simp [cellsOf])
  · rw [Memory.read, Memory.read,
      Memory.readWord_congr (h _ (by simp [cellsOf])) (h _ (by simp [cellsOf])),
      Memory.readWord_congr (h _ (by simp [cellsOf])) (h _ (by simp [cellsOf]))]

/-- A word is its two bytes. -/
theorem highByte_append_lowByte (w : Word) : highByte w ++ lowByte w = w := by
  apply BitVec.eq_of_getLsbD_eq
  intro i hi
  simp only [highByte, lowByte, BitVec.getLsbD_append, BitVec.getLsbD_extractLsb']
  split <;> rename_i h
  · simp [h]
  · have : i - 8 < 8 := by omega
    simp [this, show 8 + (i - 8) = i by omega]

/-- `join(split(v)) = v` (00_scope.md R9). -/
theorem join_split (v : Long) : join (splitLow v) (splitHigh v) = v := by
  apply BitVec.eq_of_getLsbD_eq
  intro i hi
  simp only [join, splitLow, splitHigh, highByte, lowByte, BitVec.getLsbD_append, BitVec.getLsbD_extractLsb']
  rcases Nat.lt_or_ge i 8 with h | h
  · simp [h]
  · rcases Nat.lt_or_ge i 16 with h2 | h2
    · simp [show ¬ i < 8 by omega, show i - 8 < 8 by omega, show 8 + (i - 8) = i by omega]
    · rcases Nat.lt_or_ge i 24 with h3 | h3
      · simp [show ¬ i < 8 by omega, show ¬ i - 8 < 8 by omega, show i - 8 - 8 < 8 by omega,
          show 16 + (i - 8 - 8) = i by omega]
      · simp [show ¬ i < 8 by omega, show ¬ i - 8 < 8 by omega, show ¬ i - 8 - 8 < 8 by omega,
          show i - 8 - 8 - 8 < 8 by omega, show 24 + (i - 8 - 8 - 8) = i by omega]

/-- Reading any word after writing one. -/
theorem Memory.readWord_writeWord {m : Memory} (h : m.wf) (a : Long) (w : Word) (b : Long) :
    (m.writeWord a w).readWord b = if b = a then w else m.readWord b := by
  rw [Memory.readWord, Memory.readByte_writeWord h, Memory.readByte_writeWord h]
  by_cases hb : b = a
  · simp [hb, highByte_append_lowByte]
  · simp [hb, Memory.readWord]

/-- The first word a longword write leaves (20_memory.md R56). -/
theorem Memory.readWord_write_low {m : Memory} (h : m.wf) (a : Long) (v : Long) :
    (m.write a .long v).readWord a = splitLow v := by
  rw [Memory.readWord, Memory.readByte_write_long h, Memory.readByte_write_long h]
  simp [highByte_append_lowByte]

/-- The second word a longword write leaves (20_memory.md R56). -/
theorem Memory.readWord_write_high {m : Memory} (h : m.wf) (a : Long) (v : Long) :
    (m.write a .long v).readWord (a + 1) = splitHigh v := by
  rw [Memory.readWord, Memory.readByte_write_long h, Memory.readByte_write_long h]
  simp [highByte_append_lowByte]

/-- A datum stored reads back. -/
@[simp] theorem State.load_store {s : State} (h : s.Inv) (a : Long) (w : Width) (v : BitVec w.bits) :
    (s.store a w v).load a w = v := by
  cases w
  · rw [State.load, State.store_mem, Memory.read, Memory.readByte_write_byte h, if_pos rfl]
  · rw [State.load, State.store_mem, Memory.read, Memory.readWord_write_low h, Memory.readWord_write_high h, join_split]

/-! ## Frames -/

/-- Nothing but PC changes when an instruction has only been passed. -/
theorem Frame.of_advance (s : State) (n : Nat) : Frame s (s.advance n) n [] [] where
  registers r _ := State.reg_advance s n r
  memory _ _ := rfl
  nmiPending := rfl
  waiting := rfl
  inputs := rfl
  draws := rfl

/-- A frame holds with more registers and more cells. -/
theorem Frame.mono {s t : State} {n : Nat} {regs regs' : List Reg} {cells cells' : List Nat}
    (h : Frame s t n regs cells) (hr : regs ⊆ regs') (hc : cells ⊆ cells') : Frame s t n regs' cells' where
  registers r h' := h.registers r fun m => h' (hr m)
  memory k h' := h.memory k fun m => h' (hc m)
  nmiPending := h.nmiPending
  waiting := h.waiting
  inputs := h.inputs
  draws := h.draws

/-- Flags are outside every frame. -/
theorem Frame.setFlags {s t : State} {n : Nat} {regs : List Reg} {cells : List Nat} (h : Frame s t n regs cells)
    (f : Flags) : Frame s (t.setFlags f) n regs cells where
  registers r hr := (State.reg_setFlags t f r).trans (h.registers r hr)
  memory := h.memory
  nmiPending := h.nmiPending
  waiting := h.waiting
  inputs := h.inputs
  draws := h.draws

/-- A register write adds its register to a frame. -/
theorem Frame.setReg {s t : State} {n : Nat} {regs : List Reg} {cells : List Nat} (h : Frame s t n regs cells)
    (r : Reg) (v : Long) : Frame s (t.setReg r v) n (r :: regs) cells where
  registers q hq := by
    rw [List.mem_cons, not_or] at hq
    rw [State.reg_setReg_of_ne t v hq.1]
    exact h.registers q hq.2
  memory k hk := by rw [State.setReg_mem, h.memory k hk]
  nmiPending := by rw [State.setReg_nmiPending, h.nmiPending]
  waiting := by rw [State.setReg_waiting, h.waiting]
  inputs := by rw [State.setReg_inputs, h.inputs]
  draws := by rw [State.setReg_draws, h.draws]

/-- As `Frame.setReg`, at an operation width. -/
theorem Frame.write {s t : State} {n : Nat} {regs : List Reg} {cells : List Nat} (h : Frame s t n regs cells)
    (r : Reg) (w : Width) (v : BitVec w.bits) : Frame s (t.write r w v) n (r :: regs) cells :=
  h.setReg r _

/-- A jump adds PC to a frame. -/
theorem Frame.jump {s t : State} {n : Nat} {regs : List Reg} {cells : List Nat} (h : Frame s t n regs cells)
    (a : Long) : Frame s (t.jump a) n (.g3 .pc :: regs) cells :=
  h.setReg (.g3 .pc) a

/-- A store adds the cells of its datum to a frame. -/
theorem Frame.store {s t : State} {n : Nat} {regs : List Reg} {cells : List Nat} (h : Frame s t n regs cells)
    (hi : t.Inv) (a : Long) (w : Width) (v : BitVec w.bits) : Frame s (t.store a w v) n regs (cellsOf a w ++ cells) where
  registers r hr := (State.reg_store t a w v r).trans (h.registers r hr)
  memory k hk := by
    rw [List.mem_append, not_or] at hk
    rw [State.readByte_store_of_notMem hi a w v hk.1, h.memory k hk.2]
  nmiPending := h.nmiPending
  waiting := h.waiting
  inputs := h.inputs
  draws := h.draws

/-! ## Flags -/

theorem msb_eq_topBit {n : Nat} (v : BitVec n) : v.msb = topBit v := by
  rw [BitVec.msb_eq_decide, topBit]

theorem beq_zero_eq_isZero {n : Nat} (v : BitVec n) : (v == 0) = isZero v := by
  rw [isZero, Bool.eq_iff_iff, beq_iff_eq, decide_eq_true_eq, ← BitVec.toNat_inj]
  simp

/-- `setNZ` (10_state.md R29). -/
theorem setsNZ_setNZ {n : Nat} (f : Flags) (v : BitVec n) : SetsNZ f (f.setNZ v) v := by
  rw [SetsNZ, Flags.setNZ, msb_eq_topBit, beq_zero_eq_isZero]

end Sys2Proof.Machine
end

