-- ==== Sys2Proof/Laws/Arithmetic.lean ====
section
/-! SUPPORT. The adder, the subtractor and the shifts in plain arithmetic (40_group0_accumulator.md R131, R140,
41_group1_shifts.md R161 to R167). -/

namespace Sys2Proof.Machine

open Config (ArithResult)

/-- The top bit of a bit pattern as a fact about its signed value. -/
theorem msb_iff_toInt_neg {n : Nat} (v : BitVec n) : v.msb = true ↔ v.toInt < 0 := by
  rw [BitVec.msb_eq_toInt]
  simp

/-- Signed overflow of a sum, by the signs of the addends and of the truncated sum. -/
theorem signedOverflow_iff {n : Nat} (hn : 0 < n) (a m r : BitVec n) (c : Bool)
    (hr : r.toNat = (a.toNat + m.toNat + c.toNat) % 2 ^ n) :
    ((a ^^^ r) &&& (m ^^^ r)).msb = true ↔ SignedOverflow n (a.toInt + m.toInt + c.toNat) := by
  obtain ⟨k, rfl⟩ : ∃ k, n = k + 1 := ⟨n - 1, by omega⟩
  have ha := a.isLt
  have hm := m.isLt
  have hrl := r.isLt
  have hc : c.toNat ≤ 1 := Bool.toNat_le c
  rw [BitVec.msb_and, BitVec.msb_xor, BitVec.msb_xor]
  simp only [SignedOverflow, BitVec.toInt_eq_msb_cond, BitVec.msb_eq_decide, Nat.add_sub_cancel, decide_eq_true_eq]
  have hp : (2 : Nat) ^ (k + 1) = 2 ^ k + 2 ^ k := by ring
  have hp' : ((2 : Int) ^ k) = ((2 ^ k : Nat) : Int) := by norm_cast
  rw [hp] at ha hm hrl
  rw [hp] at hr
  rw [hp']
  generalize 2 ^ k = p at *
  generalize a.toNat = x at *
  generalize m.toNat = y at *
  generalize r.toNat = z at *
  generalize c.toNat = q at *
  have : x + y + q < p + p ∧ z = x + y + q ∨ p + p ≤ x + y + q ∧ z = x + y + q - (p + p) := by
    rcases Nat.lt_or_ge (x + y + q) (p + p) with h | h
    · exact .inl ⟨h, by rw [hr, Nat.mod_eq_of_lt h]⟩
    · refine .inr ⟨h, ?_⟩
      rw [hr, Nat.mod_eq_sub_mod h, Nat.mod_eq_of_lt (by omega)]
  by_cases h1 : p ≤ x <;> by_cases h2 : p ≤ y <;> by_cases h3 : p ≤ z <;> simp [h1, h2, h3] <;> omega

/-- What `AddCore` computes (R131). -/
theorem adds_addCore {n : Nat} (hn : 0 < n) (f : Flags) (a m : BitVec n) (c : Bool) :
    Adds f (f.setArith (addCore a m c)) a m (addCore a m c).result c := by
  have hr : (addCore a m c).result.toNat = (a.toNat + m.toNat + c.toNat) % 2 ^ n := BitVec.toNat_ofNat _ _
  exact ⟨hr, msb_eq_topBit _, beq_zero_eq_isZero _, rfl, rfl, by simp [Flags.setArith, addCore],
    signedOverflow_iff hn a m _ c hr⟩

/-- The signed value of a complement. -/
theorem toInt_not {n : Nat} (hn : 0 < n) (m : BitVec n) : (~~~m).toInt = -m.toInt - 1 := by
  have hm := m.isLt
  obtain ⟨k, rfl⟩ : ∃ k, n = k + 1 := ⟨n - 1, by omega⟩
  have hp : (2 : Nat) ^ (k + 1) = 2 ^ k + 2 ^ k := by ring
  simp only [BitVec.toInt_eq_msb_cond, BitVec.msb_eq_decide, BitVec.toNat_not, Nat.add_sub_cancel, decide_eq_true_eq]
  rw [hp] at hm ⊢
  generalize (2 : Nat) ^ k = p at *
  split_ifs <;> omega

/-- What a subtraction through the adder computes (R131, R140). -/
theorem subtracts_subCore {n : Nat} (hn : 0 < n) (f : Flags) (a m : BitVec n) (c : Bool) :
    Subtracts f (f.setArith (subCore a m c)) a m (subCore a m c).result c := by
  obtain ⟨hr, h1, h2, h3, h4, h5, h6⟩ := adds_addCore hn f a (~~~m) c
  have hm := m.isLt
  have hc : c.toNat ≤ 1 := Bool.toNat_le c
  have hnot : (~~~m).toNat = 2 ^ n - 1 - m.toNat := BitVec.toNat_not
  refine ⟨?_, h1, h2, h3, h4, ?_, ?_⟩
  · have hcast : ((2 ^ n - 1 - m.toNat : Nat) : Int) = 2 ^ n - 1 - m.toNat := by
      push_cast [show m.toNat ≤ 2 ^ n - 1 by omega, Nat.one_le_two_pow]
      ring
    rw [subCore, hr, hnot]
    push_cast
    rw [hcast, ← Int.sub_emod_right]
    congr 1
    ring
  · rw [hnot] at h5
    exact h5.trans (by omega)
  · rw [toInt_not hn, show a.toInt + (-m.toInt - 1) + (c.toNat : Int) = a.toInt - m.toInt - (1 - c.toNat) by ring] at h6
    exact h6

/-- A subtraction without borrow is the difference (40_group0_accumulator.md R139). -/
theorem subCore_result {n : Nat} (a m : BitVec n) : (subCore a m true).result = a - m := by
  have hm := m.isLt
  apply BitVec.eq_of_toNat_eq
  rw [subCore, addCore, BitVec.toNat_sub, BitVec.toNat_ofNat, BitVec.toNat_not]
  congr 1
  simp only [Bool.toNat_true]
  omega

/-- Z of a subtraction without borrow says that the two are equal (R139). -/
theorem subCore_zero {n : Nat} (a m : BitVec n) : (subCore a m true).zero = true ↔ a = m := by
  rw [show (subCore a m true).zero = ((subCore a m true).result == 0) from rfl, subCore_result, beq_iff_eq]
  constructor
  · intro h
    have := BitVec.sub_add_cancel a m
    rw [h] at this
    simpa using this.symm
  · rintro rfl
    simp

end Sys2Proof.Machine
end

