-- ==== Sys2Proof/Laws/Stack.lean ====
section
/-! SUPPORT. The stack operations, the trap entry, the return from a trap and the reset event: every field after each. -/

namespace Sys2Proof.Machine

/-! ## Push and pull -/

/-- Every register after a push. -/
theorem State.reg_push (s : State) (sr : Reg) (w : Width) (v : BitVec w.bits) (q : Reg) :
    (s.push sr w v).reg q = if q = sr then s.reg sr - stackWords w else s.reg q := by
  rw [State.push, State.reg_setReg, State.reg_store]

@[simp] theorem State.push_mem (s : State) (sr : Reg) (w : Width) (v : BitVec w.bits) :
    (s.push sr w v).mem = s.mem.write (pushAddress (s.reg sr) w) w v := State.setReg_mem _ _ _
@[simp] theorem State.push_flags (s : State) (sr : Reg) (w : Width) (v : BitVec w.bits) :
    (s.push sr w v).flags = s.flags := State.setReg_flags _ _ _
@[simp] theorem State.push_nmiPending (s : State) (sr : Reg) (w : Width) (v : BitVec w.bits) :
    (s.push sr w v).nmiPending = s.nmiPending := State.setReg_nmiPending _ _ _
@[simp] theorem State.push_waiting (s : State) (sr : Reg) (w : Width) (v : BitVec w.bits) :
    (s.push sr w v).waiting = s.waiting := State.setReg_waiting _ _ _
@[simp] theorem State.push_inputs (s : State) (sr : Reg) (w : Width) (v : BitVec w.bits) :
    (s.push sr w v).inputs = s.inputs := State.setReg_inputs _ _ _
@[simp] theorem State.push_draws (s : State) (sr : Reg) (w : Width) (v : BitVec w.bits) :
    (s.push sr w v).draws = s.draws := State.setReg_draws _ _ _

@[simp] theorem State.reg_spReg (s : State) : s.reg spReg = s.sp := rfl

/-- A push through SP lowers SP. -/
@[simp] theorem State.push_sp (s : State) (w : Width) (v : BitVec w.bits) :
    (s.push spReg w v).sp = s.sp - stackWords w := rfl

/-- A push keeps the canonical form of memory. -/
theorem State.inv_push {s : State} (h : s.Inv) (sr : Reg) (w : Width) (v : BitVec w.bits) : (s.push sr w v).Inv := by
  rw [State.Inv, State.push_mem]
  exact Memory.wf_write h _ w v

/-- A push adds the stack register and the cells of its datum to a frame. -/
theorem Frame.push {s t : State} {n : Nat} {regs : List Reg} {cells : List Nat} (h : Frame s t n regs cells)
    (hi : t.Inv) (sr : Reg) (w : Width) (v : BitVec w.bits) :
    Frame s (t.push sr w v) n (sr :: regs) (cellsOf (pushAddress (t.reg sr) w) w ++ cells) :=
  (h.store hi _ w v).setReg sr _

/-- Every register after a pull. -/
theorem State.reg_pull (s : State) (sr : Reg) (w : Width) (q : Reg) :
    (s.pull sr w).reg q = if q = sr then s.reg sr + stackWords w else s.reg q :=
  State.reg_setReg s sr q _

@[simp] theorem State.pull_mem (s : State) (sr : Reg) (w : Width) : (s.pull sr w).mem = s.mem :=
  State.setReg_mem _ _ _
@[simp] theorem State.pull_flags (s : State) (sr : Reg) (w : Width) : (s.pull sr w).flags = s.flags :=
  State.setReg_flags _ _ _
@[simp] theorem State.pull_nmiPending (s : State) (sr : Reg) (w : Width) : (s.pull sr w).nmiPending = s.nmiPending :=
  State.setReg_nmiPending _ _ _
@[simp] theorem State.pull_waiting (s : State) (sr : Reg) (w : Width) : (s.pull sr w).waiting = s.waiting :=
  State.setReg_waiting _ _ _
@[simp] theorem State.pull_inputs (s : State) (sr : Reg) (w : Width) : (s.pull sr w).inputs = s.inputs :=
  State.setReg_inputs _ _ _
@[simp] theorem State.pull_draws (s : State) (sr : Reg) (w : Width) : (s.pull sr w).draws = s.draws :=
  State.setReg_draws _ _ _

/-- A pull adds the stack register to a frame. -/
theorem Frame.pull {s t : State} {n : Nat} {regs : List Reg} {cells : List Nat} (h : Frame s t n regs cells)
    (sr : Reg) (w : Width) : Frame s (t.pull sr w) n (sr :: regs) cells :=
  h.setReg sr _

/-- The stack register is PC, or the instruction goes on. -/
theorem onStack_of_ne {sr : Reg} (h : sr ≠ .g3 .pc) (t : State) : onStack sr t = .next t := if_neg h

/-- An instruction through a stack register answers a next state only with its own effect and not through PC. -/
theorem onStack_eq_next {sr : Reg} {t u : State} (h : onStack sr t = .next u) : sr ≠ .g3 .pc ∧ t = u := by
  rw [onStack] at h
  split at h
  · cases h
  · exact ⟨‹_›, by cases h; rfl⟩

/-! ## Trap entry and return -/

/-- A byte write leaves every other word. -/
theorem Memory.readWord_write_byte_of_ne {m : Memory} (h : m.wf) {a b : Long} (hab : b ≠ a) (v : Byte) :
    (m.write a .byte v).readWord b = m.readWord b := by
  apply Memory.readWord_congr
  · rw [Memory.readByte_write_byte h, if_neg (by simpa using hab)]
  · rw [Memory.readByte_write_byte h, if_neg (by simp)]

theorem State.enterTrap_mem (s : State) (ret : Long) (b : Bool) (vec : Long) :
    (s.enterTrap ret b vec).mem =
      (s.mem.write (s.sp - 1) .long ret).write (s.sp - 2) .byte (s.flags.status b) := by
  simp only [State.enterTrap, State.jump_mem, State.setFlags_mem, State.push_mem, State.push_flags, State.reg_spReg,
    State.push_sp, pushAddress, stackWords]

/-- The trap entry (60_exceptions.md R344), every field of the state after it. -/
theorem State.enterTrap_entered {s : State} (h : s.Inv) (ret : Long) (b : Bool) (vec : Long) :
    TrapEntered s (s.enterTrap ret b vec) ret b vec := by
  have hw : (s.mem.write (s.sp - 1) .long ret).wf := Memory.wf_write h _ _ _
  have hm := State.enterTrap_mem s ret b vec
  have e : s.sp = s.sp - 1 + 1 := by bv_omega
  have n1 : s.sp - 1 ≠ s.sp - 2 := by bv_omega
  have n2 : s.sp ≠ s.sp - 2 := by bv_omega
  constructor
  · rw [hm, Memory.readWord_write_byte_of_ne hw n1, Memory.readWord_write_low h]
  · rw [hm, Memory.readWord_write_byte_of_ne hw n2]
    conv_lhs => rw [e]
    rw [show s.sp - 1 + 1 - 1 = s.sp - 1 by rw [← e], Memory.readWord_write_high h]
  · rw [hm, Memory.readByte_write_byte hw, if_pos rfl]
  · intro k hk
    simp only [cellsOf, List.mem_append, List.mem_cons, List.not_mem_nil, or_false, not_or] at hk
    rw [hm, Memory.readByte_write_byte hw, if_neg hk.2, Memory.readByte_write_long h, if_neg hk.1.2.2.2,
      if_neg hk.1.2.2.1, if_neg hk.1.2.1, if_neg hk.1.1]
  · simp only [State.enterTrap, State.jump_sp, State.setFlags_sp, State.push_sp, stackWords]
    bv_omega
  · rfl
  · simp only [State.enterTrap, State.jump_flags, State.setFlags_flags, State.push_flags]
  · intro r h1 h2
    simp only [State.enterTrap, State.reg_jump, if_neg h2, State.reg_setFlags, State.reg_push, spReg, if_neg h1]
  · simp only [State.enterTrap, State.jump_draws, State.setFlags_draws, State.push_draws]

theorem State.enterTrap_nmiPending (s : State) (ret : Long) (b : Bool) (vec : Long) :
    (s.enterTrap ret b vec).nmiPending = s.nmiPending := by
  simp only [State.enterTrap, State.jump_nmiPending, State.setFlags_nmiPending, State.push_nmiPending]

theorem State.enterTrap_waiting (s : State) (ret : Long) (b : Bool) (vec : Long) :
    (s.enterTrap ret b vec).waiting = s.waiting := by
  simp only [State.enterTrap, State.jump_waiting, State.setFlags_waiting, State.push_waiting]

theorem State.enterTrap_inputs (s : State) (ret : Long) (b : Bool) (vec : Long) :
    (s.enterTrap ret b vec).inputs = s.inputs := by
  simp only [State.enterTrap, State.jump_inputs, State.setFlags_inputs, State.push_inputs]

theorem State.enterTrap_draws (s : State) (ret : Long) (b : Bool) (vec : Long) :
    (s.enterTrap ret b vec).draws = s.draws := by
  simp only [State.enterTrap, State.jump_draws, State.setFlags_draws, State.push_draws]

theorem State.enterTrap_flags (s : State) (ret : Long) (b : Bool) (vec : Long) :
    (s.enterTrap ret b vec).flags = { s.flags with i := true } := by
  simp only [State.enterTrap, State.jump_flags, State.setFlags_flags, State.push_flags]

/-- A trap entry keeps the canonical form of memory. -/
theorem State.inv_enterTrap {s : State} (h : s.Inv) (ret : Long) (b : Bool) (vec : Long) :
    (s.enterTrap ret b vec).Inv := by
  rw [State.Inv, State.enterTrap_mem]
  exact Memory.wf_write (Memory.wf_write h _ _ _) _ _ _

/-- The return from a trap (49_group9_10_returns_transfers.md R310): PC, the other registers. -/
theorem State.reg_leaveTrap (s : State) (sr : Reg) (q : Reg) :
    (s.leaveTrap sr).reg q =
      if q = .g3 .pc then s.load (s.reg sr + 1 + 1) .long else if q = sr then s.reg sr + 1 + 2 else s.reg q := by
  simp only [State.leaveTrap, State.reg_jump, State.reg_pull, State.reg_setFlags, State.pulled, State.load,
    State.setFlags_mem, State.pull_mem, stackWords, if_true]
  split_ifs <;> rfl

/-- The return from a trap takes all six flags from the pulled byte. -/
theorem State.leaveTrap_flags (s : State) (sr : Reg) :
    (s.leaveTrap sr).flags = Flags.ofStatus (s.load (s.reg sr + 1) .byte) := by
  simp only [State.leaveTrap, State.jump_flags, State.pull_flags, State.setFlags_flags, State.pulled]

/-- The return from a trap adds PC and the stack register to a frame. -/
theorem Frame.leaveTrap {s t : State} {n : Nat} {regs : List Reg} {cells : List Nat} (h : Frame s t n regs cells)
    (sr : Reg) : Frame s (t.leaveTrap sr) n (.g3 .pc :: sr :: regs) cells :=
  (((h.pull sr .byte).setFlags _).pull sr .long |>.jump _).mono (by intro x; simp) (fun _ => id)

/-! ## The reset event -/

/-- Whatever a reset leaves in memory, it is in canonical form. -/
theorem drawnMemory_wf (draw : Nat) (before : Memory) : (drawnMemory draw before).wf := Memory.wf_ofCells _

@[simp] theorem State.resetEvent_mem (s : State) : s.resetEvent.mem = drawnMemory s.draws s.mem := rfl
@[simp] theorem State.resetEvent_pc (s : State) : s.resetEvent.pc = s.resetEvent.load resetVector .long := rfl
@[simp] theorem State.resetEvent_flags_i (s : State) : s.resetEvent.flags.i = true := rfl
@[simp] theorem State.resetEvent_nmiPending (s : State) : s.resetEvent.nmiPending = false := rfl
@[simp] theorem State.resetEvent_waiting (s : State) : s.resetEvent.waiting = false := rfl
@[simp] theorem State.resetEvent_inputs (s : State) : s.resetEvent.inputs = s.inputs := rfl
@[simp] theorem State.resetEvent_draws (s : State) : s.resetEvent.draws = s.draws + 1 := rfl

end Sys2Proof.Machine
end

