-- ==== Sys2Proof/Laws/Instructions.lean ====
section
/-! SUPPORT. One law for each operation that a family of instructions shares: the registers, the flags, the memory and the
frame of the state it answers. -/

namespace Sys2Proof.Machine

open Config (ArithResult)

/-- Write a result and N Z at the end of an instruction of `n` words that did nothing else. -/
theorem State.writeNZ_advance_spec (s : State) (n : Nat) (r : Reg) (w : Width) (v : BitVec w.bits) :
    HoldsLow w (s.seen n r) (((s.advance n).writeNZ r w v).reg r) v ∧
      SetsNZ s.flags ((s.advance n).writeNZ r w v).flags v ∧ Frame s ((s.advance n).writeNZ r w v) n [r] [] := by
  refine ⟨?_, setsNZ_setNZ s.flags v, ((Frame.of_advance s n).write r w v).setFlags _⟩
  rw [State.writeNZ, State.reg_setFlags, State.reg_write_same, State.reg_advance]
  exact holdsLow_replaceLow w _ v

/-- `State.logic`: the register takes the combination; N Z; nothing else. -/
theorem State.logic_spec (s : State) (w : Width) (r : Reg) (o : Operand)
    (f : BitVec w.bits → BitVec w.bits → BitVec w.bits) :
    let v := f ((s.seen (o.len w) r).setWidth w.bits) ((s.advance (o.len w)).operand w o)
    HoldsLow w (s.seen (o.len w) r) ((s.logic w r o f).reg r) v ∧ SetsNZ s.flags (s.logic w r o f).flags v ∧
      Frame s (s.logic w r o f) (o.len w) [r] [] := by
  rw [← State.read_advance]
  exact State.writeNZ_advance_spec s (o.len w) r w _

/-- `State.loadReg`: the register takes the operand; N Z; nothing else. -/
theorem State.loadReg_spec (s : State) (w : Width) (r : Reg) (o : Operand) :
    let v := (s.advance (o.len w)).operand w o
    HoldsLow w (s.seen (o.len w) r) ((s.loadReg w r o).reg r) v ∧ SetsNZ s.flags (s.loadReg w r o).flags v ∧
      Frame s (s.loadReg w r o) (o.len w) [r] [] :=
  State.writeNZ_advance_spec s (o.len w) r w _

/-- `State.arith`: the register takes the result, N V Z C the result's; nothing else. -/
theorem State.arith_spec (s : State) (w : Width) (r : Reg) (o : Operand)
    (f : Flags → BitVec w.bits → BitVec w.bits → ArithResult w.bits) :
    let x := f s.flags ((s.seen (o.len w) r).setWidth w.bits) ((s.advance (o.len w)).operand w o)
    HoldsLow w (s.seen (o.len w) r) ((s.arith w r o f).reg r) x.result ∧ (s.arith w r o f).flags = s.flags.setArith x ∧
      Frame s (s.arith w r o f) (o.len w) [r] [] := by
  rw [← State.read_advance]
  refine ⟨?_, rfl, ((Frame.of_advance s (o.len w)).write r w _).setFlags _⟩
  rw [State.arith, State.writeArith, State.reg_setFlags, State.reg_write_same, State.reg_advance]
  exact holdsLow_replaceLow w _ _

/-- `State.storeReg`: the register's value stands at the effective address; nothing else. -/
theorem State.storeReg_spec {s : State} (h : s.Inv) (w : Width) (r : Reg) (m : MemMode) :
    let ea := (s.advance m.len).ea m
    (s.storeReg w r m).load ea w = (s.seen m.len r).setWidth w.bits ∧ (s.storeReg w r m).flags = s.flags ∧
      Frame s (s.storeReg w r m) m.len [] (cellsOf ea w) := by
  have hi : (s.advance m.len).Inv := h
  rw [← State.read_advance]
  exact ⟨State.load_store hi _ w _, rfl,
    ((Frame.of_advance s m.len).store hi _ w _).mono (fun _ => id) (by rw [List.append_nil]; exact fun _ => id)⟩

/-- `State.compare`: N Z C of the difference; nothing else. -/
theorem State.compare_spec (s : State) (w : Width) (r : Reg) (o : Operand) :
    (s.compare w r o).flags =
        s.flags.setCompare
          (subCore ((s.seen (o.len w) r).setWidth w.bits) ((s.advance (o.len w)).operand w o) true) ∧
      Frame s (s.compare w r o) (o.len w) [] [] := by
  rw [← State.read_advance]
  exact ⟨rfl, (Frame.of_advance s (o.len w)).setFlags _⟩

/-- Writing a read-modify-write operand back: the operand holds the value, and nothing else changes. -/
theorem State.writePlace_spec {s : State} (h : s.Inv) (w : Width) (p : Place) (v : BitVec w.bits) (f : Flags) :
    PlaceHolds s (((s.advance p.len).writePlace w p v).setFlags f) p.len w p v := by
  have hi : (s.advance p.len).Inv := h
  cases p with
  | acc r =>
    refine ⟨?_, ((Frame.of_advance s _).write r w v).setFlags f⟩
    rw [State.writePlace, State.reg_setFlags, State.reg_write_same, State.reg_advance]
    exact holdsLow_replaceLow w _ v
  | mem m =>
    exact ⟨State.load_store hi _ w v,
      (((Frame.of_advance s _).store hi _ w v).setFlags f).mono (fun _ => id)
        (by rw [List.append_nil]; exact fun _ => id)⟩

/-- The flags do not change when an operand is written back. -/
@[simp] theorem State.writePlace_flags (s : State) (w : Width) (p : Place) (v : BitVec w.bits) :
    (s.writePlace w p v).flags = s.flags := by
  cases p
  · exact State.write_flags s _ w v
  · rfl

/-- `State.shift`: the operand holds the result; N Z from it, C as the shift says. -/
theorem State.shift_spec {s : State} (h : s.Inv) (w : Width) (p : Place) (f : Shift w.bits) :
    let x := f ((s.advance p.len).placeValue w p) s.flags.c
    PlaceHolds s (s.shift w p f) p.len w p x.1 ∧
      (s.shift w p f).flags = { s.flags with n := topBit x.1, z := isZero x.1, c := x.2 } := by
  refine ⟨State.writePlace_spec h w p _ _, ?_⟩
  rw [State.shift, State.setFlags_flags, Flags.setNZC, Flags.setNZ, msb_eq_topBit, beq_zero_eq_isZero]
  rfl

/-- `State.modify`: the operand holds the result; N Z from it. -/
theorem State.modify_spec {s : State} (h : s.Inv) (w : Width) (p : Place) (f : BitVec w.bits → BitVec w.bits) :
    let x := f ((s.advance p.len).placeValue w p)
    PlaceHolds s (s.modify w p f) p.len w p x ∧ SetsNZ s.flags (s.modify w p f).flags x :=
  ⟨State.writePlace_spec h w p _ _, setsNZ_setNZ s.flags _⟩

/-- `State.branch`: PC is the target or the next instruction; nothing else. -/
theorem State.branch_eq (s : State) (w : Width) (d : Long) (c : Bool) :
    s.branch w d c = s.jump (s.pc + BitVec.ofNat 32 w.len + if c then d else 0) := by
  cases c
  · simp [State.branch, State.advance, State.jump]
  · rfl

/-- `State.stepReg`: the register takes the function of its value; N Z; nothing else. -/
theorem State.stepReg_spec (s : State) (w : Width) (r : Reg) (f : BitVec w.bits → BitVec w.bits) :
    let v := f ((s.seen 1 r).setWidth w.bits)
    HoldsLow w (s.seen 1 r) ((s.stepReg w r f).reg r) v ∧ SetsNZ s.flags (s.stepReg w r f).flags v ∧
      Frame s (s.stepReg w r f) 1 [r] [] := by
  rw [← State.read_advance]
  exact State.writeNZ_advance_spec s 1 r w _

/-- `State.transfer`: the destination takes the source's value; N Z; nothing else. -/
theorem State.transfer_spec (s : State) (w : Width) (src dst : Reg) :
    let v := (s.seen 1 src).setWidth w.bits
    HoldsLow w (s.seen 1 dst) ((s.transfer w src dst).reg dst) v ∧ SetsNZ s.flags (s.transfer w src dst).flags v ∧
      Frame s (s.transfer w src dst) 1 [dst] [] := by
  rw [← State.read_advance]
  exact State.writeNZ_advance_spec s 1 dst w _

/-- A push at the end of an instruction of `n` words: the datum stands at the push address and the stack register has
moved; nothing else. -/
theorem State.push_advance_spec {s : State} (h : s.Inv) (n : Nat) (sr : Reg) (w : Width) (v : BitVec w.bits) :
    let t := (s.advance n).push sr w v
    t.load (pushAddress (s.seen n sr) w) w = v ∧ t.reg sr = s.seen n sr - stackWords w ∧ t.flags = s.flags ∧
      Frame s t n [sr] (cellsOf (pushAddress (s.seen n sr) w) w) := by
  have hi : (s.advance n).Inv := h
  refine ⟨?_, ?_, State.push_flags _ _ _ _, ?_⟩
  · rw [← State.reg_advance, State.load, State.push_mem]
    exact State.load_store hi _ w v
  · rw [State.reg_push, if_pos rfl, State.reg_advance]
  · rw [← State.reg_advance]
    exact ((Frame.of_advance s n).push hi sr w v).mono (fun _ => id) (by rw [List.append_nil]; exact fun _ => id)

/-- `State.pullReg`: the datum above the stack register is written after the stack register has moved; N Z. -/
theorem State.pullReg_spec (s : State) (w : Width) (dst sr : Reg) :
    let v := s.load (s.seen 1 sr + 1) w
    let t := s.pullReg w dst sr
    t.reg dst = replaceLow w (if dst = sr then s.seen 1 sr + stackWords w else s.seen 1 dst) v ∧
      (sr ≠ dst → t.reg sr = s.seen 1 sr + stackWords w) ∧ SetsNZ s.flags t.flags v ∧ Frame s t 1 [dst, sr] [] := by
  have hv : (s.advance 1).pulled sr w = s.load (s.seen 1 sr + 1) w := by
    rw [State.pulled, State.reg_advance]
    rfl
  refine ⟨?_, fun hne => ?_, ?_, (((Frame.of_advance s 1).pull sr w).write dst w _).setFlags _⟩
  · rw [State.pullReg, State.writeNZ, State.reg_setFlags, State.reg_write_same, State.reg_pull, hv, State.reg_advance,
      State.reg_advance]
  · rw [State.pullReg, State.writeNZ, State.reg_setFlags, State.reg_write_of_ne _ _ _ hne, State.reg_pull, if_pos rfl,
      State.reg_advance]
  · rw [State.pullReg, State.writeNZ, State.setFlags_flags, State.pull_flags, hv]
    exact setsNZ_setNZ s.flags _

end Sys2Proof.Machine
end

