-- ==== Sys2Proof/Laws/PerInstr.lean ====
section
/-! SUPPORT. A law of every instruction: its encoding has as many words as its length says (30_encoding.md R92). -/

namespace Sys2Proof.Laws

open Sys2Proof.Encode

/-! ## The parts of an encoding -/

theorem modeWords_length (m : MemMode) : (modeWords m).length = m.operandWords := by
  cases m <;> rfl

theorem valueWords_length (w : Width) (v : Long) : (valueWords w v).length = w.operandWords := by
  cases w <;> rfl

/-- An instruction with a memory mode it has. -/
theorem memory_length (p : Bool) (w : Width) (r : Fin 4) {op : MemKind → Option Byte} {ks : List MemKind}
    (h : ∀ k ∈ ks, (op k).isSome = true) {m : MemMode} (hm : WellFormed.mode ks m = true) :
    (memory p w r op m).length = m.len := by
  obtain ⟨b, hb⟩ := Option.isSome_iff_exists.mp (h m.kind (List.contains_iff_mem.mp hm))
  rw [memory, hb, List.length_cons, modeWords_length, MemMode.len, Nat.add_comm]

/-- An instruction with a reading operand it has. -/
theorem operand_length (p : Bool) (w : Width) (r : Fin 4) (immOp : Byte) {accOp : Option Byte}
    {op : MemKind → Option Byte} {ks : List MemKind} {acc : Bool} (h : ∀ k ∈ ks, (op k).isSome = true)
    (ha : acc = true → accOp.isSome = true) {o : Operand} (ho : WellFormed.operand ks acc w o = true) :
    (operand p w r immOp accOp op o).length = o.len w := by
  cases o with
  | imm v => rw [operand, List.length_cons, valueWords_length, Operand.len, Width.len, Nat.add_comm]
  | acc s =>
    obtain ⟨b, rfl⟩ := Option.isSome_iff_exists.mp (ha ho)
    rfl
  | mem m => exact memory_length p w r h ho

theorem group0_isSome (base : Byte) : ∀ k ∈ WellFormed.group0, (group0 base k).isSome = true := by
  intro k hk
  cases k <;> first | rfl | exact absurd hk (by decide)

theorem group1_isSome (base : Byte) : ∀ k ∈ WellFormed.group1, (group1 base k).isSome = true := by
  intro k hk
  cases k <;> first | rfl | exact absurd hk (by decide)

/-- A reading instruction of group 0. -/
theorem adcGroup_length (p : Bool) (base off : Byte) {w : Width} (r : Fin 4) {o : Operand}
    (ho : WellFormed.operand WellFormed.group0 true w o = true) :
    (adcGroup p base off w r o).length = o.len w :=
  operand_length p w r _ (group0_isSome base) (fun _ => rfl) ho

/-- An instruction of group 1. -/
theorem aslGroup_length (p : Bool) (base off : Byte) (w : Width) (r : Fin 4) {q : Place}
    (hq : WellFormed.place q = true) : (aslGroup p base off w r q).length = q.len := by
  cases q with
  | acc s => rfl
  | mem m => exact memory_length p w r (group1_isSome base) hq

/-- A branch, and the immediate forms of the PHA group. -/
theorem value_length (c : Word) (w : Width) (v : Long) : (c :: valueWords w v).length = w.len := by
  rw [List.length_cons, valueWords_length, Width.len, Nat.add_comm]

namespace EncodedLength

/-- The encoding of a well-formed instruction has the instruction's length. -/
def Statement (i : Instr) : Prop := i.wf = true → (encode i).length = i.len

theorem ora (w : Width) (r : Fin 4) (o : Operand) : Statement (.ora w r o) :=
  fun h => adcGroup_length _ _ _ _ h

theorem and (w : Width) (r : Fin 4) (o : Operand) : Statement (.and w r o) :=
  fun h => adcGroup_length _ _ _ _ h

theorem eor (w : Width) (r : Fin 4) (o : Operand) : Statement (.eor w r o) :=
  fun h => adcGroup_length _ _ _ _ h

theorem adc (w : Width) (r : Fin 4) (o : Operand) : Statement (.adc w r o) :=
  fun h => adcGroup_length _ _ _ _ h

theorem sta (w : Width) (r : Fin 4) (m : MemMode) : Statement (.sta w r m) :=
  fun h => memory_length _ _ _ (group0_isSome _) h

theorem lda (w : Width) (r : Fin 4) (o : Operand) : Statement (.lda w r o) :=
  fun h => adcGroup_length _ _ _ _ h

theorem cmp (w : Width) (r : Fin 4) (o : Operand) : Statement (.cmp w r o) :=
  fun h => adcGroup_length _ _ _ _ h

theorem sbc (w : Width) (r : Fin 4) (o : Operand) : Statement (.sbc w r o) :=
  fun h => adcGroup_length _ _ _ _ h

theorem add (w : Width) (r : Fin 4) (o : Operand) : Statement (.add w r o) :=
  fun h => adcGroup_length _ _ _ _ h

theorem sub (w : Width) (r : Fin 4) (o : Operand) : Statement (.sub w r o) :=
  fun h => adcGroup_length _ _ _ _ h

theorem sts (w : Width) (g : G3) (m : MemMode) : Statement (.sts w g m) :=
  fun h => memory_length _ _ _ (group0_isSome _) h

theorem ads (w : Width) (g : G3) (o : Operand) : Statement (.ads w g o) :=
  fun h => adcGroup_length _ _ _ _ h

theorem sbs (w : Width) (g : G3) (o : Operand) : Statement (.sbs w g o) :=
  fun h => adcGroup_length _ _ _ _ h

theorem asl (w : Width) (p : Place) : Statement (.asl w p) :=
  fun h => aslGroup_length _ _ _ _ _ h

theorem lsr (w : Width) (p : Place) : Statement (.lsr w p) :=
  fun h => aslGroup_length _ _ _ _ _ h

theorem rol (w : Width) (p : Place) : Statement (.rol w p) :=
  fun h => aslGroup_length _ _ _ _ _ h

theorem ror (w : Width) (p : Place) : Statement (.ror w p) :=
  fun h => aslGroup_length _ _ _ _ _ h

theorem dec (w : Width) (p : Place) : Statement (.dec w p) :=
  fun h => aslGroup_length _ _ _ _ _ h

theorem inc (w : Width) (p : Place) : Statement (.inc w p) :=
  fun h => aslGroup_length _ _ _ _ _ h

theorem asr (w : Width) (p : Place) : Statement (.asr w p) :=
  fun h => aslGroup_length _ _ _ _ _ h

theorem exg (w : Width) (r : Fin 4) (p : Place) : Statement (.exg w r p) :=
  fun h => aslGroup_length _ _ _ _ _ h

theorem bpl (w : Width) (d : Long) : Statement (.bpl w d) :=
  fun _ => value_length _ _ _

theorem bmi (w : Width) (d : Long) : Statement (.bmi w d) :=
  fun _ => value_length _ _ _

theorem bvc (w : Width) (d : Long) : Statement (.bvc w d) :=
  fun _ => value_length _ _ _

theorem bvs (w : Width) (d : Long) : Statement (.bvs w d) :=
  fun _ => value_length _ _ _

theorem bcc (w : Width) (d : Long) : Statement (.bcc w d) :=
  fun _ => value_length _ _ _

theorem bcs (w : Width) (d : Long) : Statement (.bcs w d) :=
  fun _ => value_length _ _ _

theorem bne (w : Width) (d : Long) : Statement (.bne w d) :=
  fun _ => value_length _ _ _

theorem beq (w : Width) (d : Long) : Statement (.beq w d) :=
  fun _ => value_length _ _ _

theorem bge (w : Width) (d : Long) : Statement (.bge w d) :=
  fun _ => value_length _ _ _

theorem blt (w : Width) (d : Long) : Statement (.blt w d) :=
  fun _ => value_length _ _ _

theorem ble (w : Width) (d : Long) : Statement (.ble w d) :=
  fun _ => value_length _ _ _

theorem bgt (w : Width) (d : Long) : Statement (.bgt w d) :=
  fun _ => value_length _ _ _

theorem bls (w : Width) (d : Long) : Statement (.bls w d) :=
  fun _ => value_length _ _ _

theorem bhi (w : Width) (d : Long) : Statement (.bhi w d) :=
  fun _ => value_length _ _ _

theorem bnv (w : Width) (d : Long) : Statement (.bnv w d) :=
  fun _ => value_length _ _ _

theorem bra (w : Width) (d : Long) : Statement (.bra w d) :=
  fun _ => value_length _ _ _

theorem bit (w : Width) (r : Fin 4) (m : MemMode) : Statement (.bit w r m) :=
  fun h => memory_length _ _ _ (by decide) h

theorem jmp (m : MemMode) : Statement (.jmp m) :=
  fun h => memory_length _ _ _ (by decide) h

theorem jsr (m : MemMode) : Statement (.jsr m) :=
  fun h => memory_length _ _ _ (by decide) h

theorem brk (v : BitVec 7) : Statement (.brk v) :=
  fun _ => rfl

theorem clc : Statement .clc :=
  fun _ => rfl

theorem sec : Statement .sec :=
  fun _ => rfl

theorem cli : Statement .cli :=
  fun _ => rfl

theorem sei : Statement .sei :=
  fun _ => rfl

theorem clv : Statement .clv :=
  fun _ => rfl

theorem cld : Statement .cld :=
  fun _ => rfl

theorem sed : Statement .sed :=
  fun _ => rfl

theorem nop : Statement .nop :=
  fun _ => rfl

theorem sev : Statement .sev :=
  fun _ => rfl

theorem wai : Statement .wai :=
  fun _ => rfl

theorem ldx (w : Width) (r : Fin 4) (o : Operand) : Statement (.ldx w r o) :=
  fun h => operand_length (accOp := none) (op := Encode.ldx) _ w r _ (by decide) (by decide) h

theorem ldy (w : Width) (r : Fin 4) (o : Operand) : Statement (.ldy w r o) :=
  fun h => operand_length (accOp := none) (op := Encode.ldy) _ w r _ (by decide) (by decide) h

theorem stx (w : Width) (r : Fin 4) (m : MemMode) : Statement (.stx w r m) :=
  fun h => memory_length _ _ _ (by decide) h

theorem sty (w : Width) (r : Fin 4) (m : MemMode) : Statement (.sty w r m) :=
  fun h => memory_length _ _ _ (by decide) h

theorem cpx (w : Width) (r : Fin 4) (o : Operand) : Statement (.cpx w r o) :=
  fun h => operand_length (accOp := some 0xE2) (op := Encode.cpx) _ w r _ (by decide) (by decide) h

theorem cpy (w : Width) (r : Fin 4) (o : Operand) : Statement (.cpy w r o) :=
  fun h => operand_length (accOp := some 0xC2) (op := Encode.cpy) _ w r _ (by decide) (by decide) h

theorem adx (w : Width) (r : Fin 4) (o : Operand) : Statement (.adx w r o) :=
  fun h => operand_length (accOp := none) (op := Encode.ldx) _ w r _ (by decide) (by decide) h

theorem ady (w : Width) (r : Fin 4) (o : Operand) : Statement (.ady w r o) :=
  fun h => operand_length (accOp := none) (op := Encode.ldy) _ w r _ (by decide) (by decide) h

theorem sbx (w : Width) (r : Fin 4) (o : Operand) : Statement (.sbx w r o) :=
  fun h => operand_length (accOp := some 0xE2) (op := Encode.cpx) _ w r _ (by decide) (by decide) h

theorem dex (w : Width) (k : Nat) (t : IndexReg) : Statement (.dex w k t) :=
  fun _ => rfl

theorem dey (w : Width) (k : Nat) (t : IndexReg) : Statement (.dey w k t) :=
  fun _ => rfl

theorem inx (w : Width) (k : Nat) (t : IndexReg) : Statement (.inx w k t) :=
  fun _ => rfl

theorem iny (w : Width) (k : Nat) (t : IndexReg) : Statement (.iny w k t) :=
  fun _ => rfl

theorem ina (w : Width) (k : Nat) (t : IndexReg) : Statement (.ina w k t) :=
  fun _ => rfl

theorem des (w : Width) (k : Nat) (g : G3) : Statement (.des w k g) :=
  fun _ => rfl

theorem ins (w : Width) (k : Nat) (g : G3) : Statement (.ins w k g) :=
  fun _ => rfl

theorem pha (w : Width) (r : Fin 4) (sr : Reg) : Statement (.pha w r sr) :=
  fun _ => rfl

theorem php (sr : Reg) : Statement (.php sr) :=
  fun _ => rfl

theorem pla (w : Width) (r : Fin 4) (sr : Reg) : Statement (.pla w r sr) :=
  fun _ => rfl

theorem plp (sr : Reg) : Statement (.plp sr) :=
  fun _ => rfl

theorem psh (w : Width) (v : Long) (sr : Reg) : Statement (.psh w v sr) :=
  fun _ => value_length _ _ _

theorem phx (w : Width) (r : Fin 4) (sr : Reg) : Statement (.phx w r sr) :=
  fun _ => rfl

theorem phy (w : Width) (r : Fin 4) (sr : Reg) : Statement (.phy w r sr) :=
  fun _ => rfl

theorem plx (w : Width) (r : Fin 4) (sr : Reg) : Statement (.plx w r sr) :=
  fun _ => rfl

theorem ply (w : Width) (r : Fin 4) (sr : Reg) : Statement (.ply w r sr) :=
  fun _ => rfl

theorem pop (w : Width) (v : Long) (sr : Reg) : Statement (.pop w v sr) :=
  fun _ => value_length _ _ _

theorem rti (sr : Reg) : Statement (.rti sr) :=
  fun _ => rfl

theorem rts (sr : Reg) : Statement (.rts sr) :=
  fun _ => rfl

theorem tax (w : Width) (r : Fin 4) (s : Reg) : Statement (.tax w r s) :=
  fun _ => rfl

theorem tay (w : Width) (r : Fin 4) (s : Reg) : Statement (.tay w r s) :=
  fun _ => rfl

theorem txa (w : Width) (r : Fin 4) (s : Reg) : Statement (.txa w r s) :=
  fun _ => rfl

theorem tya (w : Width) (r : Fin 4) (s : Reg) : Statement (.tya w r s) :=
  fun _ => rfl

theorem tsx (w : Width) (r : Fin 4) (s : Reg) : Statement (.tsx w r s) :=
  fun _ => rfl

theorem txs (w : Width) (r : Fin 4) (s : Reg) : Statement (.txs w r s) :=
  fun _ => rfl

theorem txy (w : Width) (r : Fin 4) (s : Reg) : Statement (.txy w r s) :=
  fun _ => rfl

theorem tyx (w : Width) (r : Fin 4) (s : Reg) : Statement (.tyx w r s) :=
  fun _ => rfl

theorem tyy (w : Width) (r : Fin 4) (s : Reg) : Statement (.tyy w r s) :=
  fun _ => rfl

theorem txx (w : Width) (r : Fin 4) (s : Reg) : Statement (.txx w r s) :=
  fun _ => rfl

end EncodedLength

end Sys2Proof.Laws
end

