-- ==== Sys2Proof/Laws/Step.lean ====
section
/-! SUPPORT. What a step can do, once: the events of a boundary (60_exceptions.md R342), then the instruction. -/

namespace Sys2Proof.Machine

/-- A quiet boundary runs the instruction, in the state whose sample is used up. -/
theorem State.boundary_of_quiet {s : State} (h : s.Quiet) : s.boundary = .run { s with inputs := s.inputs.tail } := by
  obtain ⟨h1, h2, h3, h4, h5⟩ := h
  simp only [State.boundary, State.sampled, h1, h2, h3, h5, Bool.or_false, Bool.and_false]
  rcases h4 with h4 | h4 <;> simp [h4]

/-- The instruction runs only at a quiet boundary. -/
theorem State.quiet_of_boundary {s t : State} (h : s.boundary = .run t) :
    s.Quiet ∧ t = { s with inputs := s.inputs.tail } := by
  rw [State.boundary] at h
  split at h
  · cases h
  · split at h
    · cases h
    · split at h
      · cases h
      · split at h
        · cases h
        · split at h
          · cases h
          · rename_i h1 h2 h3 _ h5
            simp only [State.sampled, Bool.or_eq_true, not_or, Bool.not_eq_true, Bool.and_eq_true, Bool.not_eq_true',
              not_and] at h1 h2 h3 h5
            cases h
            refine ⟨⟨h1, h2.2, h2.1, ?_, h5⟩, by simp [State.sampled, h2]⟩
            cases hq : s.lines.irq
            · exact .inl rfl
            · exact .inr (by simpa using h3 hq)

/-- Fetching does not look at the inputs. -/
@[simp] theorem State.fetch_inputs (s : State) (l : List Lines) : State.fetch { s with inputs := l } = s.fetch := rfl

/-- Every step that answers a next state is a reset, an NMI entry, an IRQ entry, a wake, a step of waiting, or an
instruction at a quiet boundary. -/
theorem step_cases {s t : State} (h : step s = .next t) :
    (s.lines.reset = true ∧ t = s.sampled.resetEvent) ∨
    (s.lines.reset = false ∧ s.sampled.nmiPending = true ∧
      t = State.interrupt { s.sampled with nmiPending := false } nmiVector) ∨
    (s.lines.reset = false ∧ s.sampled.nmiPending = false ∧ s.lines.irq = true ∧ s.flags.i = false ∧
      t = s.sampled.interrupt irqVector) ∨
    (s.waiting = true ∧ t = { s.sampled with waiting := false }) ∨
    (s.waiting = true ∧ t = s.sampled) ∨
    (s.Quiet ∧ ∃ i, s.fetch = .ok i ∧ exec i { s with inputs := s.inputs.tail } = .next t) := by
  rw [step] at h
  split at h
  · rename_i u hb
    cases h
    rw [State.boundary] at hb
    split at hb
    · cases hb
      exact .inl ⟨‹_›, rfl⟩
    · rename_i h1
      have h1 : s.lines.reset = false := by simpa using h1
      split at hb
      · cases hb
        exact .inr (.inl ⟨h1, ‹_›, rfl⟩)
      · rename_i h2
        split at hb
        · rename_i h3
          rw [Bool.and_eq_true, Bool.not_eq_true'] at h3
          cases hb
          exact .inr (.inr (.inl ⟨h1, by simpa using h2, h3.1, h3.2, rfl⟩))
        · split at hb
          · rename_i h4
            rw [Bool.and_eq_true] at h4
            cases hb
            exact .inr (.inr (.inr (.inl ⟨h4.2, rfl⟩)))
          · split at hb
            · cases hb
              exact .inr (.inr (.inr (.inr (.inl ⟨‹_›, rfl⟩))))
            · cases hb
  · rename_i u hb
    obtain ⟨hq, rfl⟩ := State.quiet_of_boundary hb
    refine .inr (.inr (.inr (.inr (.inr ⟨hq, ?_⟩))))
    rw [runNext] at h
    split at h
    · exact ⟨_, ‹_›, h⟩
    · cases h

end Sys2Proof.Machine
end

