-- ==== Sys2Proof/Tests/Slice0.lean ====
section
/-! SUPPORT. Tests on fixed values: ill-formed terms refused, one decoded word and one or two steps for each instruction,
faults and boundaries, and for each statement with hypotheses a state that meets them. The expected values are the
spec's own: the vectors of spec/95_test_vectors.md and the Examples of the rules. -/

namespace Sys2Proof.Tests

open Sys2Proof.Machine

/-! ## Ill-formed terms are refused -/

theorem test_wf_group0_has_no_zpY : Instr.wf (.ora .byte 0 (.mem (.zpY 0 ⟨.g3 .z0, .byte⟩))) = false := by decide
theorem test_wf_byte_immediate : Instr.wf (.lda .byte 0 (.imm 256)) = false := by decide
theorem test_wf_sta_has_no_ind : Instr.wf (.sta .long 0 (.ind 0)) = false := by decide
theorem test_wf_group1_has_no_zpIndX : Instr.wf (.asl .long (.mem (.zpIndX 0 ⟨.g3 .z0, .byte⟩))) = false := by decide
theorem test_wf_byte_displacement : Instr.wf (.bne .byte 128) = false := by decide
theorem test_wf_bit_has_no_absX : Instr.wf (.bit .byte 0 (.absX 0 ⟨.g3 .z0, .byte⟩)) = false := by decide
theorem test_wf_jmp_has_no_zp : Instr.wf (.jmp (.zp 0)) = false := by decide
theorem test_wf_jsr_has_no_ind : Instr.wf (.jsr (.ind 0)) = false := by decide
theorem test_wf_ldx_has_no_zpX : Instr.wf (.ldx .long 0 (.mem (.zpX 0 ⟨.g3 .z0, .byte⟩))) = false := by decide
theorem test_wf_ldx_has_no_acc : Instr.wf (.ldx .long 0 (.acc (.a 0))) = false := by decide
theorem test_wf_stx_has_no_zpX : Instr.wf (.stx .long 0 (.zpX 0 ⟨.g3 .z0, .byte⟩)) = false := by decide
theorem test_wf_ldy_has_no_indX : Instr.wf (.ldy .long 0 (.mem (.indX 0 ⟨.g3 .z0, .byte⟩))) = false := by decide
theorem test_wf_sty_has_no_zpY : Instr.wf (.sty .long 0 (.zpY 0 ⟨.g3 .z0, .byte⟩)) = false := by decide
theorem test_wf_cpx_has_no_zpX : Instr.wf (.cpx .long 0 (.mem (.zpX 0 ⟨.g3 .z0, .byte⟩))) = false := by decide
theorem test_wf_count_is_not_0 : Instr.wf (.dex .byte 0 (.file 0)) = false := by decide
theorem test_wf_count_is_not_9 : Instr.wf (.ins .byte 9 .sp) = false := by decide
theorem test_wf_byte_push : Instr.wf (.psh .byte 256 (.g3 .sp)) = false := by decide
theorem test_wf_byte_pop : Instr.wf (.pop .byte 256 (.g3 .sp)) = false := by decide

/-! ## Every constructor's decoding, by a word of the spec -/

theorem test_decode_ora : decode 0x9602 0x0000 0x0000 = .ok (.ora .long 1 (.acc (.x 2))) := by decide
theorem test_decode_and : decode 0x8F29 0x00FF 0x00FF = .ok (.and .long 0 (.imm 0x0000FFFF)) := by decide
theorem test_decode_eor : decode 0x8C42 0x0000 0x0000 = .ok (.eor .long 0 (.acc (.a 0))) := by decide
theorem test_decode_adc : decode 0x8F69 0x0001 0x0000 = .ok (.adc .long 0 (.imm 1)) := by decide
theorem test_decode_sta : decode 0x8F91 0xFF20 0x0000 =
    .ok (.sta .long 0 (.zpIndY 0xFF20 ⟨.file 3, .byte⟩)) := by decide
theorem test_decode_lda : decode 0x80BD 0x0002 0x0000 =
    .ok (.lda .long 0 (.mem (.absX 2 ⟨.g3 .pc, .long⟩))) := by decide
theorem test_decode_cmp : decode 0xFFC9 0xFF01 0x0000 = .ok (.cmp .byte 3 (.imm 1)) := by decide
theorem test_decode_sbc : decode 0xFFE9 0xFF10 0x0000 = .ok (.sbc .byte 3 (.imm 0x10)) := by decide
theorem test_decode_add : decode 0x2562 0x0000 0x0000 = .ok (.add .long 2 (.acc (.x 1))) := by decide
theorem test_decode_sub : decode 0x7FE9 0xFF05 0x0000 = .ok (.sub .byte 3 (.imm 5)) := by decide
theorem test_decode_sts : decode 0x0F8D 0x0000 0x0030 = .ok (.sts .long .pc (.abs 0x3000)) := by decide
theorem test_decode_ads : decode 0x0FA9 0x0004 0x0000 = .ok (.ads .long .pc (.imm 4)) := by decide
theorem test_decode_sbs : decode 0x2CD2 0x0000 0x0000 = .ok (.sbs .long .z1 (.acc (.a 0))) := by decide
theorem test_decode_asl : decode 0xBF0E 0x0000 0x0030 = .ok (.asl .long (.mem (.abs 0x3000))) := by decide
theorem test_decode_lsr : decode 0xBC4A 0x0000 0x0000 = .ok (.lsr .long (.acc (.a 0))) := by decide
theorem test_decode_rol : decode 0xBC2A 0x0000 0x0000 = .ok (.rol .long (.acc (.a 0))) := by decide
theorem test_decode_ror : decode 0xBA6A 0x0000 0x0000 = .ok (.ror .long (.acc (.y 2))) := by decide
theorem test_decode_dec : decode 0xBFCE 0x0000 0x0030 = .ok (.dec .long (.mem (.abs 0x3000))) := by decide
theorem test_decode_inc : decode 0xFFEE 0x0000 0x0030 = .ok (.inc .byte (.mem (.abs 0x3000))) := by decide
theorem test_decode_asr : decode 0x345E 0x0000 0x0030 =
    .ok (.asr .long (.mem (.absX 0x3000 ⟨.file 0, .long⟩))) := by decide
theorem test_decode_exg : decode 0x7F06 0xFF10 0x0000 = .ok (.exg .byte 3 (.mem (.zp 0xFF10))) := by decide
theorem test_decode_bpl : decode 0xFF10 0xFF02 0x0000 = .ok (.bpl .byte 2) := by decide
theorem test_decode_bmi : decode 0xFF30 0xFF02 0x0000 = .ok (.bmi .byte 2) := by decide
theorem test_decode_bvc : decode 0xFF50 0xFF02 0x0000 = .ok (.bvc .byte 2) := by decide
theorem test_decode_bvs : decode 0xFF70 0xFF02 0x0000 = .ok (.bvs .byte 2) := by decide
theorem test_decode_bcc : decode 0xFF90 0xFF7F 0x0000 = .ok (.bcc .byte 0x7F) := by decide
theorem test_decode_bcs : decode 0xFFB0 0xFF80 0x0000 = .ok (.bcs .byte 0xFFFFFF80) := by decide
theorem test_decode_bne : decode 0xFFD0 0xFFFB 0x0000 = .ok (.bne .byte 0xFFFFFFFB) := by decide
theorem test_decode_beq : decode 0xFFF0 0xFF10 0x0000 = .ok (.beq .byte 0x10) := by decide
theorem test_decode_bge : decode 0x7F10 0xFF02 0x0000 = .ok (.bge .byte 2) := by decide
theorem test_decode_blt : decode 0x7F30 0xFF02 0x0000 = .ok (.blt .byte 2) := by decide
theorem test_decode_ble : decode 0x7F50 0xFF02 0x0000 = .ok (.ble .byte 2) := by decide
theorem test_decode_bgt : decode 0x7F70 0xFF02 0x0000 = .ok (.bgt .byte 2) := by decide
theorem test_decode_bls : decode 0x7F90 0xFF02 0x0000 = .ok (.bls .byte 2) := by decide
theorem test_decode_bhi : decode 0x7FB0 0xFF02 0x0000 = .ok (.bhi .byte 2) := by decide
theorem test_decode_bnv : decode 0x3FD0 0x0034 0x0012 = .ok (.bnv .long 0x1234) := by decide
theorem test_decode_bra : decode 0x7FF0 0xFF10 0x0000 = .ok (.bra .byte 0x10) := by decide
theorem test_decode_bit : decode 0x8F2C 0x0000 0x0030 = .ok (.bit .long 0 (.abs 0x3000)) := by decide
theorem test_decode_jmp : decode 0xFF7A 0x0000 0x0030 = .ok (.jmp (.indY 0x3000 ⟨.file 3, .byte⟩)) := by decide
theorem test_decode_jsr : decode 0xFF54 0x0000 0x0050 = .ok (.jsr (.absX 0x5000 ⟨.file 3, .byte⟩)) := by decide
theorem test_decode_brk : decode 0xFF00 0x0000 0x0000 = .ok (.brk 127) := by decide
theorem test_decode_clc : decode 0xFF18 0x0000 0x0000 = .ok .clc := by decide
theorem test_decode_sec : decode 0xFF38 0x0000 0x0000 = .ok .sec := by decide
theorem test_decode_cli : decode 0xFF58 0x0000 0x0000 = .ok .cli := by decide
theorem test_decode_sei : decode 0xFF78 0x0000 0x0000 = .ok .sei := by decide
theorem test_decode_clv : decode 0xFFB8 0x0000 0x0000 = .ok .clv := by decide
theorem test_decode_cld : decode 0xFFD8 0x0000 0x0000 = .ok .cld := by decide
theorem test_decode_sed : decode 0xFFF8 0x0000 0x0000 = .ok .sed := by decide
theorem test_decode_nop : decode 0xFFEA 0x0000 0x0000 = .ok .nop := by decide
theorem test_decode_sev : decode 0x7FB8 0x0000 0x0000 = .ok .sev := by decide
theorem test_decode_wai : decode 0x7FEA 0x0000 0x0000 = .ok .wai := by decide
theorem test_decode_ldx : decode 0x84B3 0x0000 0x0030 =
    .ok (.ldx .long 0 (.mem (.absX 0x3000 ⟨.file 0, .long⟩))) := by decide
theorem test_decode_ldy : decode 0x9FA0 0x0000 0x0000 = .ok (.ldy .long 1 (.imm 0)) := by decide
theorem test_decode_stx : decode 0x9F9F 0x0000 0x0030 =
    .ok (.stx .long 1 (.indY 0x3000 ⟨.file 3, .byte⟩)) := by decide
theorem test_decode_sty : decode 0xFF94 0xFF10 0x0000 = .ok (.sty .byte 3 (.zpX 0xFF10 ⟨.file 3, .byte⟩)) := by decide
theorem test_decode_cpx : decode 0xFFF7 0x0000 0x0030 =
    .ok (.cpx .byte 3 (.mem (.absY 0x3000 ⟨.file 3, .byte⟩))) := by decide
theorem test_decode_cpy : decode 0x83C2 0x0000 0x0000 = .ok (.cpy .long 0 (.acc (.g3 .sp))) := by decide
theorem test_decode_adx : decode 0x7FA2 0xFF01 0x0000 = .ok (.adx .byte 3 (.imm 1)) := by decide
theorem test_decode_ady : decode 0x0FA4 0xFF10 0x0000 = .ok (.ady .long 0 (.mem (.zp 0xFF10))) := by decide
theorem test_decode_sbx : decode 0x04E2 0x0000 0x0000 = .ok (.sbx .long 0 (.acc (.x 0))) := by decide
theorem test_decode_dex : decode 0xFBCA 0x0000 0x0000 = .ok (.dex .byte 1 (.g3 .sp)) := by decide
theorem test_decode_dey : decode 0x9988 0x0000 0x0000 = .ok (.dey .long 5 (.g3 .z0)) := by decide
theorem test_decode_inx : decode 0xA8E8 0x0000 0x0000 = .ok (.inx .long 3 (.g3 .pc)) := by decide
theorem test_decode_iny : decode 0xC7C8 0x0000 0x0000 = .ok (.iny .byte 8 (.file 3)) := by decide
theorem test_decode_ina : decode 0x0CC8 0x0000 0x0000 = .ok (.ina .long 7 (.file 0)) := by decide
theorem test_decode_des : decode 0x06CA 0x0000 0x0000 = .ok (.des .long 8 .z1) := by decide
theorem test_decode_ins : decode 0x7FE8 0x0000 0x0000 = .ok (.ins .byte 1 .sp) := by decide
theorem test_decode_pha : decode 0x8048 0x0000 0x0000 = .ok (.pha .long 0 (.a 0)) := by decide
theorem test_decode_php : decode 0xFF08 0x0000 0x0000 = .ok (.php (.g3 .sp)) := by decide
theorem test_decode_pla : decode 0x8068 0x0000 0x0000 = .ok (.pla .long 0 (.a 0)) := by decide
theorem test_decode_plp : decode 0xFF28 0x0000 0x0000 = .ok (.plp (.g3 .sp)) := by decide
theorem test_decode_psh : decode 0xB489 0x3478 0x1256 = .ok (.psh .long 0x12345678 (.y 0)) := by decide
theorem test_decode_phx : decode 0x1F48 0x0000 0x0000 = .ok (.phx .long 1 (.g3 .sp)) := by decide
theorem test_decode_phy : decode 0x7F08 0x0000 0x0000 = .ok (.phy .byte 3 (.g3 .sp)) := by decide
theorem test_decode_plx : decode 0x1F68 0x0000 0x0000 = .ok (.plx .long 1 (.g3 .sp)) := by decide
theorem test_decode_ply : decode 0x3F28 0x0000 0x0000 = .ok (.ply .long 3 (.g3 .sp)) := by decide
theorem test_decode_pop : decode 0x3F89 0x0000 0x0001 = .ok (.pop .long 0x100 (.g3 .sp)) := by decide
theorem test_decode_rti : decode 0xFF40 0x0000 0x0000 = .ok (.rti (.g3 .sp)) := by decide
theorem test_decode_rts : decode 0xFA60 0x0000 0x0000 = .ok (.rts (.x 2)) := by decide
theorem test_decode_tax : decode 0x88AA 0x0000 0x0000 = .ok (.tax .long 0 (.g3 .pc)) := by decide
theorem test_decode_tay : decode 0xFFA8 0x0000 0x0000 = .ok (.tay .byte 3 (.y 3)) := by decide
theorem test_decode_txa : decode 0x888A 0x0000 0x0000 = .ok (.txa .long 0 (.g3 .pc)) := by decide
theorem test_decode_tya : decode 0xFF98 0x0000 0x0000 = .ok (.tya .byte 3 (.y 3)) := by decide
theorem test_decode_tsx : decode 0xFFBA 0x0000 0x0000 = .ok (.tsx .byte 3 (.g3 .sp)) := by decide
theorem test_decode_txs : decode 0xFF9A 0x0000 0x0000 = .ok (.txs .byte 3 (.g3 .sp)) := by decide
theorem test_decode_txy : decode 0x258A 0x0000 0x0000 = .ok (.txy .long 2 (.a 1)) := by decide
theorem test_decode_tyx : decode 0x7F98 0x0000 0x0000 = .ok (.tyx .byte 3 (.y 3)) := by decide
theorem test_decode_tyy : decode 0x7FA8 0x0000 0x0000 = .ok (.tyy .byte 3 (.y 3)) := by decide
theorem test_decode_txx : decode 0x0EAA 0x0000 0x0000 = .ok (.txx .long 0 (.x 2)) := by decide

/-- V139: unused fields do not matter. -/
theorem test_decode_nop_unused_fields : decode 0x80EA 0 0 = .ok .nop := by decide
/-- V177 and V178: `xX[2]` has no effect on DES. -/
theorem test_decode_des_ignores_top_of_field_x : decode 0x06CA 0 0 = decode 0x02CA 0 0 := by decide
/-- V231: CLC has no alternate. -/
theorem test_decode_unassigned : decode 0x7F18 0 0 = .error (.unassigned false 0x18) := by decide
/-- 95_test_vectors.md S1. -/
theorem test_join : join 0xAABB 0xCCDD = 0xCCAADDBB := by decide
/-- 95_test_vectors.md S3. -/
theorem test_join_top64k : join 0xFF34 0xFF12 = 0xFFFF1234 := by decide

/-! ## One step -/

/-- Six bits as the flags N V D I Z C. -/
def flagBits (b : BitVec 6) : Flags :=
  ⟨b.getLsbD 5, b.getLsbD 4, b.getLsbD 3, b.getLsbD 2, b.getLsbD 1, b.getLsbD 0⟩

/-- A state with a PC, words of memory, registers and the flags N V D I Z C; all else as after reset. -/
def start (pc : Long) (words : List (Long × Word)) (regs : List (Reg × Long)) (f : BitVec 6) : State :=
  let s := { State.reset with
    pc := pc, flags := flagBits f, mem := words.foldl (fun m aw => m.writeWord aw.1 aw.2) [] }
  regs.foldl (fun s rv => s.setReg rv.1 rv.2) s

/-- Whether a step answers a next state with a property. -/
def next (s : State) (p : State → Bool) : Bool :=
  match step s with
  | .next t => p t
  | .fault _ => false
  | .refused _ => false

/-- Whether one step from `start` answers a next state with a property. -/
def after (pc : Long) (words : List (Long × Word)) (regs : List (Reg × Long)) (f : BitVec 6) (p : State → Bool) : Bool :=
  next (start pc words regs f) p

/-- spec/95_test_vectors.md V021. -/
theorem test_run_ora : after 0x00002000 [(0x00002000, 0x9602)]
    [(.a 1, 0x0000000F), (.x 2, 0xF0000000)] 0b000000
    (fun t => t.pc == 0x00002001 && t.reg (.a 1) == 0xF000000F && t.flags == flagBits 0b100000) = true := by decide

/-- spec/95_test_vectors.md V022. -/
theorem test_run_and : after 0x00002000 [(0x00002000, 0x8F29), (0x00002001, 0x00FF), (0x00002002, 0x00FF)]
    [(.a 0, 0x12340000)] 0b000000
    (fun t => t.pc == 0x00002003 && t.reg (.a 0) == 0x00000000 && t.flags == flagBits 0b000010) = true := by decide

/-- spec/95_test_vectors.md V023. -/
theorem test_run_eor : after 0x00002000 [(0x00002000, 0x8C42)]
    [(.a 0, 0xDEADBEEF)] 0b000000
    (fun t => t.pc == 0x00002001 && t.reg (.a 0) == 0x00000000 && t.flags == flagBits 0b000010) = true := by decide

/-- spec/95_test_vectors.md V006. -/
theorem test_run_adc : after 0x00002000 [(0x00002000, 0x8F69), (0x00002001, 0x0001), (0x00002002, 0x0000)]
    [(.a 0, 0x7FFFFFFF)] 0b000000
    (fun t => t.pc == 0x00002003 && t.reg (.a 0) == 0x80000000 && t.flags == flagBits 0b110000) = true := by decide

/-- spec/95_test_vectors.md V005. -/
theorem test_run_adc_second : after 0x00002000 [(0x00002000, 0xFF69), (0x00002001, 0xFF01)]
    [(.a 3, 0x123401FF)] 0b000000
    (fun t => t.pc == 0x00002002 && t.reg (.a 3) == 0x12340100 && t.flags == flagBits 0b000011) = true := by decide

/-- spec/95_test_vectors.md V048. -/
theorem test_run_sta : after 0x00002000 [(0x00002000, 0x8F91), (0x00002001, 0xFF20), (0xFFFF0020, 0x0000),
      (0xFFFF0021, 0x0030)]
    [(.a 0, 0xCAFEBABE), (.y 3, 0x00000001)] 0b000000
    (fun t => t.pc == 0x00002002 && t.mem.readWord 0x00003001 == 0xFEBE && t.mem.readWord 0x00003002 == 0xCABA &&
      t.flags == flagBits 0b000000) = true := by decide

/-- spec/95_test_vectors.md V047. -/
theorem test_run_sta_second : after 0x00002000 [(0x00002000, 0xFF8D), (0x00002001, 0x0000), (0x00002002, 0x0030),
      (0x00003000, 0xAB00)]
    [(.a 3, 0x12345678)] 0b000000
    (fun t => t.pc == 0x00002003 && t.mem.readWord 0x00003000 == 0xAB78 &&
      t.flags == flagBits 0b000000) = true := by decide

/-- spec/95_test_vectors.md V041. -/
theorem test_run_lda : after 0x00002000 [(0x00002000, 0x80BD), (0x00002001, 0x0002), (0x00002002, 0x0000),
      (0x00002005, 0xBBAA), (0x00002006, 0xDDCC)]
    [] 0b000000
    (fun t => t.pc == 0x00002003 && t.reg (.a 0) == 0xDDBBCCAA && t.flags == flagBits 0b100000) = true := by decide

/-- spec/95_test_vectors.md V034. -/
theorem test_run_lda_second : after 0x00002000 [(0x00002000, 0xFFA1), (0x00002001, 0xFF20), (0x00003000, 0x0066),
      (0xFFFF0024, 0x0000), (0xFFFF0025, 0x0030)]
    [(.x 3, 0x00000004)] 0b000000
    (fun t => t.pc == 0x00002002 && t.reg (.a 3) == 0x00000066 && t.flags == flagBits 0b000000) = true := by decide

/-- spec/95_test_vectors.md V014. -/
theorem test_run_cmp : after 0x00002000 [(0x00002000, 0xFFC9), (0x00002001, 0xFF01)]
    [(.a 3, 0x00000000)] 0b010000
    (fun t => t.pc == 0x00002002 && t.flags == flagBits 0b110000) = true := by decide

/-- spec/95_test_vectors.md V012. -/
theorem test_run_sbc : after 0x00002000 [(0x00002000, 0xFFE9), (0x00002001, 0xFF10)]
    [(.a 3, 0x00000050)] 0b000000
    (fun t => t.pc == 0x00002002 && t.reg (.a 3) == 0x0000003F && t.flags == flagBits 0b000001) = true := by decide

/-- spec/95_test_vectors.md V013. -/
theorem test_run_sbc_second : after 0x00002000 [(0x00002000, 0x9FE9), (0x00002001, 0x0001), (0x00002002, 0x0000)]
    [(.a 1, 0x80000000)] 0b000001
    (fun t => t.pc == 0x00002003 && t.reg (.a 1) == 0x7FFFFFFF && t.flags == flagBits 0b010001) = true := by decide

/-- spec/95_test_vectors.md V017. -/
theorem test_run_add : after 0x00002000 [(0x00002000, 0x2562)]
    [(.a 2, 0x70000000), (.x 1, 0x10000000)] 0b000001
    (fun t => t.pc == 0x00002001 && t.reg (.a 2) == 0x80000000 && t.flags == flagBits 0b110000) = true := by decide

/-- spec/95_test_vectors.md V018. -/
theorem test_run_sub : after 0x00002000 [(0x00002000, 0x7FE9), (0x00002001, 0xFF05)]
    [(.a 3, 0x00000005)] 0b000000
    (fun t => t.pc == 0x00002002 && t.reg (.a 3) == 0x00000000 && t.flags == flagBits 0b000011) = true := by decide

/-- spec/95_test_vectors.md V049. -/
theorem test_run_sts : after 0x00002000 [(0x00002000, 0x0F8D), (0x00002001, 0x0000), (0x00002002, 0x0030)]
    [] 0b000000
    (fun t => t.pc == 0x00002003 && t.mem.readWord 0x00003000 == 0x0003 && t.mem.readWord 0x00003001 == 0x0020 &&
      t.flags == flagBits 0b000000) = true := by decide

/-- spec/95_test_vectors.md V050. -/
theorem test_run_ads : after 0x00002000 [(0x00002000, 0x0FA9), (0x00002001, 0x0004), (0x00002002, 0x0000)]
    [] 0b000000
    (fun t => t.pc == 0x00002007 && t.flags == flagBits 0b000000) = true := by decide

/-- spec/95_test_vectors.md V051. -/
theorem test_run_ads_second : after 0x00002000 [(0x00002000, 0x7FA9), (0x00002001, 0xFF02)]
    [(.g3 .sp, 0x000001FF)] 0b000000
    (fun t => t.pc == 0x00002002 && t.reg (.g3 .sp) == 0x00000101 && t.flags == flagBits 0b000001) = true := by decide

/-- spec/95_test_vectors.md V052. -/
theorem test_run_sbs : after 0x00002000 [(0x00002000, 0x2CD2)]
    [(.g3 .z1, 0x00000010), (.a 0, 0x00000020)] 0b000000
    (fun t => t.pc == 0x00002001 && t.reg (.g3 .z1) == 0xFFFFFFF0 && t.flags == flagBits 0b100000) = true := by decide

/-- spec/95_test_vectors.md V062. -/
theorem test_run_asl : after 0x00002000 [(0x00002000, 0xBF0E), (0x00002001, 0x0000), (0x00002002, 0x0030),
      (0x00003000, 0x0001), (0x00003001, 0xC000)]
    [] 0b000000
    (fun t => t.pc == 0x00002003 && t.mem.readWord 0x00003000 == 0x0002 && t.mem.readWord 0x00003001 == 0x8000 &&
      t.flags == flagBits 0b100001) = true := by decide

/-- spec/95_test_vectors.md V063. -/
theorem test_run_lsr : after 0x00002000 [(0x00002000, 0xBC4A)]
    [(.a 0, 0x80000001)] 0b000000
    (fun t => t.pc == 0x00002001 && t.reg (.a 0) == 0x40000000 && t.flags == flagBits 0b000001) = true := by decide

/-- spec/95_test_vectors.md V064. -/
theorem test_run_rol : after 0x00002000 [(0x00002000, 0xBC2A)]
    [(.a 0, 0x80000000)] 0b000001
    (fun t => t.pc == 0x00002001 && t.reg (.a 0) == 0x00000001 && t.flags == flagBits 0b000001) = true := by decide

/-- spec/95_test_vectors.md V066. -/
theorem test_run_ror : after 0x00002000 [(0x00002000, 0xBA6A)]
    [(.y 2, 0x00000001)] 0b000001
    (fun t => t.pc == 0x00002001 && t.reg (.y 2) == 0x80000000 && t.flags == flagBits 0b100001) = true := by decide

/-- spec/95_test_vectors.md V069. -/
theorem test_run_dec : after 0x00002000 [(0x00002000, 0xBFCE), (0x00002001, 0x0000), (0x00002002, 0x0030),
      (0x00003000, 0x0000), (0x00003001, 0x0000)]
    [] 0b000000
    (fun t => t.pc == 0x00002003 && t.mem.readWord 0x00003000 == 0xFFFF && t.mem.readWord 0x00003001 == 0xFFFF &&
      t.flags == flagBits 0b100000) = true := by decide

/-- spec/95_test_vectors.md V068. -/
theorem test_run_inc : after 0x00002000 [(0x00002000, 0xFFEE), (0x00002001, 0x0000), (0x00002002, 0x0030),
      (0x00003000, 0xABFF)]
    [] 0b000000
    (fun t => t.pc == 0x00002003 && t.mem.readWord 0x00003000 == 0xAB00 &&
      t.flags == flagBits 0b000010) = true := by decide

/-- spec/95_test_vectors.md V071. -/
theorem test_run_inc_second : after 0x00002000 [(0x00002000, 0xB3FA)]
    [(.g3 .sp, 0xFFFFFFFF)] 0b000000
    (fun t => t.pc == 0x00002001 && t.reg (.g3 .sp) == 0x00000000 && t.flags == flagBits 0b000010) = true := by decide

/-- spec/95_test_vectors.md V075. -/
theorem test_run_asr : after 0x00002000 [(0x00002000, 0x345E), (0x00002001, 0x0000), (0x00002002, 0x0030),
      (0x00003002, 0x0002), (0x00003003, 0x8000)]
    [(.x 0, 0x00000002)] 0b000000
    (fun t => t.pc == 0x00002003 && t.mem.readWord 0x00003002 == 0x0001 && t.mem.readWord 0x00003003 == 0xC000 &&
      t.flags == flagBits 0b100000) = true := by decide

/-- spec/95_test_vectors.md V078. -/
theorem test_run_exg : after 0x00002000 [(0x00002000, 0x7F06), (0x00002001, 0xFF10), (0xFFFF0010, 0xFF22)]
    [(.a 3, 0x00000011)] 0b000000
    (fun t => t.pc == 0x00002002 && t.reg (.a 3) == 0x00000022 && t.mem.readWord 0xFFFF0010 == 0xFF11 &&
      t.flags == flagBits 0b000000) = true := by decide

/-- spec/95_test_vectors.md V079. -/
theorem test_run_exg_second : after 0x00002000 [(0x00002000, 0x000A)]
    [(.a 0, 0x00005000)] 0b000000
    (fun t => t.pc == 0x00005000 && t.reg (.a 0) == 0x00002001 && t.flags == flagBits 0b000000) = true := by decide

/-- the Example of R181. -/
theorem test_run_bpl : after 0x00002000 [(0x00002000, 0xFF10), (0x00002001, 0xFF02)]
    [] 0b100000
    (fun t => t.pc == 0x00002002 && t.flags == flagBits 0b100000) = true := by decide

/-- the Example of R182. -/
theorem test_run_bmi : after 0x00002000 [(0x00002000, 0xFF30), (0x00002001, 0xFF02)]
    [] 0b100000
    (fun t => t.pc == 0x00002004 && t.flags == flagBits 0b100000) = true := by decide

/-- the Example of R183. -/
theorem test_run_bvc : after 0x00002000 [(0x00002000, 0xFF50), (0x00002001, 0xFF02)]
    [] 0b000000
    (fun t => t.pc == 0x00002004 && t.flags == flagBits 0b000000) = true := by decide

/-- the Example of R184. -/
theorem test_run_bvs : after 0x00002000 [(0x00002000, 0xFF70), (0x00002001, 0xFF02)]
    [] 0b000000
    (fun t => t.pc == 0x00002002 && t.flags == flagBits 0b000000) = true := by decide

/-- spec/95_test_vectors.md V092. -/
theorem test_run_bcc : after 0x00002000 [(0x00002000, 0xFF90), (0x00002001, 0xFF7F)]
    [] 0b000000
    (fun t => t.pc == 0x00002081 && t.flags == flagBits 0b000000) = true := by decide

/-- spec/95_test_vectors.md V093. -/
theorem test_run_bcs : after 0x00002000 [(0x00002000, 0xFFB0), (0x00002001, 0xFF80)]
    [] 0b000001
    (fun t => t.pc == 0x00001F82 && t.flags == flagBits 0b000001) = true := by decide

/-- spec/95_test_vectors.md V090. -/
theorem test_run_bne : after 0x00002000 [(0x00002000, 0xFFD0), (0x00002001, 0xFFFB)]
    [] 0b000000
    (fun t => t.pc == 0x00001FFD && t.flags == flagBits 0b000000) = true := by decide

/-- spec/95_test_vectors.md V091. -/
theorem test_run_beq : after 0x00002000 [(0x00002000, 0xFFF0), (0x00002001, 0xFF10)]
    [] 0b000000
    (fun t => t.pc == 0x00002002 && t.flags == flagBits 0b000000) = true := by decide

/-- spec/95_test_vectors.md V097. -/
theorem test_run_bge : after 0x00002000 [(0x00002000, 0x7F10), (0x00002001, 0xFF02)]
    [] 0b010000
    (fun t => t.pc == 0x00002002 && t.flags == flagBits 0b010000) = true := by decide

/-- the Example of R190. -/
theorem test_run_blt : after 0x00002000 [(0x00002000, 0x7F30), (0x00002001, 0xFF02)]
    [] 0b100000
    (fun t => t.pc == 0x00002004 && t.flags == flagBits 0b100000) = true := by decide

/-- the Example of R191. -/
theorem test_run_ble : after 0x00002000 [(0x00002000, 0x7F50), (0x00002001, 0xFF02)]
    [] 0b000010
    (fun t => t.pc == 0x00002004 && t.flags == flagBits 0b000010) = true := by decide

/-- spec/95_test_vectors.md V098. -/
theorem test_run_bgt : after 0x00002000 [(0x00002000, 0x7F70), (0x00002001, 0xFF02)]
    [] 0b110000
    (fun t => t.pc == 0x00002004 && t.flags == flagBits 0b110000) = true := by decide

/-- spec/95_test_vectors.md V099. -/
theorem test_run_bls : after 0x00002000 [(0x00002000, 0x7F90), (0x00002001, 0xFF02)]
    [] 0b000001
    (fun t => t.pc == 0x00002002 && t.flags == flagBits 0b000001) = true := by decide

/-- spec/95_test_vectors.md V100. -/
theorem test_run_bhi : after 0x00002000 [(0x00002000, 0x7FB0), (0x00002001, 0xFF02)]
    [] 0b000011
    (fun t => t.pc == 0x00002002 && t.flags == flagBits 0b000011) = true := by decide

/-- spec/95_test_vectors.md V096. -/
theorem test_run_bnv : after 0x00002000 [(0x00002000, 0x3FD0), (0x00002001, 0x0034), (0x00002002, 0x0012)]
    [] 0b110011
    (fun t => t.pc == 0x00002003 && t.flags == flagBits 0b110011) = true := by decide

/-- spec/95_test_vectors.md V095. -/
theorem test_run_bra : after 0xFFFFFFFE [(0xFFFFFFFE, 0x7FF0), (0xFFFFFFFF, 0xFF10)]
    [] 0b000000
    (fun t => t.pc == 0x00000010 && t.flags == flagBits 0b000000) = true := by decide

/-- spec/95_test_vectors.md V110. -/
theorem test_run_bit : after 0x00002000 [(0x00002000, 0x8F2C), (0x00002001, 0x0000), (0x00002002, 0x0030),
      (0x00003000, 0x0000), (0x00003001, 0x4000)]
    [(.a 0, 0x0000FFFF)] 0b000001
    (fun t => t.pc == 0x00002003 && t.flags == flagBits 0b010011) = true := by decide

/-- spec/95_test_vectors.md V113. -/
theorem test_run_jmp : after 0x00002000 [(0x00002000, 0xFF7A), (0x00002001, 0x0000), (0x00002002, 0x0030),
      (0x00003000, 0x0000), (0x00003001, 0x0050)]
    [(.y 3, 0x00000004)] 0b000000
    (fun t => t.pc == 0x00005004 && t.flags == flagBits 0b000000) = true := by decide

/-- spec/95_test_vectors.md V112. -/
theorem test_run_jmp_second : after 0x00002000 [(0x00002000, 0xF05C), (0x00002001, 0x0010), (0x00002002, 0x0000)]
    [] 0b000000
    (fun t => t.pc == 0x00002013 && t.flags == flagBits 0b000000) = true := by decide

/-- spec/95_test_vectors.md V115. -/
theorem test_run_jsr : after 0x00002000 [(0x00002000, 0xFF54), (0x00002001, 0x0000), (0x00002002, 0x0050)]
    [(.x 3, 0x00000006), (.g3 .sp, 0x000001FF)] 0b000000
    (fun t => t.pc == 0x00005006 && t.reg (.g3 .sp) == 0x000001FD && t.mem.readWord 0x000001FE == 0x0002 &&
      t.mem.readWord 0x000001FF == 0x0020 && t.flags == flagBits 0b000000) = true := by decide

/-- spec/95_test_vectors.md V121. -/
theorem test_run_brk : after 0xFFFF8000 [(0xFFFF8000, 0xFF00), (0xFFFF01FD, 0xFFFF), (0xFFFFFFFE, 0xFF00),
      (0xFFFFFFFF, 0xFFE0)]
    [(.g3 .sp, 0xFFFF01FF)] 0b101100
    (fun t => t.pc == 0xFFFFE000 && t.reg (.g3 .sp) == 0xFFFF01FC && t.mem.readWord 0xFFFF01FD == 0xFFBC &&
      t.mem.readWord 0xFFFF01FE == 0xFF02 && t.mem.readWord 0xFFFF01FF == 0xFF80 &&
      t.flags == flagBits 0b101100) = true := by decide

/-- spec/95_test_vectors.md V122. -/
theorem test_run_brk_second : after 0x00002000 [(0x00002000, 0x8000), (0xFFFFFF00, 0x0000), (0xFFFFFF01, 0x0060)]
    [(.g3 .sp, 0x000001FF)] 0b000000
    (fun t => t.pc == 0x00006000 && t.reg (.g3 .sp) == 0x000001FC && t.mem.readWord 0x000001FD == 0x0030 &&
      t.mem.readWord 0x000001FE == 0x0002 && t.mem.readWord 0x000001FF == 0x0020 &&
      t.flags == flagBits 0b000100) = true := by decide

/-- spec/95_test_vectors.md V130. -/
theorem test_run_clc : after 0x00002000 [(0x00002000, 0xFF18)]
    [] 0b000001
    (fun t => t.pc == 0x00002001 && t.flags == flagBits 0b000000) = true := by decide

/-- spec/95_test_vectors.md V131. -/
theorem test_run_sec : after 0x00002000 [(0x00002000, 0xFF38)]
    [] 0b000000
    (fun t => t.pc == 0x00002001 && t.flags == flagBits 0b000001) = true := by decide

/-- spec/95_test_vectors.md V132. -/
theorem test_run_cli : after 0x00002000 [(0x00002000, 0xFF58)]
    [] 0b000100
    (fun t => t.pc == 0x00002001 && t.flags == flagBits 0b000000) = true := by decide

/-- spec/95_test_vectors.md V133. -/
theorem test_run_sei : after 0x00002000 [(0x00002000, 0xFF78)]
    [] 0b000000
    (fun t => t.pc == 0x00002001 && t.flags == flagBits 0b000100) = true := by decide

/-- spec/95_test_vectors.md V134. -/
theorem test_run_clv : after 0x00002000 [(0x00002000, 0xFFB8)]
    [] 0b010000
    (fun t => t.pc == 0x00002001 && t.flags == flagBits 0b000000) = true := by decide

/-- spec/95_test_vectors.md V135. -/
theorem test_run_cld : after 0x00002000 [(0x00002000, 0xFFD8)]
    [] 0b001000
    (fun t => t.pc == 0x00002001 && t.flags == flagBits 0b000000) = true := by decide

/-- spec/95_test_vectors.md V136. -/
theorem test_run_sed : after 0x00002000 [(0x00002000, 0xFFF8)]
    [] 0b000000
    (fun t => t.pc == 0x00002001 && t.flags == flagBits 0b001000) = true := by decide

/-- spec/95_test_vectors.md V137. -/
theorem test_run_nop : after 0x00002000 [(0x00002000, 0xFFEA)]
    [] 0b111111
    (fun t => t.pc == 0x00002001 && t.flags == flagBits 0b111111) = true := by decide

/-- spec/95_test_vectors.md V138. -/
theorem test_run_sev : after 0x00002000 [(0x00002000, 0x7FB8)]
    [] 0b000000
    (fun t => t.pc == 0x00002001 && t.flags == flagBits 0b010000) = true := by decide

/-- spec/95_test_vectors.md V140. -/
theorem test_run_wai : after 0x00002000 [(0x00002000, 0x7FEA)]
    [] 0b000000
    (fun t => t.pc == 0x00002001 && t.waiting && t.flags == flagBits 0b000000) = true := by decide

/-- spec/95_test_vectors.md V151. -/
theorem test_run_ldx : after 0x00002000 [(0x00002000, 0x84B3), (0x00002001, 0x0000), (0x00002002, 0x0030),
      (0x00003002, 0x0009), (0x00003003, 0x0000)]
    [(.x 0, 0x00000002)] 0b000000
    (fun t => t.pc == 0x00002003 && t.reg (.x 0) == 0x00000009 && t.flags == flagBits 0b000000) = true := by decide

/-- spec/95_test_vectors.md V152. -/
theorem test_run_ldy : after 0x00002000 [(0x00002000, 0x9FA0), (0x00002001, 0x0000), (0x00002002, 0x0000)]
    [(.y 1, 0x00000005)] 0b000000
    (fun t => t.pc == 0x00002003 && t.reg (.y 1) == 0x00000000 && t.flags == flagBits 0b000010) = true := by decide

/-- spec/95_test_vectors.md V153. -/
theorem test_run_stx : after 0x00002000 [(0x00002000, 0x9F9F), (0x00002001, 0x0000), (0x00002002, 0x0030),
      (0x00003000, 0x0000), (0x00003001, 0x0040)]
    [(.x 1, 0x01020304), (.y 3, 0x00000001)] 0b000000
    (fun t => t.pc == 0x00002003 && t.mem.readWord 0x00004001 == 0x0204 && t.mem.readWord 0x00004002 == 0x0103 &&
      t.flags == flagBits 0b000000) = true := by decide

/-- spec/95_test_vectors.md V154. -/
theorem test_run_sty : after 0x00002000 [(0x00002000, 0xFF94), (0x00002001, 0xFF10), (0xFFFF0011, 0xFF00)]
    [(.y 3, 0x00000077), (.x 3, 0x00000001)] 0b000000
    (fun t => t.pc == 0x00002002 && t.mem.readWord 0xFFFF0011 == 0xFF77 &&
      t.flags == flagBits 0b000000) = true := by decide

/-- spec/95_test_vectors.md V156. -/
theorem test_run_cpx : after 0x00002000 [(0x00002000, 0xFFF7), (0x00002001, 0x0000), (0x00002002, 0x0030),
      (0x00003000, 0x007F)]
    [(.x 3, 0x00000080), (.y 3, 0x00000000)] 0b000000
    (fun t => t.pc == 0x00002003 && t.flags == flagBits 0b000001) = true := by decide

/-- spec/95_test_vectors.md V155. -/
theorem test_run_cpy : after 0x00002000 [(0x00002000, 0x83C2)]
    [(.y 0, 0x00000100), (.g3 .sp, 0x000001FF)] 0b000000
    (fun t => t.pc == 0x00002001 && t.flags == flagBits 0b100000) = true := by decide

/-- spec/95_test_vectors.md V157. -/
theorem test_run_adx : after 0x00002000 [(0x00002000, 0x7FA2), (0x00002001, 0xFF01)]
    [(.x 3, 0x123400FF)] 0b000000
    (fun t => t.pc == 0x00002002 && t.reg (.x 3) == 0x12340000 && t.flags == flagBits 0b000011) = true := by decide

/-- spec/95_test_vectors.md V158. -/
theorem test_run_ady : after 0x00002000 [(0x00002000, 0x0FA4), (0x00002001, 0xFF10), (0xFFFF0010, 0x00FF),
      (0xFFFF0011, 0x7FFF)]
    [(.y 0, 0x00000001)] 0b000001
    (fun t => t.pc == 0x00002002 && t.reg (.y 0) == 0x7F010000 && t.flags == flagBits 0b000000) = true := by decide

/-- spec/95_test_vectors.md V159. -/
theorem test_run_sbx : after 0x00002000 [(0x00002000, 0x04E2)]
    [(.x 0, 0x00001234)] 0b010000
    (fun t => t.pc == 0x00002001 && t.reg (.x 0) == 0x00000000 && t.flags == flagBits 0b000011) = true := by decide

/-- spec/95_test_vectors.md V172. -/
theorem test_run_dex : after 0x00002000 [(0x00002000, 0xFBCA)]
    [(.g3 .sp, 0xFFFF0100)] 0b000000
    (fun t => t.pc == 0x00002001 && t.reg (.g3 .sp) == 0xFFFF01FF && t.flags == flagBits 0b100000) = true := by decide

/-- spec/95_test_vectors.md V175. -/
theorem test_run_dey : after 0x00002000 [(0x00002000, 0x9988)]
    [(.g3 .z0, 0x00000005)] 0b000000
    (fun t => t.pc == 0x00002001 && t.reg (.g3 .z0) == 0x00000000 && t.flags == flagBits 0b000010) = true := by decide

/-- spec/95_test_vectors.md V171. -/
theorem test_run_inx : after 0x00002000 [(0x00002000, 0xA8E8)]
    [] 0b000000
    (fun t => t.pc == 0x00002004 && t.flags == flagBits 0b000000) = true := by decide

/-- spec/95_test_vectors.md V174. -/
theorem test_run_iny : after 0x00002000 [(0x00002000, 0xC7C8)]
    [(.y 3, 0x000000FC)] 0b010001
    (fun t => t.pc == 0x00002001 && t.reg (.y 3) == 0x00000004 && t.flags == flagBits 0b010001) = true := by decide

/-- spec/95_test_vectors.md V176. -/
theorem test_run_ina : after 0x00002000 [(0x00002000, 0x0CC8)]
    [(.a 0, 0x7FFFFFFF)] 0b000000
    (fun t => t.pc == 0x00002001 && t.reg (.a 0) == 0x80000006 && t.flags == flagBits 0b100000) = true := by decide

/-- spec/95_test_vectors.md V177. -/
theorem test_run_des : after 0x00002000 [(0x00002000, 0x06CA)]
    [(.g3 .z1, 0x00000010)] 0b000000
    (fun t => t.pc == 0x00002001 && t.reg (.g3 .z1) == 0x00000008 && t.flags == flagBits 0b000000) = true := by decide

/-- spec/95_test_vectors.md V179. -/
theorem test_run_ins : after 0x00002000 [(0x00002000, 0x7FE8)]
    [(.g3 .sp, 0x000001FF)] 0b000000
    (fun t => t.pc == 0x00002001 && t.reg (.g3 .sp) == 0x00000100 && t.flags == flagBits 0b000010) = true := by decide

/-- spec/95_test_vectors.md V190. -/
theorem test_run_pha : after 0x00002000 [(0x00002000, 0x8048)]
    [(.a 0, 0x000001FF)] 0b000000
    (fun t => t.pc == 0x00002001 && t.reg (.a 0) == 0x000001FD && t.mem.readWord 0x000001FE == 0x00FF &&
      t.mem.readWord 0x000001FF == 0x0001 && t.flags == flagBits 0b000000) = true := by decide

/-- spec/95_test_vectors.md V193. -/
theorem test_run_php : after 0x00002000 [(0x00002000, 0xFF08)]
    [(.g3 .sp, 0x000001FF)] 0b111111
    (fun t => t.pc == 0x00002001 && t.reg (.g3 .sp) == 0x000001FE && t.mem.readWord 0x000001FF == 0x00FF &&
      t.flags == flagBits 0b111111) = true := by decide

/-- spec/95_test_vectors.md V191. -/
theorem test_run_pla : after 0x00002000 [(0x00002000, 0x8068), (0x000001FE, 0x3478), (0x000001FF, 0x1256)]
    [(.a 0, 0x000001FD)] 0b000000
    (fun t => t.pc == 0x00002001 && t.reg (.a 0) == 0x12345678 && t.flags == flagBits 0b000000) = true := by decide

/-- spec/95_test_vectors.md V196. -/
theorem test_run_plp : after 0x00002000 [(0x00002000, 0xFF28), (0x000001FF, 0x0030)]
    [(.g3 .sp, 0x000001FE)] 0b100001
    (fun t => t.pc == 0x00002001 && t.reg (.g3 .sp) == 0x000001FF && t.flags == flagBits 0b000000) = true := by decide

/-- spec/95_test_vectors.md V197. -/
theorem test_run_psh : after 0x00002000 [(0x00002000, 0xB489), (0x00002001, 0x3478), (0x00002002, 0x1256)]
    [(.y 0, 0x000009FF)] 0b000000
    (fun t => t.pc == 0x00002003 && t.reg (.y 0) == 0x000009FD && t.mem.readWord 0x000009FE == 0x3478 &&
      t.mem.readWord 0x000009FF == 0x1256 && t.flags == flagBits 0b000000) = true := by decide

/-- the Example of R296. -/
theorem test_run_phx : after 0x00002000 [(0x00002000, 0x1F48)]
    [(.x 1, 0x00001002), (.g3 .sp, 0x000001FF)] 0b000000
    (fun t => t.mem.readWord 0x000001FE == 0x0002 && t.mem.readWord 0x000001FF == 0x0010 &&
      t.reg (.g3 .sp) == 0x000001FD && t.flags == flagBits 0b000000) = true := by decide

/-- the Example of R297. -/
theorem test_run_phy : after 0x00002000 [(0x00002000, 0x7F08), (0x000001FF, 0x0000)]
    [(.y 3, 0x00000007), (.g3 .sp, 0x000001FF)] 0b000000
    (fun t => t.mem.readWord 0x000001FF == 0x0007 && t.reg (.g3 .sp) == 0x000001FE &&
      t.flags == flagBits 0b000000) = true := by decide

/-- spec/95_test_vectors.md V200. -/
theorem test_run_plx : after 0x00002000 [(0x00002000, 0x1F68), (0x000001FE, 0x0000), (0x000001FF, 0x8000)]
    [(.g3 .sp, 0x000001FD)] 0b000000
    (fun t => t.pc == 0x00002001 && t.reg (.x 1) == 0x80000000 && t.reg (.g3 .sp) == 0x000001FF &&
      t.flags == flagBits 0b100000) = true := by decide

/-- the Example of R299. -/
theorem test_run_ply : after 0x00002000 [(0x00002000, 0x3F28), (0x000001FE, 0x3478), (0x000001FF, 0x1256)]
    [(.g3 .sp, 0x000001FD)] 0b000000
    (fun t => t.reg (.y 3) == 0x12345678 && t.reg (.g3 .sp) == 0x000001FF &&
      t.flags == flagBits 0b000000) = true := by decide

/-- spec/95_test_vectors.md V198. -/
theorem test_run_pop : after 0x00002000 [(0x00002000, 0x3F89), (0x00002001, 0x0000), (0x00002002, 0x0001)]
    [(.g3 .sp, 0x000001F0)] 0b000000
    (fun t => t.pc == 0x00002003 && t.reg (.g3 .sp) == 0x000002F0 && t.flags == flagBits 0b000000) = true := by decide

/-- spec/95_test_vectors.md V120. -/
theorem test_run_rti : after 0x00002000 [(0x00002000, 0xFF40), (0x000001FD, 0x00FF), (0x000001FE, 0x0000),
      (0x000001FF, 0x0050)]
    [(.g3 .sp, 0x000001FC)] 0b000000
    (fun t => t.pc == 0x00005000 && t.reg (.g3 .sp) == 0x000001FF && t.flags == flagBits 0b111111) = true := by decide

/-- spec/95_test_vectors.md V118. -/
theorem test_run_rts : after 0x00002000 [(0x00002000, 0xFA60), (0x000008FE, 0x00FF), (0x000008FF, 0x0040)]
    [(.x 2, 0x000008FD)] 0b000000
    (fun t => t.pc == 0x00004100 && t.reg (.x 2) == 0x000008FF && t.flags == flagBits 0b000000) = true := by decide

/-- spec/95_test_vectors.md V117. -/
theorem test_run_rts_second : after 0x00002000 [(0x00002000, 0xFF60), (0x000001FE, 0xFFFF), (0x000001FF, 0xFFFF)]
    [(.g3 .sp, 0x000001FD)] 0b000000
    (fun t => t.pc == 0x00000000 && t.reg (.g3 .sp) == 0x000001FF && t.flags == flagBits 0b000000) = true := by decide

/-- spec/95_test_vectors.md V210. -/
theorem test_run_tax : after 0x00002000 [(0x00002000, 0x88AA)]
    [(.a 0, 0x00005000)] 0b000000
    (fun t => t.pc == 0x00005000 && t.flags == flagBits 0b000000) = true := by decide

/-- spec/95_test_vectors.md V214. -/
theorem test_run_tay : after 0x00002000 [(0x00002000, 0xFFA8)]
    [(.a 3, 0x00000000), (.y 3, 0x00000055)] 0b000000
    (fun t => t.pc == 0x00002001 && t.reg (.y 3) == 0x00000000 && t.flags == flagBits 0b000010) = true := by decide

/-- spec/95_test_vectors.md V211. -/
theorem test_run_txa : after 0x00002000 [(0x00002000, 0x888A)]
    [] 0b000000
    (fun t => t.pc == 0x00002001 && t.reg (.a 0) == 0x00002001 && t.flags == flagBits 0b000000) = true := by decide

/-- the Example of R316. -/
theorem test_run_tya : after 0x00002000 [(0x00002000, 0xFF98)]
    [(.y 3, 0x000000FF), (.a 3, 0x00000000)] 0b000000
    (fun t => t.reg (.a 3) == 0x000000FF && t.flags == flagBits 0b100000) = true := by decide

/-- spec/95_test_vectors.md V213. -/
theorem test_run_tsx : after 0x00002000 [(0x00002000, 0xFFBA)]
    [(.g3 .sp, 0xFFFF0180), (.x 3, 0x00000000)] 0b000000
    (fun t => t.pc == 0x00002001 && t.reg (.x 3) == 0x00000080 && t.flags == flagBits 0b100000) = true := by decide

/-- spec/95_test_vectors.md V212. -/
theorem test_run_txs : after 0x00002000 [(0x00002000, 0xFF9A)]
    [(.x 3, 0x000000FF), (.g3 .sp, 0xFFFF0100)] 0b000010
    (fun t => t.pc == 0x00002001 && t.reg (.g3 .sp) == 0xFFFF01FF && t.flags == flagBits 0b000010) = true := by decide

/-- spec/95_test_vectors.md V217. -/
theorem test_run_txy : after 0x00002000 [(0x00002000, 0x258A)]
    [(.a 1, 0xFFFFFFFF)] 0b000000
    (fun t => t.pc == 0x00002001 && t.reg (.y 2) == 0xFFFFFFFF && t.flags == flagBits 0b100000) = true := by decide

/-- the Example of R320. -/
theorem test_run_tyx : after 0x00002000 [(0x00002000, 0x7F98)]
    [(.y 3, 0x00000080), (.x 3, 0x00000000)] 0b000000
    (fun t => t.reg (.x 3) == 0x00000080 && t.flags == flagBits 0b100000) = true := by decide

/-- spec/95_test_vectors.md V216. -/
theorem test_run_tyy : after 0x00002000 [(0x00002000, 0x7FA8)]
    [(.y 3, 0x00000080)] 0b000000
    (fun t => t.pc == 0x00002001 && t.flags == flagBits 0b100000) = true := by decide

/-- the Example of R322. -/
theorem test_run_txx : after 0x00002000 [(0x00002000, 0x0EAA)]
    [(.x 0, 0x80000000)] 0b000000
    (fun t => t.reg (.x 2) == 0x80000000 && t.flags == flagBits 0b100000) = true := by decide

/-! ## Faults and boundaries -/

/-- Whether a step ends in a fault. -/
def faults (s : State) (f : Fault) : Bool :=
  match step s with
  | .next _ => false
  | .fault g => g == f
  | .refused _ => false

/-- V119 and V199: PC as the stack register. -/
theorem test_rts_through_pc_faults : faults (start 0x2000 [(0x2000, 0xFC60)] [] 0) .pcAsStackRegister = true := by decide
theorem test_pha_through_pc_faults : faults (start 0x2000 [(0x2000, 0xFC48)] [] 0) .pcAsStackRegister = true := by decide
/-- V230 and V233: unassigned slots. -/
theorem test_unassigned_faults : faults (start 0x2000 [(0x2000, 0xFF03)] [] 0) (.unassignedSlot true 0x03) = true := by
  decide
theorem test_sta_acc_faults : faults (start 0x2000 [(0x2000, 0xFF92)] [] 0) (.unassignedSlot true 0x92) = true := by
  decide

/-- The state of the step tables X1 to X10 (95_test_vectors.md 2.13), with one sample of the lines to come. -/
def boundaryState (w : Word) (f : BitVec 6) (l : Lines) : State :=
  { start 0x2000 [(0x2000, w), (0xFFFFFFFB, 0x0070), (0xFFFFFFFD, 0x0080), (0xFFFFFFFF, 0x0090)]
      [(.g3 .sp, 0x000001FF)] f with inputs := [l] }

/-- An unmasked IRQ pushes the next instruction's address and B = 0 (X1). -/
theorem test_irq_taken : next (boundaryState 0xFFEA 0 ⟨false, false, true⟩) (fun t =>
    t.pc == 0x9000 && t.mem.readByte (lowCell 0x1FD) == 0x20 && t.mem.readWord 0x1FF == 0x0020 && t.flags.i) = true := by
  decide
theorem test_masked_irq_is_not_taken :
    next (boundaryState 0xFFEA 0b000100 ⟨false, false, true⟩) (fun t => t.pc == 0x2001) = true := by decide
theorem test_nmi_before_irq : next (boundaryState 0xFFEA 0 ⟨false, true, true⟩) (fun t =>
    t.pc == 0x7000 && !t.nmiPending) = true := by decide
theorem test_reset_before_all : next (boundaryState 0xFFEA 0 ⟨true, true, true⟩) (fun t =>
    t.flags.i && !t.nmiPending && !t.waiting) = true := by decide
/-- The reset of X5, where memory keeps its contents: its vector gives PC. -/
theorem test_reset_vector_of_kept_memory :
    (Memory.ofCells (boundaryState 0xFFEA 0 ⟨true, true, true⟩).mem).read resetVector .long = 0x8000 := by decide
/-- Cells in any order, one address twice, one address outside the address space. -/
theorem test_memory_of_cells : Memory.ofCells [(5, 1), (0, 7), (2, 0), (5, 9), (2 ^ 33, 4)] = [(0, 7), (5, 1)] := by decide
theorem test_masked_irq_wakes : next { boundaryState 0x7FEA 0b000100 ⟨false, false, true⟩ with waiting := true } (fun t =>
    t.pc == 0x2000 && !t.waiting) = true := by decide

/-! ## The hypotheses of the statements can be met

A witness for each statement with hypotheses, at boundary values where a clause has a range; `State.reset` stands for
`s.Inv` alone (`test_meets_inv`). -/

theorem test_meets_inv : State.reset.Inv := by decide
theorem test_meets_memory_wf : Memory.wf [] = true ∧ Memory.wf [(0, 1), (2 ^ 33 - 1, 0xFF)] = true := by decide
theorem test_meets_DecodeOfEncode : Instr.wf (.lda .byte 3 (.imm 255)) = true ∧ Instr.wf (.dex .long 8 (.file 3)) = true ∧
    Instr.wf (.inx .byte 1 (.g3 .pc)) = true ∧ Instr.wf (.bne .byte 0xFFFFFF80) = true := by decide
theorem test_meets_DecodedInstruction : decode 0xFFEA 0 0 = .ok .nop := by decide
theorem test_meets_InstructionDependsOnlyOnItsOwnWords :
    decode 0xFFA9 0xFF01 0 = .ok (.lda .byte 3 (.imm 1)) ∧ Instr.len (.lda .byte 3 (.imm 1)) = 2 ∧
    decode 0xFFEA 0 0 = .ok .nop ∧ Instr.len .nop = 1 ∧
    decode 0xBFA9 1 0 = .ok (.lda .long 3 (.imm 1)) ∧ Instr.len (.lda .long 3 (.imm 1)) = 3 := by decide
theorem test_meets_CountField : decode 0x80CA 0 0 = .ok (.dex .long 8 (.g3 .pc)) ∧
    decode 0xB8E8 0 0 = .ok (.inx .long 1 (.g3 .pc)) ∧ decode 0x07CA 0 0 = .ok (.des .long 8 .sp) ∧
    decode 0x8FFA 0 0 = .ok (.inc .long (.acc (.a 3))) ∧ decode 0x8FDA 0 0 = .ok (.dec .long (.acc (.a 3))) := by decide
theorem test_meets_CanonicalMemories : Memory.wf [(0, 1)] = true ∧
    ∀ k, Memory.readByte [(0, 1)] k = Memory.readByte (Memory.writeByte [] 0 1) k :=
  ⟨by decide, fun _ => rfl⟩
theorem test_meets_BinaryAddAndSubtract : State.reset.flags.d = false := by decide
theorem test_meets_DecimalAddAndSubtract : (start 0 [] [] 0b001000).flags.d = true := by decide
theorem test_meets_BranchesCompare : 0 < Width.bits .byte ∧ (1 : Long) ≠ 0 := by decide
theorem test_meets_ReturnUndoesCall : ∃ t, State.reset.Inv ∧ exec (.jsr (.abs 0x1000)) State.reset = .next t :=
  ⟨_, by decide, rfl⟩
theorem test_meets_ReturnFromInterrupt : ∃ t, State.reset.Inv ∧ exec (.brk 127) State.reset = .next t :=
  ⟨_, by decide, rfl⟩
theorem test_meets_ClearSetCarry :
    (0xFF18 : Word).getLsbD 15 = true ∧ (0xFF18 : Word).extractLsb' 0 8 = 0x18 ∧
    (0x8038 : Word).getLsbD 15 = true ∧ (0x8038 : Word).extractLsb' 0 8 = 0x38 ∧
    (0xFFB8 : Word).getLsbD 15 = true ∧ (0xFFB8 : Word).extractLsb' 0 8 = 0xB8 ∧
    (0x80EA : Word).getLsbD 15 = true ∧ (0x80EA : Word).extractLsb' 0 8 = 0xEA ∧
    (0x7FEA : Word).getLsbD 15 = false ∧ (0x7FEA : Word).extractLsb' 0 8 = 0xEA := by decide
theorem test_meets_BreakVector : (0xFF00 : Word).getLsbD 15 = true ∧ (0xFF00 : Word).extractLsb' 0 8 = 0x00 := by decide
theorem test_meets_Counting : 1 ≤ 1 ∧ 1 ≤ 8 ∧ 8 ≤ 8 := by decide
theorem test_meets_Pushes_and_Pulls : State.reset.Inv ∧ Reg.a 0 ≠ .g3 .pc ∧ Reg.g3 .sp ≠ .g3 .pc := by decide
theorem test_meets_StatusByteRoundTrip :
    ∃ t, State.reset.Inv ∧ Reg.g3 .sp ≠ .g3 .pc ∧ exec (.php (.g3 .sp)) State.reset = .next t :=
  ⟨_, by decide, by decide, rfl⟩
theorem test_meets_OnlyPcAsStackRegister :
    stackRegister (.pha .byte 0 (.g3 .pc)) = some (.g3 .pc) ∧ stackRegister (.pha .byte 0 (.g3 .sp)) ≠ some (.g3 .pc) ∧
    stackRegister .nop ≠ some (.g3 .pc) := by decide
theorem test_meets_Quiet : State.reset.Quiet ∧ (boundaryState 0xFFEA 0b000100 ⟨false, false, true⟩).Quiet := by
  unfold State.Quiet
  decide
theorem test_meets_StepRuns : (start 0x2000 [(0x2000, 0xFFEA)] [] 0).Quiet ∧
    (start 0x2000 [(0x2000, 0xFFEA)] [] 0).fetch = .ok .nop ∧ Instr.wf .nop = true := by
  unfold State.Quiet
  decide
theorem test_meets_StepFaults : (start 0x2000 [(0x2000, 0xFF03)] [] 0).Quiet ∧
    (start 0x2000 [(0x2000, 0xFF03)] [] 0).fetch = .error (.unassigned true 0x03) := by
  unfold State.Quiet
  decide
theorem test_meets_ResetComesFirst : (boundaryState 0xFFEA 0 ⟨true, true, true⟩).lines.reset = true := by decide
theorem test_meets_NmiEntersItsTrap_pending :
    ∃ s : State, s.Inv ∧ s.lines.reset = false ∧ s.nmiPending = true :=
  ⟨{ State.reset with nmiPending := true }, by decide⟩
theorem test_meets_NmiEntersItsTrap_arriving :
    ∃ s : State, s.Inv ∧ s.lines.reset = false ∧ s.lines.nmi = true :=
  ⟨boundaryState 0xFFEA 0 ⟨false, true, false⟩, by decide⟩
theorem test_meets_UnmaskedIrqEntersItsTrap : ∃ s : State, s.Inv ∧ s.lines.reset = false ∧ s.nmiPending = false ∧
    s.lines.nmi = false ∧ s.lines.irq = true ∧ s.flags.i = false :=
  ⟨boundaryState 0xFFEA 0 ⟨false, false, true⟩, by decide⟩
theorem test_meets_Waiting_request : ∃ s : State, s.lines.reset = false ∧ s.nmiPending = false ∧ s.lines.nmi = false ∧
    s.waiting = true ∧ s.lines.irq = true ∧ s.flags.i = true :=
  ⟨{ State.reset with waiting := true, inputs := [⟨false, false, true⟩] }, by decide⟩
theorem test_meets_Waiting_none : ∃ s : State, s.lines.reset = false ∧ s.nmiPending = false ∧ s.lines.nmi = false ∧
    s.waiting = true ∧ s.lines.irq = false :=
  ⟨{ State.reset with waiting := true }, by decide⟩
theorem test_meets_StepKeepsMemoryCanonical :
    ∃ t, (start 0x2000 [(0x2000, 0xFFEA)] [] 0).Inv ∧ step (start 0x2000 [(0x2000, 0xFFEA)] [] 0) = .next t :=
  ⟨_, by decide, rfl⟩
theorem test_meets_InstructionsKeepTheFlags : ∃ t, exec .nop State.reset = .next t ∧ writesN .nop = false ∧
    writesV .nop = false ∧ writesC .nop = false ∧ writesD .nop = false ∧ writesI .nop = false :=
  ⟨_, rfl, rfl, rfl, rfl, rfl, rfl⟩
theorem test_meets_OnlyThreeInstructions : ∃ t, step (start 0x2000 [(0x2000, 0xFF58)] [] 0b000100) = .next t ∧
    (start 0x2000 [(0x2000, 0xFF58)] [] 0b000100).flags.i = true ∧ t.flags.i = false :=
  ⟨_, rfl, rfl, rfl⟩
theorem test_meets_OnlyStoringInstructions :
    ∃ t, exec .nop State.reset = .next t ∧ storesToMemory .nop = false :=
  ⟨_, rfl, rfl⟩
theorem test_meets_OtherInstructions :
    ∃ t, readsD .nop = false ∧ writesD .nop = false ∧ exec .nop State.reset = .next t :=
  ⟨_, rfl, rfl, rfl⟩
theorem test_meets_OnlyTheBoundary :
    (∃ t, exec .wai State.reset = .next t) ∧ (∃ t, exec .nop State.reset = .next t) ∧
      ∃ t, step (start 0x2000 [(0x2000, 0xFFEA)] [] 0) = .next t :=
  ⟨⟨_, rfl⟩, ⟨_, rfl⟩, ⟨_, rfl⟩⟩
theorem test_meets_StoredInstruction : State.reset.Inv ∧ decodeTableWord 16 0xFFEA = some .nop := by decide

end Sys2Proof.Tests
end

/-! PROOF. The layout functions of 00_scope.md R9 in arithmetic, and that they are inverse. -/

namespace Sys2Proof.Machine

/-- Laying one bit vector above another, in numbers. -/
theorem toNat_append_eq_mul_add {m n : Nat} (x : BitVec m) (y : BitVec n) :
    (x ++ y).toNat = x.toNat * 2 ^ n + y.toNat := by
  rw [BitVec.toNat_append, ← Nat.shiftLeft_add_eq_or_of_lt y.isLt, Nat.shiftLeft_eq]

/-- A field cut out of a bit vector, in numbers. -/
theorem toNat_extractLsb'_eq_div_mod {n : Nat} (start len : Nat) (v : BitVec n) :
    (v.extractLsb' start len).toNat = v.toNat / 2 ^ start % 2 ^ len := by
  rw [BitVec.extractLsb'_toNat, Nat.shiftRight_eq_div_pow]

theorem lowByte_toNat (w : Word) : (lowByte w).toNat = w.toNat % 256 := by
  rw [lowByte, toNat_extractLsb'_eq_div_mod]
  omega

/-- No remainder is taken: a word has nothing above bit 15. -/
theorem highByte_toNat (w : Word) : (highByte w).toNat = w.toNat / 256 := by
  have hw := w.isLt
  rw [highByte, toNat_extractLsb'_eq_div_mod]
  omega

/-- The four bytes of `join(w0, w1)` by place value (00_scope.md R9). -/
theorem join_toNat (w0 w1 : Word) : (join w0 w1).toNat =
    w1.toNat / 256 * 2 ^ 24 + w0.toNat / 256 * 2 ^ 16 + w1.toNat % 256 * 2 ^ 8 + w0.toNat % 256 := by
  simp only [join, toNat_append_eq_mul_add, lowByte_toNat, highByte_toNat]
  omega

/-- The word `v[23:16] : v[7:0]` by place value (00_scope.md R9). -/
theorem splitLow_toNat (v : Long) :
    (splitLow v).toNat = v.toNat / 2 ^ 16 % 256 * 2 ^ 8 + v.toNat % 256 := by
  simp only [splitLow, toNat_append_eq_mul_add, toNat_extractLsb'_eq_div_mod]
  omega

/-- The word `v[31:24] : v[15:8]` by place value (00_scope.md R9). -/
theorem splitHigh_toNat (v : Long) :
    (splitHigh v).toNat = v.toNat / 2 ^ 24 * 2 ^ 8 + v.toNat / 2 ^ 8 % 256 := by
  have hv := v.isLt
  simp only [splitHigh, toNat_append_eq_mul_add, toNat_extractLsb'_eq_div_mod]
  omega

/-- The first half of `split(join(w0, w1)) = (w0, w1)` (00_scope.md R9). -/
theorem splitLow_join (w0 w1 : Word) : splitLow (join w0 w1) = w0 := by
  apply BitVec.eq_of_toNat_eq
  have h0 := w0.isLt
  rw [splitLow_toNat, join_toNat]
  omega

/-- The second half of `split(join(w0, w1)) = (w0, w1)` (00_scope.md R9). -/
theorem splitHigh_join (w0 w1 : Word) : splitHigh (join w0 w1) = w1 := by
  apply BitVec.eq_of_toNat_eq
  have h0 := w0.isLt
  rw [splitHigh_toNat, join_toNat]
  omega

/-- Settles O9: the two layouts by their place values, `join_split` for one inverse, and the same place values for the
other. -/
theorem joinAndSplitAreInverse : Obligations.JoinAndSplitAreInverse :=
  ⟨join_toNat, fun v => ⟨splitLow_toNat v, splitHigh_toNat v⟩, join_split,
    fun w0 w1 => ⟨splitLow_join w0 w1, splitHigh_join w0 w1⟩, by decide⟩

end Sys2Proof.Machine

/-! ## Register numbers (10_state.md R21, R22) -/

namespace Sys2Proof

/-- `G3.ofNumber` undoes `G3.number`. -/
@[simp] theorem G3.ofNumber_number (g : G3) : G3.ofNumber g.number = g := by
  cases g <;> rfl

/-- `G3.number` undoes `G3.ofNumber`. -/
@[simp] theorem G3.number_ofNumber (i : Fin 4) : (G3.ofNumber i).number = i := by
  fin_cases i <;> rfl

/-- A register number is the number of its file, `k[3:2]`, above the number within the file, `k[1:0]`. -/
theorem registerNumber_eq_append (k : BitVec 4) : k.extractLsb' 2 2 ++ k.extractLsb' 0 2 = k := by
  rw [BitVec.extractLsb'_append_extractLsb'_eq_extractLsb' (by rfl)]
  exact BitVec.extractLsb'_eq_self

section Files
variable (i : BitVec 2)

/-- File `00` is A. -/
theorem Reg.ofNumber_fileA : Reg.ofNumber (0b00#2 ++ i) = .a i.toFin := by
  simp only [Reg.ofNumber, BitVec.extractLsb'_append_eq_left, BitVec.extractLsb'_append_eq_right]
  rfl

/-- File `01` is Y. -/
theorem Reg.ofNumber_fileY : Reg.ofNumber (0b01#2 ++ i) = .y i.toFin := by
  simp only [Reg.ofNumber, BitVec.extractLsb'_append_eq_left, BitVec.extractLsb'_append_eq_right]
  rfl

/-- File `10` is X. -/
theorem Reg.ofNumber_fileX : Reg.ofNumber (0b10#2 ++ i) = .x i.toFin := by
  simp only [Reg.ofNumber, BitVec.extractLsb'_append_eq_left, BitVec.extractLsb'_append_eq_right]
  rfl

/-- File `11` is the fourth group. -/
theorem Reg.ofNumber_fileG3 : Reg.ofNumber (0b11#2 ++ i) = .g3 (G3.ofNumber i.toFin) := by
  simp only [Reg.ofNumber, BitVec.extractLsb'_append_eq_left, BitVec.extractLsb'_append_eq_right]
  rfl

end Files

/-- The number of a register selects that register. -/
@[simp] theorem Reg.ofNumber_number (r : Reg) : Reg.ofNumber r.number = r := by
  cases r with
  | a i => exact Reg.ofNumber_fileA _
  | y i => exact Reg.ofNumber_fileY _
  | x i => exact Reg.ofNumber_fileX _
  | g3 g => rw [Reg.number, Reg.ofNumber_fileG3, G3.ofNumber_number]

/-- The register a number selects has that number: whichever file `k[3:2]` selects, its register has the file's number
above `k[1:0]`. -/
@[simp] theorem Reg.number_ofNumber (k : BitVec 4) : (Reg.ofNumber k).number = k := by
  rw [← registerNumber_eq_append k]
  generalize k.extractLsb' 0 2 = i
  have files : ∀ f : BitVec 2, f = 0b00#2 ∨ f = 0b01#2 ∨ f = 0b10#2 ∨ f = 0b11#2 := by decide
  obtain hf | hf | hf | hf := files (k.extractLsb' 2 2) <;> rw [hf]
  · rw [Reg.ofNumber_fileA, Reg.number]
  · rw [Reg.ofNumber_fileY, Reg.number]
  · rw [Reg.ofNumber_fileX, Reg.number]
  · rw [Reg.ofNumber_fileG3, Reg.number, G3.number_ofNumber]

end Sys2Proof

namespace Sys2Proof.Machine

/-- Settles O7: the sixteen rows of the S table by evaluation, and the two inverse laws of the numbering. -/
theorem registersAreNumberedByTheSTable : Obligations.RegistersAreNumberedByTheSTable :=
  ⟨rfl, rfl, rfl, rfl, rfl, rfl, rfl, rfl, rfl, rfl, rfl, rfl, rfl, rfl, rfl, rfl,
    Reg.number_ofNumber, Reg.ofNumber_number⟩

end Sys2Proof.Machine

/-! ## Longword access (20_memory.md R53, R54, R56) -/

namespace Sys2Proof.Machine

/-- The low byte of `v[23:16] : v[7:0]`. -/
theorem lowByte_splitLow (v : Long) : lowByte (splitLow v) = v.extractLsb' 0 8 :=
  BitVec.extractLsb'_append_eq_right

/-- The low byte of `v[31:24] : v[15:8]`. -/
theorem lowByte_splitHigh (v : Long) : lowByte (splitHigh v) = v.extractLsb' 8 8 :=
  BitVec.extractLsb'_append_eq_right

/-- A byte read sees bits 7:0 of its word (20_memory.md R53). -/
theorem Memory.read_byte (m : Memory) (a : Long) : m.read a .byte = lowByte (m.readWord a) :=
  BitVec.extractLsb'_append_eq_right.symm

/-- A longword read joins two consecutive words (20_memory.md R54). -/
theorem Memory.read_long (m : Memory) (a : Long) : m.read a .long = join (m.readWord a) (m.readWord (a + 1)) := rfl

/-- A write changes no cell but those of its datum: the frame of a store, for the memory alone. -/
theorem Memory.readByte_write_of_notMem {m : Memory} (h : m.wf) (a : Long) (w : Width) (v : BitVec w.bits) {k : Nat}
    (hk : k ∉ cellsOf a w) : (m.write a w v).readByte k = m.readByte k :=
  State.readByte_store_of_notMem (s := { State.reset with mem := m }) h a w v hk

/-- A longword write leaves every word but its two. -/
theorem Memory.readWord_write_long_of_ne {m : Memory} (h : m.wf) {a b : Long} (hlow : b ≠ a) (hhigh : b ≠ a + 1)
    (v : Long) : (m.write a .long v).readWord b = m.readWord b := by
  rw [Memory.write, Memory.readWord_writeWord (Memory.wf_writeWord h a _), if_neg hhigh,
    Memory.readWord_writeWord h, if_neg hlow]

/-- Settles O10: every read goes through the words it sees, and the words after the write are `split(v)` and, elsewhere,
those before it. -/
theorem longwordWriteReadsBack : Obligations.LongwordWriteReadsBack := by
  intro m a v h
  have low := Memory.readWord_write_low h a v
  have high := Memory.readWord_write_high h a v
  refine ⟨low, high, m.read_long, m.read_byte, ?readLong, ?readLowByte, ?readHighByte,
    fun k hk => Memory.readByte_write_of_notMem h a .long v hk,
    fun b hlow hhigh => Memory.readWord_write_long_of_ne h hlow hhigh v⟩
  case readLong => rw [Memory.read_long, low, high, join_split]
  case readLowByte => rw [Memory.read_byte, low, lowByte_splitLow]
  case readHighByte => rw [Memory.read_byte, high, lowByte_splitHigh]

end Sys2Proof.Machine

/-! PROOF. The encoder and the decoder: the fields of each format, the slots of the two grids. -/

/-! ## The fields of the four formats (30_encoding.md R80 to R83)

What the decoder reads from an opcode word that the encoder wrote, field by field. -/

namespace Sys2Proof.Encode
open Sys2Proof.Machine

/-- A width is read back from its bit. -/
theorem width_of_widthBit (w : Width) : (if (widthBit w).getLsbD 0 then Width.byte else Width.long) = w := by
  cases w <;> rfl

section Fields
variable (p : Bool) (w : Width) (r : Fin 4) (op : Byte)

section Format0
variable (s : BitVec 4)

@[simp] theorem fieldOp_format0 : fieldOp (format0 p w r s op) = op := BitVec.extractLsb'_append_eq_right

@[simp] theorem fieldP_format0 : fieldP (format0 p w r s op) = p := by
  simp only [fieldP, format0, BitVec.getLsbD_append, Nat.reduceLT, Nat.reduceSub, reduceIte, BitVec.getLsbD_ofBool,
    decide_true, Bool.true_and]

@[simp] theorem fieldD_format0 : fieldD (format0 p w r s op) = w := by
  simp only [fieldD, format0, BitVec.getLsbD_append, Nat.reduceLT, Nat.reduceSub, reduceIte, width_of_widthBit]

@[simp] theorem fieldR_format0 : fieldR (format0 p w r s op) = r := by
  simp (disch := decide) only [fieldR, format0, BitVec.extractLsb'_append_eq_of_le, Nat.reduceSub,
    BitVec.extractLsb'_append_eq_right, main]

@[simp] theorem fieldS_format0 : fieldS (format0 p w r s op) = s := by
  simp (disch := decide) only [fieldS, format0, BitVec.extractLsb'_append_eq_of_le, Nat.reduceSub,
    BitVec.extractLsb'_append_eq_right]

end Format0

section Format1
variable (k : Nat) (x : BitVec 3)

@[simp] theorem fieldOp_format1 : fieldOp (format1 p w k x op) = op := BitVec.extractLsb'_append_eq_right

@[simp] theorem fieldP_format1 : fieldP (format1 p w k x op) = p := by
  simp only [fieldP, format1, BitVec.getLsbD_append, Nat.reduceLT, Nat.reduceSub, reduceIte, BitVec.getLsbD_ofBool,
    decide_true, Bool.true_and]

@[simp] theorem fieldD_format1 : fieldD (format1 p w k x op) = w := by
  simp only [fieldD, format1, BitVec.getLsbD_append, Nat.reduceLT, Nat.reduceSub, reduceIte, width_of_widthBit]

@[simp] theorem fieldN_format1 : fieldN (format1 p w k x op) = BitVec.ofNat 3 (8 - k) := by
  simp (disch := decide) only [fieldN, format1, BitVec.extractLsb'_append_eq_of_le, Nat.reduceSub,
    BitVec.extractLsb'_append_eq_right]

@[simp] theorem fieldX_format1 : fieldX (format1 p w k x op) = x := by
  simp (disch := decide) only [fieldX, format1, BitVec.extractLsb'_append_eq_of_le, Nat.reduceSub,
    BitVec.extractLsb'_append_eq_right]

/-- The constant of the DEX group is read back (R87). -/
theorem constant_format1 {k : Nat} (hk : WellFormed.count k = true) : Decode.constant (format1 p w k x op) = k := by
  simp only [WellFormed.count, Bool.and_eq_true, decide_eq_true_eq] at hk
  rw [Decode.constant, fieldN_format1, BitVec.toNat_ofNat]
  omega

end Format1

section Format2
variable (v : BitVec 7)

@[simp] theorem fieldOp_format2 : fieldOp (format2 p v op) = op := BitVec.extractLsb'_append_eq_right

@[simp] theorem fieldP_format2 : fieldP (format2 p v op) = p := by
  simp only [fieldP, format2, BitVec.getLsbD_append, Nat.reduceLT, Nat.reduceSub, reduceIte, BitVec.getLsbD_ofBool,
    decide_true, Bool.true_and]

@[simp] theorem fieldV_format2 : fieldV (format2 p v op) = v := by
  simp (disch := decide) only [fieldV, format2, BitVec.extractLsb'_append_eq_of_le, Nat.reduceSub,
    BitVec.extractLsb'_append_eq_right]

end Format2

section Format3
variable (ix : Index)

@[simp] theorem fieldOp_format3 : fieldOp (format3 p w r ix op) = op := BitVec.extractLsb'_append_eq_right

@[simp] theorem fieldP_format3 : fieldP (format3 p w r ix op) = p := by
  simp only [fieldP, format3, BitVec.getLsbD_append, Nat.reduceLT, Nat.reduceSub, reduceIte, BitVec.getLsbD_ofBool,
    decide_true, Bool.true_and]

@[simp] theorem fieldD_format3 : fieldD (format3 p w r ix op) = w := by
  simp only [fieldD, format3, BitVec.getLsbD_append, Nat.reduceLT, Nat.reduceSub, reduceIte, width_of_widthBit]

@[simp] theorem fieldR_format3 : fieldR (format3 p w r ix op) = r := by
  simp (disch := decide) only [fieldR, format3, BitVec.extractLsb'_append_eq_of_le, Nat.reduceSub,
    BitVec.extractLsb'_append_eq_right, main]

@[simp] theorem fieldI_format3 : fieldI (format3 p w r ix op) = ix.size := by
  simp only [fieldI, format3, BitVec.getLsbD_append, Nat.reduceLT, Nat.reduceSub, reduceIte, width_of_widthBit]

@[simp] theorem fieldX_format3 : fieldX (format3 p w r ix op) = ix.reg.number := by
  simp (disch := decide) only [fieldX, format3, BitVec.extractLsb'_append_eq_of_le, Nat.reduceSub,
    BitVec.extractLsb'_append_eq_right]

end Format3

end Fields

/-- What field X selects is read back (R86). -/
@[simp] theorem indexReg_ofNumber_number (t : IndexReg) : IndexReg.ofNumber t.number = t := by
  cases t with
  | g3 g => cases g <;> rfl
  | file i => fin_cases i <;> rfl

/-- The register of DES and INS is read back (47_group7_index_incdec.md R286). -/
@[simp] theorem g3_ofNumber_fileNumber (g : G3) :
    G3.ofNumber ((IndexReg.file g.number).number.extractLsb' 0 2).toFin = g := by
  cases g <;> rfl

/-- Fields X and I are read back. -/
@[simp] theorem index_format3 (p : Bool) (w : Width) (r : Fin 4) (ix : Index) (op : Byte) :
    Decode.index (format3 p w r ix op) = ix := by
  rw [Decode.index, fieldX_format3, fieldI_format3, indexReg_ofNumber_number]

/-- The register of an `acc` mode is read back: the mask of field S is its own inverse (R88). -/
@[simp] theorem accReg_format0 (p : Bool) (w : Width) (r : Fin 4) (s : Reg) (op : Byte) :
    Decode.accReg (format0 p w r (s.number ^^^ 0b1100) op) = s := by
  rw [Decode.accReg, fieldS_format0, BitVec.xor_assoc, BitVec.xor_self, BitVec.xor_zero, Reg.ofNumber_number]

/-- A stack register is read back (R88). -/
@[simp] theorem stackReg_format0 (p : Bool) (w : Width) (r : Fin 4) (s : Reg) (op : Byte) :
    Decode.stackReg (format0 p w r s.number op) = s := by
  rw [Decode.stackReg, fieldS_format0, Reg.ofNumber_number]

end Sys2Proof.Encode

/-! ## Decoding what was encoded (30_encoding.md R93 to R112)

One law for each shape of encoding: if the grid has the instruction's slot where its rule puts the opcode, the decoder
gives the instruction back. -/

namespace Sys2Proof.Encode
open Sys2Proof.Machine

/-- An assigned slot makes the instruction. -/
theorem decode_of_slot {w : Word} {make : Word → Word → Word → Instr}
    (h : Decode.slot (fieldP w) (fieldOp w) = some make) (o1 o2 : Word) : decode w o1 o2 = .ok (make w o1 o2) := by
  rw [decode, h]

/-- How the decoder assembles each memory mode. -/
def assembly : MemKind → Decode.Assembly
  | .zp => Decode.zp
  | .zpX => Decode.zpX
  | .zpY => Decode.zpY
  | .abs => Decode.abs
  | .absX => Decode.absX
  | .absY => Decode.absY
  | .ind => Decode.ind
  | .indX => Decode.indX
  | .indY => Decode.indY
  | .zpIndX => Decode.zpIndX
  | .zpIndY => Decode.zpIndY

/-- A memory mode is assembled again from its index fields and its operand words. -/
theorem assembly_modeWords {w : Word} {m : MemMode} (h : Decode.index w = indexOf m) (rest : List Word) :
    assembly m.kind w ((modeWords m ++ rest).getD 0 0) ((modeWords m ++ rest).getD 1 0) = m := by
  cases m <;> simp_all [assembly, MemMode.kind, modeWords, indexOf, join_split, Decode.zp, Decode.zpX, Decode.zpY,
    Decode.abs, Decode.absX, Decode.absY, Decode.ind, Decode.indX, Decode.indY, Decode.zpIndX, Decode.zpIndY]

/-- The byte of a value word. -/
theorem lowByte_valueWord (v : Long) : lowByte (0xFF#8 ++ v.extractLsb' 0 8) = v.extractLsb' 0 8 :=
  BitVec.extractLsb'_append_eq_right

/-- An immediate is read back from its words (R95). -/
theorem immediate_valueWords {w : Width} {v : Long} (h : WellFormed.immediate w v = true) (rest : List Word) :
    Decode.immediate w ((valueWords w v ++ rest).getD 0 0) ((valueWords w v ++ rest).getD 1 0) = v := by
  cases w with
  | byte =>
    have hv : v.toNat < 256 := by simpa [WellFormed.immediate] using h
    simp only [Decode.immediate, valueWords, List.cons_append, List.getD_cons_zero, lowByte_valueWord, zext]
    apply BitVec.eq_of_toNat_eq
    rw [BitVec.toNat_setWidth, toNat_extractLsb'_eq_div_mod]
    omega
  | long => exact join_split v

/-- A displacement is read back from its words (R105). -/
theorem displacement_valueWords {w : Width} {d : Long} (h : WellFormed.displacement w d = true) (rest : List Word) :
    Decode.displacement w ((valueWords w d ++ rest).getD 0 0) ((valueWords w d ++ rest).getD 1 0) = d := by
  cases w with
  | byte =>
    simp only [Decode.displacement, valueWords, List.cons_append, List.getD_cons_zero, lowByte_valueWord, sext]
    rw [← BitVec.setWidth_eq_extractLsb' (by decide)]
    exact (beq_iff_eq.mp h).symm
  | long => exact join_split d

/-- The words of a list that begins with an opcode word. -/
theorem decodeWords_cons (c : Word) (l : List Word) : decodeWords (c :: l) = decode c (l.getD 0 0) (l.getD 1 0) := by
  simp [decodeWords]

section Shapes
variable {p : Bool} {w : Width} {r : Fin 4} {op : Byte} (rest : List Word)

/-- An instruction with a memory mode. -/
theorem decode_memory {k : Width → Fin 4 → MemMode → Instr} {ops : MemKind → Option Byte} {ks : List MemKind}
    (hslot : ∀ kind ∈ ks, (ops kind).bind (Decode.slot p) = Decode.mem k (assembly kind))
    {m : MemMode} (hm : WellFormed.mode ks m = true) : decodeWords (memory p w r ops m ++ rest) = .ok (k w r m) := by
  have hs := hslot m.kind (List.contains_iff_mem.mp hm)
  obtain ⟨b, hb, hs⟩ := Option.bind_eq_some_iff.mp hs
  rw [memory, hb]
  show decodeWords (_ :: (modeWords m ++ rest)) = _
  rw [decodeWords_cons, decode_of_slot (by rwa [fieldP_format3, fieldOp_format3]), fieldD_format3, fieldR_format3,
    assembly_modeWords (index_format3 _ _ _ _ _)]

/-- An instruction with a reading operand. -/
theorem decode_operand {k : Width → Fin 4 → Operand → Instr} {accOp : Option Byte} {ops : MemKind → Option Byte}
    {ks : List MemKind} {acc : Bool} (himm : Decode.slot p op = Decode.imm k)
    (hacc : acc = true → accOp.bind (Decode.slot p) = Decode.acc k)
    (hmem : ∀ kind ∈ ks, (ops kind).bind (Decode.slot p) = Decode.read k (assembly kind))
    {o : Operand} (ho : WellFormed.operand ks acc w o = true) :
    decodeWords (operand p w r op accOp ops o ++ rest) = .ok (k w r o) := by
  cases o with
  | imm v =>
    show decodeWords (_ :: (valueWords w v ++ rest)) = _
    rw [decodeWords_cons, decode_of_slot (by rwa [fieldP_format3, fieldOp_format3]), fieldD_format3, fieldR_format3,
      immediate_valueWords ho]
  | acc s =>
    obtain ⟨b, rfl, hs⟩ := Option.bind_eq_some_iff.mp (hacc ho)
    show decodeWords (_ :: rest) = _
    rw [decodeWords_cons, decode_of_slot (by rwa [fieldP_format0, fieldOp_format0]), fieldD_format0, fieldR_format0,
      accReg_format0]
  | mem m => exact decode_memory (k := fun w r m => k w r (.mem m)) rest hmem ho

/-- A reading instruction of group 0 (R130). -/
theorem decode_adcGroup {k : Width → Fin 4 → Operand → Instr} {base off : Byte}
    (himm : Decode.slot p (base + 0x09) = Decode.imm k) (hacc : Decode.slot p (base + off) = Decode.acc k)
    (hmem : ∀ kind ∈ WellFormed.group0, (group0 base kind).bind (Decode.slot p) = Decode.read k (assembly kind))
    {o : Operand} (ho : WellFormed.operand WellFormed.group0 true w o = true) :
    decodeWords (adcGroup p base off w r o ++ rest) = .ok (k w r o) :=
  decode_operand (accOp := some (base + off)) rest himm (fun _ => hacc) hmem ho

/-- An instruction with a place to read and write, and a main register. -/
theorem decode_exchange {k : Width → Fin 4 → Place → Instr} {base off : Byte}
    (hacc : Decode.slot p (base + off) = Decode.accExg k)
    (hmem : ∀ kind ∈ WellFormed.group1, (group1 base kind).bind (Decode.slot p) = Decode.exchange k (assembly kind))
    {q : Place} (hq : WellFormed.place q = true) : decodeWords (aslGroup p base off w r q ++ rest) = .ok (k w r q) := by
  cases q with
  | acc s =>
    show decodeWords (_ :: rest) = _
    rw [decodeWords_cons, decode_of_slot (by rwa [fieldP_format0, fieldOp_format0]), fieldD_format0, fieldR_format0,
      accReg_format0]
  | mem m => exact decode_memory (k := fun w r m => k w r (.mem m)) rest hmem hq

/-- An instruction with a place and no main register. -/
theorem decode_place {k : Width → Place → Instr} {base off : Byte}
    (hacc : Decode.slot p (base + off) = Decode.accPlace k)
    (hmem : ∀ kind ∈ WellFormed.group1, (group1 base kind).bind (Decode.slot p) = Decode.place k (assembly kind))
    {q : Place} (hq : WellFormed.place q = true) : decodeWords (aslGroup p base off w r q ++ rest) = .ok (k w q) := by
  cases q with
  | acc s =>
    show decodeWords (_ :: rest) = _
    rw [decodeWords_cons, decode_of_slot (by rwa [fieldP_format0, fieldOp_format0]), fieldD_format0, accReg_format0]
  | mem m => exact decode_memory (k := fun w _ m => k w (.mem m)) rest hmem hq

/-- A branch. -/
theorem decode_branch {k : Width → Long → Instr} {n : BitVec 3} (hslot : Decode.slot p (n ++ 0x10#5) = Decode.rel k)
    {d : Long} (hd : WellFormed.displacement w d = true) : decodeWords (branch p n w d ++ rest) = .ok (k w d) := by
  show decodeWords (_ :: (valueWords w d ++ rest)) = _
  rw [decodeWords_cons, decode_of_slot (by rwa [fieldP_format3, fieldOp_format3]), fieldD_format3,
    displacement_valueWords hd]

/-- BRK. -/
theorem decode_vector {k : BitVec 7 → Instr} (hslot : Decode.slot p op = Decode.vector k) (v : BitVec 7) :
    decodeWords ([format2 p v op] ++ rest) = .ok (k v) := by
  rw [List.singleton_append, decodeWords_cons, decode_of_slot (by rwa [fieldP_format2, fieldOp_format2]),
    fieldV_format2]

/-- An instruction without operand. -/
theorem decode_flag {i : Instr} (hslot : Decode.slot p op = Decode.implied i) :
    decodeWords (flag p op ++ rest) = .ok i := by
  show decodeWords (_ :: rest) = _
  rw [decodeWords_cons, decode_of_slot (by rwa [fieldP_format3, fieldOp_format3])]

/-- An instruction of the DEX group on a register of its own file. -/
theorem decode_count {k : Width → Nat → IndexReg → Instr} (hslot : Decode.slot p op = Decode.count k) {n : Nat}
    (hn : WellFormed.count n = true) (t : IndexReg) :
    decodeWords (dexGroup p op w n t.number ++ rest) = .ok (k w n t) := by
  show decodeWords (_ :: rest) = _
  rw [decodeWords_cons, decode_of_slot (by rwa [fieldP_format1, fieldOp_format1]), fieldD_format1, fieldX_format1,
    constant_format1 _ _ _ _ hn, indexReg_ofNumber_number]

/-- An instruction of the DEX group on a register of the fourth group. -/
theorem decode_countG {k : Width → Nat → G3 → Instr} (hslot : Decode.slot p op = Decode.countG k) {n : Nat}
    (hn : WellFormed.count n = true) (g : G3) :
    decodeWords (dexGroup p op w n (IndexReg.file g.number).number ++ rest) = .ok (k w n g) := by
  show decodeWords (_ :: rest) = _
  rw [decodeWords_cons, decode_of_slot (by rwa [fieldP_format1, fieldOp_format1]), fieldD_format1, fieldX_format1,
    constant_format1 _ _ _ _ hn, g3_ofNumber_fileNumber]

/-- A push or a pull of a main register. -/
theorem decode_stack {k : Width → Fin 4 → Reg → Instr} (hslot : Decode.slot p op = Decode.stack k) (s : Reg) :
    decodeWords (register p op w r s.number ++ rest) = .ok (k w r s) := by
  show decodeWords (_ :: rest) = _
  rw [decodeWords_cons, decode_of_slot (by rwa [fieldP_format0, fieldOp_format0]), fieldD_format0, fieldR_format0,
    stackReg_format0]

/-- An instruction with a stack register alone. -/
theorem decode_stackOnly {k : Reg → Instr} (hslot : Decode.slot p op = Decode.stackOnly k) (s : Reg) :
    decodeWords (register p op w r s.number ++ rest) = .ok (k s) := by
  show decodeWords (_ :: rest) = _
  rw [decodeWords_cons, decode_of_slot (by rwa [fieldP_format0, fieldOp_format0]), stackReg_format0]

/-- PSH and POP. -/
theorem decode_stackImm {k : Width → Long → Reg → Instr} (hslot : Decode.slot p op = Decode.stackImm k) {v : Long}
    (hv : WellFormed.immediate w v = true) (s : Reg) :
    decodeWords ((format0 p w r s.number op :: valueWords w v) ++ rest) = .ok (k w v s) := by
  rw [List.cons_append, decodeWords_cons, decode_of_slot (by rwa [fieldP_format0, fieldOp_format0]), fieldD_format0,
    stackReg_format0, immediate_valueWords hv]

/-- A transfer, with the mask of its second register. -/
theorem decode_transfer {k : Width → Fin 4 → Reg → Instr} {mask : BitVec 4}
    (hslot : Decode.slot p op = Decode.transfer k mask) (s : Reg) :
    decodeWords (register p op w r (s.number ^^^ mask) ++ rest) = .ok (k w r s) := by
  show decodeWords (_ :: rest) = _
  rw [decodeWords_cons, decode_of_slot (by rwa [fieldP_format0, fieldOp_format0]), fieldD_format0, fieldR_format0,
    fieldS_format0, BitVec.xor_assoc, BitVec.xor_self, BitVec.xor_zero, Reg.ofNumber_number]

end Shapes

end Sys2Proof.Encode

namespace Sys2Proof.Machine
open Encode
/-- Settles O1: for each shape of encoding its law, for each instruction the slots that its opcodes name
in the grids. -/
theorem decodeOfEncodeIsTheInstruction : Obligations.DecodeOfEncodeIsTheInstruction := by
  intro i rest h
  cases i <;> rw [encode]
  case ora | and | eor | adc | lda | cmp | sbc | add | sub =>
    exact decode_adcGroup rest (by rfl) (by rfl) (by intro kind hk; fin_cases hk <;> rfl) h
  case ads w g o =>
    rw [decode_adcGroup (k := fun w r o => .ads w (.ofNumber r) o) rest (by rfl) (by rfl)
      (by intro kind hk; fin_cases hk <;> rfl) h, G3.ofNumber_number]
  case sbs w g o =>
    rw [decode_adcGroup (k := fun w r o => .sbs w (.ofNumber r) o) rest (by rfl) (by rfl)
      (by intro kind hk; fin_cases hk <;> rfl) h, G3.ofNumber_number]
  case sts w g m =>
    rw [decode_memory (k := fun w r m => .sts w (.ofNumber r) m) rest (by intro kind hk; fin_cases hk <;> rfl) h,
      G3.ofNumber_number]
  case ldx | ldy | adx | ady =>
    exact decode_operand (acc := false) rest (by rfl) nofun (by intro kind hk; fin_cases hk <;> rfl) h
  case cpx | cpy | sbx =>
    exact decode_operand (acc := true) rest (by rfl) (fun _ => by rfl) (by intro kind hk; fin_cases hk <;> rfl) h
  case sta | stx | sty | bit =>
    exact decode_memory rest (by intro kind hk; fin_cases hk <;> rfl) h
  case jmp m =>
    exact decode_memory (k := fun _ _ => .jmp) rest (by intro kind hk; fin_cases hk <;> rfl) h
  case jsr m =>
    exact decode_memory (k := fun _ _ => .jsr) rest (by intro kind hk; fin_cases hk <;> rfl) h
  case exg =>
    exact decode_exchange rest (by rfl) (by intro kind hk; fin_cases hk <;> rfl) h
  case asl | lsr | rol | ror | dec | inc | asr =>
    exact decode_place rest (by rfl) (by intro kind hk; fin_cases hk <;> rfl) h
  case bpl | bmi | bvc | bvs | bcc | bcs | bne | beq | bge | blt | ble | bgt | bls | bhi | bnv | bra =>
    exact decode_branch rest (by rfl) h
  case brk v => exact decode_vector rest (by rfl) v
  case clc | sec | cli | sei | clv | cld | sed | nop | sev | wai => exact decode_flag rest (by rfl)
  case dex | dey | inx | iny | ina => exact decode_count rest (by rfl) h _
  case des | ins => exact decode_countG rest (by rfl) h _
  case pha | pla | phx | phy | plx | ply => exact decode_stack rest (by rfl) _
  case php | plp | rti | rts => exact decode_stackOnly rest (by rfl) _
  case psh | pop => exact decode_stackImm rest (by rfl) h _
  case tax | tay | txa | tya | txy | tyx | tyy | txx => exact decode_transfer rest (by rfl) _
  case tsx w r s | txs w r s =>
    rw [← BitVec.xor_zero (x := s.number)]
    exact decode_transfer rest (by rfl) s

end Sys2Proof.Machine

/-! ## What the slots of the grids make (30_encoding.md R84 to R105)

Every slot of the two grids makes well-formed instructions that look at no word past their end. One rule for each
shape of slot; the grids are walked once. -/

namespace Sys2Proof.Decode
open Machine

/-- The constant of an instruction of the DEX group. -/
def countOf : Instr → Option Nat
  | .dex _ k _ | .dey _ k _ | .inx _ k _ | .iny _ k _ | .ina _ k _ | .des _ k _ | .ins _ k _ => some k
  | _ => none

/-- What a slot of a grid guarantees of the instructions it makes. -/
structure Sound (make : Word → Word → Word → Instr) : Prop where
  wf : ∀ w o1 o2, (make w o1 o2).wf = true
  count : ∀ w o1 o2 k, countOf (make w o1 o2) = some k → k + (fieldN w).toNat = 8
  len : ∀ w o1 o2, 1 ≤ (make w o1 o2).len ∧ (make w o1 o2).len ≤ 3
  two : ∀ w o1 o2 q, (make w o1 o2).len ≤ 2 → make w o1 q = make w o1 o2
  one : ∀ w o1 o2 p q, (make w o1 o2).len = 1 → make w p q = make w o1 o2

/-- A slot that is unassigned, or makes sound instructions. -/
def SoundSlot (sl : Slot) : Prop := ∀ make, sl = some make → Sound make

theorem soundSlot_none : SoundSlot none := nofun

section Fixed
variable {make : Word → Word → Word → Instr} (hwf : ∀ w o1 o2, (make w o1 o2).wf = true)
  (hcount : ∀ w o1 o2, countOf (make w o1 o2) = none)
include hwf hcount

/-- An instruction of one word, but for the DEX group. -/
theorem soundSlot_oneWord (hlen : ∀ w o1 o2, (make w o1 o2).len = 1)
    (heq : ∀ w o1 o2 p q, make w p q = make w o1 o2) : SoundSlot (some make) := by
  rintro _ ⟨⟩
  refine ⟨hwf, ?_, ?_, fun w o1 o2 q _ => heq w o1 o2 o1 q, fun w o1 o2 p q _ => heq w o1 o2 p q⟩ <;>
    simp [hcount, hlen]

/-- An instruction with a zero-page mode. -/
theorem soundSlot_twoWords (hlen : ∀ w o1 o2, (make w o1 o2).len = 2)
    (heq : ∀ w o1 o2 q, make w o1 q = make w o1 o2) : SoundSlot (some make) := by
  rintro _ ⟨⟩
  refine ⟨hwf, ?_, ?_, fun w o1 o2 q _ => heq w o1 o2 q, ?_⟩ <;> simp [hcount, hlen]

/-- An instruction with an absolute mode. -/
theorem soundSlot_threeWords (hlen : ∀ w o1 o2, (make w o1 o2).len = 3) : SoundSlot (some make) := by
  rintro _ ⟨⟩
  refine ⟨hwf, ?_, ?_, ?_, ?_⟩ <;> simp [hcount, hlen]

end Fixed

/-- An instruction with an immediate or a displacement, which `value` reads at the width of field D. -/
theorem soundSlot_value {value : Width → Word → Word → Long} (hvalue : ∀ o1 p q, value .byte o1 p = value .byte o1 q)
    {make : Word → Long → Instr} (hwf : ∀ w o1 o2, (make w (value (fieldD w) o1 o2)).wf = true)
    (hcount : ∀ w v, countOf (make w v) = none) (hlen : ∀ w v, (make w v).len = (fieldD w).len) :
    SoundSlot (some fun w o1 o2 => make w (value (fieldD w) o1 o2)) := by
  rintro _ ⟨⟩
  have hbyte : ∀ w, (fieldD w).len ≤ 2 → fieldD w = .byte := fun w h => by
    cases hd : fieldD w with
    | byte => rfl
    | long => rw [hd] at h; exact absurd h (by decide)
  refine ⟨hwf, fun w o1 o2 k hk => ?_, fun w o1 o2 => ?_, fun w o1 o2 q h => ?_, fun w o1 o2 p q h => ?_⟩
  · rw [hcount] at hk
    cases hk
  · rw [hlen]
    cases fieldD w <;> decide
  · rw [hlen] at h
    rw [hbyte w h, hvalue]
  · rw [hlen] at h
    cases hd : fieldD w <;> rw [hd] at h <;> cases h

/-- What the decoder reads as an immediate is one (R95). -/
theorem wellFormed_immediate (w : Width) (o1 o2 : Word) : WellFormed.immediate w (immediate w o1 o2) = true := by
  cases w with
  | byte =>
    simp only [WellFormed.immediate, immediate, zext, BitVec.toNat_setWidth, lowByte_toNat, decide_eq_true_eq]
    omega
  | long => rfl

/-- What the decoder reads as a displacement is one (R105). -/
theorem wellFormed_displacement (w : Width) (o1 o2 : Word) :
    WellFormed.displacement w (displacement w o1 o2) = true := by
  cases w with
  | byte =>
    have h (b : Byte) : (b.signExtend 32).setWidth 8 = b := by
      ext i hi
      simp [BitVec.getLsbD_signExtend, hi]
      omega
    rw [WellFormed.displacement, displacement, sext, h, beq_self_eq_true]
  | long => rfl

theorem soundSlot_imm {k : Width → Fin 4 → Operand → Instr}
    (h : ∀ w r v, (k w r (.imm v)).wf = WellFormed.immediate w v ∧ countOf (k w r (.imm v)) = none ∧
      (k w r (.imm v)).len = w.len) : SoundSlot (imm k) :=
  soundSlot_value (value := immediate) (make := fun w v => k (fieldD w) (fieldR w) (.imm v)) (fun _ _ _ => rfl)
    (fun _ o1 o2 => (h _ _ _).1.trans (wellFormed_immediate _ o1 o2)) (fun _ _ => (h _ _ _).2.1)
    (fun _ _ => (h _ _ _).2.2)

theorem soundSlot_immG {k : Width → G3 → Operand → Instr}
    (h : ∀ w g v, (k w g (.imm v)).wf = WellFormed.immediate w v ∧ countOf (k w g (.imm v)) = none ∧
      (k w g (.imm v)).len = w.len) : SoundSlot (immG k) :=
  soundSlot_imm (k := fun w r o => k w (G3.ofNumber r) o) fun _ _ _ => h _ _ _

theorem soundSlot_stackImm {k : Width → Long → Reg → Instr}
    (h : ∀ w v s, (k w v s).wf = WellFormed.immediate w v ∧ countOf (k w v s) = none ∧ (k w v s).len = w.len) :
    SoundSlot (stackImm k) :=
  soundSlot_value (value := immediate) (make := fun w v => k (fieldD w) v (stackReg w)) (fun _ _ _ => rfl)
    (fun _ o1 o2 => (h _ _ _).1.trans (wellFormed_immediate _ o1 o2)) (fun _ _ => (h _ _ _).2.1)
    (fun _ _ => (h _ _ _).2.2)

theorem soundSlot_rel {k : Width → Long → Instr}
    (h : ∀ w d, (k w d).wf = WellFormed.displacement w d ∧ countOf (k w d) = none ∧ (k w d).len = w.len) :
    SoundSlot (rel k) :=
  soundSlot_value (value := displacement) (make := fun w v => k (fieldD w) v) (fun _ _ _ => rfl)
    (fun _ o1 o2 => (h _ _).1.trans (wellFormed_displacement _ o1 o2)) (fun _ _ => (h _ _).2.1) (fun _ _ => (h _ _).2.2)

/-- The constant of the DEX group is `8 - xN` (R87). -/
theorem constant_add_fieldN (w : Word) : constant w + (fieldN w).toNat = 8 := by
  have := (fieldN w).isLt
  rw [constant]
  omega

/-- The constant of the DEX group is 1 to 8 (R87). -/
theorem wellFormed_constant (w : Word) : WellFormed.count (constant w) = true := by
  have := (fieldN w).isLt
  rw [WellFormed.count, constant, Bool.and_eq_true, decide_eq_true_eq, decide_eq_true_eq]
  omega

/-- An instruction of the DEX group. -/
theorem soundSlot_constant {make : Word → Nat → Instr}
    (h : ∀ w n, (make w n).wf = WellFormed.count n ∧ countOf (make w n) = some n ∧ (make w n).len = 1) :
    SoundSlot (some fun w _ _ => make w (constant w)) := by
  rintro _ ⟨⟩
  refine ⟨fun w _ _ => (h w _).1.trans (wellFormed_constant w), fun w _ _ n hn => ?_, fun w _ _ => ?_,
    fun _ _ _ _ _ => rfl, fun _ _ _ _ _ _ => rfl⟩
  · cases (h w _).2.1.symm.trans hn
    exact constant_add_fieldN w
  · rw [(h w _).2.2]
    decide

theorem soundSlot_count {k : Width → Nat → IndexReg → Instr}
    (h : ∀ w n t, (k w n t).wf = WellFormed.count n ∧ countOf (k w n t) = some n ∧ (k w n t).len = 1) :
    SoundSlot (count k) :=
  soundSlot_constant (make := fun w n => k (fieldD w) n (IndexReg.ofNumber (fieldX w))) fun _ _ => h _ _ _

theorem soundSlot_countG {k : Width → Nat → G3 → Instr}
    (h : ∀ w n g, (k w n g).wf = WellFormed.count n ∧ countOf (k w n g) = some n ∧ (k w n g).len = 1) :
    SoundSlot (countG k) :=
  soundSlot_constant (make := fun w n => k (fieldD w) n (G3.ofNumber ((fieldX w).extractLsb' 0 2).toFin))
    fun _ _ => h _ _ _

/-- Every slot of the two grids, each by the rule of its shape. -/
theorem grids_sound :
    (∀ row ∈ standardGrid, ∀ sl ∈ row, SoundSlot sl) ∧ ∀ row ∈ alternateGrid, ∀ sl ∈ row, SoundSlot sl := by
  simp only [standardGrid, alternateGrid, List.forall_mem_cons, List.not_mem_nil, false_imp_iff, implies_true, and_true]
  repeat' apply And.intro
  all_goals
    first  -- the rule for the slot's shape
      | exact soundSlot_none
      | with_reducible apply soundSlot_imm; exact fun _ _ _ => ⟨rfl, rfl, rfl⟩
      | with_reducible apply soundSlot_immG; exact fun _ _ _ => ⟨rfl, rfl, rfl⟩
      | with_reducible apply soundSlot_stackImm; exact fun _ _ _ => ⟨rfl, rfl, rfl⟩
      | with_reducible apply soundSlot_rel; exact fun _ _ => ⟨rfl, rfl, rfl⟩
      | with_reducible apply soundSlot_count; exact fun _ _ _ => ⟨rfl, rfl, rfl⟩
      | with_reducible apply soundSlot_countG; exact fun _ _ _ => ⟨rfl, rfl, rfl⟩
      | exact soundSlot_threeWords (fun _ _ _ => rfl) (fun _ _ _ => rfl) (fun _ _ _ => rfl)
      | exact soundSlot_twoWords (fun _ _ _ => rfl) (fun _ _ _ => rfl) (fun _ _ _ => rfl) (fun _ _ _ _ => rfl)
      | exact soundSlot_oneWord (fun _ _ _ => rfl) (fun _ _ _ => rfl) (fun _ _ _ => rfl) (fun _ _ _ _ _ => rfl)

/-- An entry of a table is in the table, or stands for a place outside it. -/
theorem getD_induction {α : Type} {P : α → Prop} {l : List α} {d : α} (hd : P d) (h : ∀ x ∈ l, P x) (n : Nat) :
    P (l.getD n d) := by
  rw [List.getD_eq_getElem?_getD]
  cases hn : l[n]? with
  | none => exact hd
  | some x => exact h x (List.mem_of_getElem? hn)

/-- Every slot makes sound instructions. -/
theorem slot_sound (p : Bool) (op : Byte) : SoundSlot (slot p op) := by
  refine getD_induction soundSlot_none ?_ _
  refine getD_induction (P := fun row => ∀ sl ∈ row, SoundSlot sl) (fun _ h => absurd h List.not_mem_nil) ?_ _
  cases p with
  | false => exact grids_sound.2
  | true => exact grids_sound.1

/-- An instruction the decoder answers was made by a sound slot. -/
theorem sound_of_decode {w o1 o2 : Word} {i : Instr} (h : decode w o1 o2 = .ok i) :
    ∃ make, Sound make ∧ i = make w o1 o2 ∧ ∀ p q, decode w p q = .ok (make w p q) := by
  cases hs : slot (fieldP w) (fieldOp w) with
  | none =>
    rw [decode, hs] at h
    cases h
  | some make =>
    rw [Encode.decode_of_slot hs] at h
    cases h
    exact ⟨make, slot_sound _ _ make hs, rfl, fun p q => Encode.decode_of_slot hs p q⟩

/-- The decoder refuses an opcode word exactly when its slot is unassigned. -/
theorem decode_eq_error_iff (w o1 o2 : Word) :
    decode w o1 o2 = .error (.unassigned (fieldP w) (fieldOp w)) ↔ (slot (fieldP w) (fieldOp w)).isNone = true := by
  rw [decode]
  cases slot (fieldP w) (fieldOp w) <;> simp

end Sys2Proof.Decode

namespace Sys2Proof.Machine
open Decode

/-- Settles O2: the slot that made the instruction is sound. -/
theorem decodedInstructionIsWellFormed : Obligations.DecodedInstructionIsWellFormed := by
  intro w o1 o2 i h
  obtain ⟨make, hmake, rfl, -⟩ := sound_of_decode h
  exact hmake.wf w o1 o2

/-- The 256 bytes, in order. -/
def bytes : List Byte := (List.range 256).map (BitVec.ofNat 8)

/-- A list that holds the bytes with a property, in order, tells which bytes have it. -/
theorem iff_mem_of_filter_bytes {f : Byte → Bool} {l : List Byte} (h : bytes.filter f = l) (b : Byte) :
    f b = true ↔ b ∈ l := by
  have hb : b ∈ bytes := List.mem_map.mpr ⟨b.toNat, List.mem_range.mpr b.isLt, BitVec.eq_of_toNat_eq (by simp)⟩
  rw [← h, List.mem_filter]
  exact (and_iff_right hb).symm

/-- Settles O3: the two lists are the bytes whose slots are unassigned, or assigned, by evaluating all 512 slots. -/
theorem decoderRefusesExactlyTheUnassignedSlots : Obligations.DecoderRefusesExactlyTheUnassignedSlots := by
  unfold Obligations.DecoderRefusesExactlyTheUnassignedSlots
  intro unassignedStandard assignedAlternate w o1 o2
  have hstandard : bytes.filter (fun op => (slot true op).isNone) = unassignedStandard := by decide +kernel
  have halternate : bytes.filter (fun op => (slot false op).isSome) = assignedAlternate := by decide +kernel
  refine ⟨(decode_eq_error_iff w o1 o2).trans ?_, ?_⟩
  · show _ ↔ if fieldP w = true then fieldOp w ∈ unassignedStandard else fieldOp w ∉ assignedAlternate
    cases fieldP w with
    | true => simpa using iff_mem_of_filter_bytes hstandard (fieldOp w)
    | false => simpa using not_congr (iff_mem_of_filter_bytes halternate (fieldOp w))
  · cases hs : slot (fieldP w) (fieldOp w) with
    | none => exact .inr ((decode_eq_error_iff w o1 o2).mpr (by rw [hs]; rfl))
    | some make => exact .inl ⟨_, Encode.decode_of_slot hs o1 o2⟩

/-- The encoding of a well-formed instruction has the instruction's length (30_encoding.md R92): for each shape of
encoding its law. -/
theorem encode_length (i : Instr) : Laws.EncodedLength.Statement i := by
  intro h
  cases i
  case ora | and | eor | adc | lda | cmp | sbc | add | sub | ads | sbs => exact Laws.adcGroup_length _ _ _ _ h
  case ldx | ldy | adx | ady =>
    rw [encode]
    exact Laws.operand_length (acc := false) _ _ _ _ (by decide) nofun h
  case cpx | cpy | sbx =>
    rw [encode]
    exact Laws.operand_length (acc := true) _ _ _ _ (by decide) (fun _ => rfl) h
  case sta | sts => exact Laws.memory_length _ _ _ (Laws.group0_isSome _) h
  case stx | sty | bit | jmp | jsr => exact Laws.memory_length _ _ _ (by decide) h
  case asl | lsr | rol | ror | dec | inc | asr | exg => exact Laws.aslGroup_length _ _ _ _ _ h
  case psh | pop => exact Laws.value_length _ _ _
  case bpl | bmi | bvc | bvs | bcc | bcs | bne | beq | bge | blt | ble | bgt | bls | bhi | bnv | bra =>
    exact Laws.value_length _ _ _
  all_goals rfl

/-- Settles O4: the slot that made the instruction looks at its own words only; the encoder's half is the law of every
instruction. -/
theorem instructionDependsOnlyOnItsOwnWords : Obligations.InstructionDependsOnlyOnItsOwnWords := by
  refine ⟨fun w o1 o2 i h => ?_, fun i h => ?_⟩
  · obtain ⟨make, hmake, rfl, hdec⟩ := sound_of_decode h
    exact ⟨(hmake.len w o1 o2).1, (hmake.len w o1 o2).2, fun hl q => by rw [hdec, hmake.two w o1 o2 q hl],
      fun hl p q => by rw [hdec, hmake.one w o1 o2 p q hl]⟩
  · exact encode_length i h

/-- Settles O5: the slot that made the instruction has the constant of the field; INC and DEC step by 1 whatever
the word. -/
theorem countFieldGivesEightMinusN : Obligations.CountFieldGivesEightMinusN := by
  refine ⟨fun w o1 o2 i h k hi => ?_, fun w o1 o2 d p s hs => ⟨fun _ => ?_, fun _ => ?_⟩⟩
  · obtain ⟨make, hmake, rfl, -⟩ := sound_of_decode h
    refine hmake.count w o1 o2 k ?_
    obtain ⟨d, t, h | h | h | h | h⟩ | ⟨d, g, h | h⟩ := hi <;> rw [h, countOf]
  · exact ⟨_, rfl, (State.modify_spec hs d p _).1⟩
  · exact ⟨_, rfl, (State.modify_spec hs d p _).1⟩

/-- Settles O6: the eleven words, by evaluation. -/
theorem specEncodingsDecodeToTheirInstructions : Obligations.SpecEncodingsDecodeToTheirInstructions :=
  ⟨rfl, rfl, rfl, rfl, rfl, rfl, rfl, rfl, rfl, rfl, rfl⟩

/-- An opcode word whose fields P and `op` name a slot that makes `make`. -/
theorem decode_of_fields {w : Word} {p : Bool} {op : Byte} {make : Word → Word → Word → Instr}
    (hp : w.getLsbD 15 = p) (hop : w.extractLsb' 0 8 = op) (h : slot p op = some make) (o1 o2 : Word) :
    decode w o1 o2 = .ok (make w o1 o2) :=
  Encode.decode_of_slot (by rw [fieldP, fieldOp, hp, hop, h]) o1 o2

/-- Vector `V` lies at `$FFFFFF00 + 2*V`, without wrapping (60_exceptions.md R341). -/
theorem vectorAddress_toNat (v : BitVec 7) : (vectorAddress v).toNat = 0xFFFFFF00 + 2 * v.toNat := by
  have := v.isLt
  simp only [vectorAddress, zext]
  bv_omega

/-- Settles O8: the slot of BRK, whatever the other fields, and the address of its vector. -/
theorem breakVectorLiesAtTwiceItsNumber : Obligations.BreakVectorLiesAtTwiceItsNumber :=
  ⟨fun _ o1 o2 hp hop => decode_of_fields hp hop rfl o1 o2, vectorAddress_toNat, rfl⟩

/-- Settles O32: five slots whose instructions have no field, and four one-word meanings. -/
theorem clearSetCarryClearOverflowAndNop : Obligations.ClearSetCarryClearOverflowAndNop :=
  ⟨fun _ o1 o2 hp => ⟨fun hop => decode_of_fields hp hop rfl o1 o2, fun hop => decode_of_fields hp hop rfl o1 o2,
      fun hop => decode_of_fields hp hop rfl o1 o2, fun hop => decode_of_fields hp hop rfl o1 o2⟩,
    fun _ o1 o2 hp hop => decode_of_fields hp hop rfl o1 o2,
    fun _ => ⟨rfl, rfl, rfl, rfl⟩⟩

/-- Settles O33: six one-word meanings. -/
theorem interruptDecimalOverflowFlagsAndWait : Obligations.InterruptDecimalOverflowFlagsAndWait :=
  fun _ => ⟨rfl, rfl, rfl, rfl, rfl, rfl⟩

/-- Settles O58: the table of R92, mode by mode and constructor by constructor. -/
theorem instructionLengthsFollowTheTable : Obligations.InstructionLengthsFollowTheTable := by
  have value : ∀ w : Width, w.len = if w = .byte then 2 else 3 := by
    intro w
    cases w <;> rfl
  refine ⟨fun o b ix => ⟨?_, ?_⟩, fun w v r m => ⟨value w, rfl, rfl, rfl, rfl⟩, fun w r g o m p => ⟨?_, ?_, ?_⟩,
    fun w d sr => ?_, fun w r g v k x q => ?_⟩
  · simp [MemMode.len, MemMode.operandWords]
  · simp [MemMode.len, MemMode.operandWords]
  · intro i hi
    fin_cases hi <;> rfl
  · intro i hi
    fin_cases hi <;> rfl
  · intro i hi
    fin_cases hi <;> rfl
  · intro i hi
    fin_cases hi <;> exact value w
  · intro i hi
    fin_cases hi <;> rfl

end Sys2Proof.Machine

/-! ## The instructions by the operation they perform

`Op` has a constructor for each shape of effect; `Instr.op` says which one an instruction has and `exec_eq` that this is
what `exec` does. A fact about every instruction is then one case for each operation. -/

namespace Sys2Proof.Machine

open Config (ArithResult)

/-- The six flags by name (10_state.md R27). -/
inductive FlagName where
  | n
  | v
  | d
  | i
  | z
  | c
deriving DecidableEq

/-- The flag of a name. -/
def Flags.get (f : Flags) : FlagName → Bool
  | .n => f.n
  | .v => f.v
  | .d => f.d
  | .i => f.i
  | .z => f.z
  | .c => f.c

/-- Replace one flag. -/
def Flags.put (f : Flags) (b : Bool) : FlagName → Flags
  | .n => { f with n := b }
  | .v => { f with v := b }
  | .d => { f with d := b }
  | .i => { f with i := b }
  | .z => { f with z := b }
  | .c => { f with c := b }

/-- What an instruction does, by the shared operation that does it. -/
inductive Op where
  | logic (w : Width) (r : Reg) (o : Operand) (f : BitVec w.bits → BitVec w.bits → BitVec w.bits)
  | arith (w : Width) (r : Reg) (o : Operand) (f : Flags → BitVec w.bits → BitVec w.bits → ArithResult w.bits)
  | load (w : Width) (r : Reg) (o : Operand)
  | store (w : Width) (r : Reg) (m : MemMode)
  | compare (w : Width) (r : Reg) (o : Operand)
  | shift (w : Width) (p : Place) (f : Shift w.bits)
  | modify (w : Width) (p : Place) (f : BitVec w.bits → BitVec w.bits)
  | exchange (w : Width) (r : Fin 4) (p : Place)
  | branch (w : Width) (d : Long) (cond : Flags → Bool)
  | bit (w : Width) (r : Fin 4) (m : MemMode)
  | jump (m : MemMode)
  | call (m : MemMode)
  | trap (v : BitVec 7)
  | flag (x : FlagName) (b : Bool)
  | pass
  | wait
  | step (w : Width) (r : Reg) (f : BitVec w.bits → BitVec w.bits)
  | push (len : Nat) (w : Width) (sr : Reg) (datum : State → BitVec w.bits)
  | pull (w : Width) (dst sr : Reg)
  | pullStatus (sr : Reg)
  | discard (w : Width) (v : Long) (sr : Reg)
  | leaveTrap (sr : Reg)
  | returnCall (sr : Reg)
  | transfer (w : Width) (src dst : Reg)
  | copy (w : Width) (src dst : Reg)

/-- The state after an operation. -/
def Op.run (s : State) : Op → State
  | .logic w r o f => s.logic w r o f
  | .arith w r o f => s.arith w r o f
  | .load w r o => s.loadReg w r o
  | .store w r m => s.storeReg w r m
  | .compare w r o => s.compare w r o
  | .shift w p f => s.shift w p f
  | .modify w p f => s.modify w p f
  | .exchange w r p =>
    let u := s.advance p.len
    (u.writePlace w p (u.read (.a r) w)).writeNZ (.a r) w (u.placeValue w p)
  | .branch w d cond => s.branch w d (cond s.flags)
  | .bit w r m =>
    let u := s.advance m.len
    u.setFlags (u.flags.setBit (u.read (.a r) w) (u.load (u.ea m) w))
  | .jump m => (s.advance m.len).jump ((s.advance m.len).ea m)
  | .call m =>
    let u := s.advance m.len
    (u.push spReg .long (u.pc - 1)).jump (u.ea m)
  | .trap v => s.enterTrap (s.pc + 2) true (vectorAddress v)
  | .flag x b => (s.advance 1).setFlags (s.flags.put b x)
  | .pass => s.advance 1
  | .wait => { s.advance 1 with waiting := true }
  | .step w r f => s.stepReg w r f
  | .push len w sr datum => (s.advance len).push sr w (datum (s.advance len))
  | .pull w dst sr => s.pullReg w dst sr
  | .pullStatus sr => ((s.advance 1).pull sr .byte).setFlags (Flags.ofStatus ((s.advance 1).pulled sr .byte))
  | .discard w v sr => (s.advance w.len).setReg sr ((s.advance w.len).reg sr + zext (v.setWidth w.bits))
  | .leaveTrap sr => (s.advance 1).leaveTrap sr
  | .returnCall sr => (s.pull sr .long).jump (s.pulled sr .long + 1)
  | .transfer w src dst => s.transfer w src dst
  | .copy w src dst => (s.advance 1).write dst w ((s.advance 1).read src w)

end Sys2Proof.Machine

namespace Sys2Proof
open Machine

/-- The operation of an instruction. -/
def Instr.op : Instr → Op
  | .ora w r o => .logic w (.a r) o fun a m => a ||| m
  | .and w r o => .logic w (.a r) o fun a m => a &&& m
  | .eor w r o => .logic w (.a r) o fun a m => a ^^^ m
  | .adc w r o => .arith w (.a r) o fun f a m => addDecimal f.d a m f.c
  | .sta w r m => .store w (.a r) m
  | .lda w r o => .load w (.a r) o
  | .cmp w r o => .compare w (.a r) o
  | .sbc w r o => .arith w (.a r) o fun f a m => subDecimal f.d a m f.c
  | .add w r o => .arith w (.a r) o fun f a m => addDecimal f.d a m false
  | .sub w r o => .arith w (.a r) o fun f a m => subDecimal f.d a m true
  | .sts w g m => .store w (.g3 g) m
  | .ads w g o => .arith w (.g3 g) o fun _ a m => addCore a m false
  | .sbs w g o => .arith w (.g3 g) o fun _ a m => subCore a m true
  | .asl w p => .shift w p shiftLeft
  | .lsr w p => .shift w p shiftRight
  | .rol w p => .shift w p rotateLeft
  | .ror w p => .shift w p rotateRight
  | .dec w p => .modify w p fun t => t - 1
  | .inc w p => .modify w p fun t => t + 1
  | .asr w p => .shift w p arithmeticRight
  | .exg w r p => .exchange w r p
  | .bpl w d => .branch w d fun f => !f.n
  | .bmi w d => .branch w d fun f => f.n
  | .bvc w d => .branch w d fun f => !f.v
  | .bvs w d => .branch w d fun f => f.v
  | .bcc w d => .branch w d fun f => !f.c
  | .bcs w d => .branch w d fun f => f.c
  | .bne w d => .branch w d fun f => !f.z
  | .beq w d => .branch w d fun f => f.z
  | .bge w d => .branch w d fun f => f.n == f.v
  | .blt w d => .branch w d fun f => f.n != f.v
  | .ble w d => .branch w d fun f => f.z || f.n != f.v
  | .bgt w d => .branch w d fun f => !f.z && f.n == f.v
  | .bls w d => .branch w d fun f => !f.c || f.z
  | .bhi w d => .branch w d fun f => f.c && !f.z
  | .bnv w d => .branch w d fun _ => false
  | .bra w d => .branch w d fun _ => true
  | .bit w r m => .bit w r m
  | .jmp m => .jump m
  | .jsr m => .call m
  | .brk v => .trap v
  | .clc => .flag .c false
  | .sec => .flag .c true
  | .cli => .flag .i false
  | .sei => .flag .i true
  | .clv => .flag .v false
  | .cld => .flag .d false
  | .sed => .flag .d true
  | .nop => .pass
  | .sev => .flag .v true
  | .wai => .wait
  | .ldx w r o => .load w (.x r) o
  | .ldy w r o => .load w (.y r) o
  | .stx w r m => .store w (.x r) m
  | .sty w r m => .store w (.y r) m
  | .cpx w r o => .compare w (.x r) o
  | .cpy w r o => .compare w (.y r) o
  | .adx w r o => .arith w (.x r) o fun _ a m => addCore a m false
  | .ady w r o => .arith w (.y r) o fun _ a m => addCore a m false
  | .sbx w r o => .arith w (.x r) o fun _ a m => subCore a m true
  | .dex w k t => .step w (indexRegister .x t) fun a => a - BitVec.ofNat w.bits k
  | .dey w k t => .step w (indexRegister .y t) fun a => a - BitVec.ofNat w.bits k
  | .inx w k t => .step w (indexRegister .x t) fun a => a + BitVec.ofNat w.bits k
  | .iny w k t => .step w (indexRegister .y t) fun a => a + BitVec.ofNat w.bits k
  | .ina w k t => .step w (indexRegister .a t) fun a => a + BitVec.ofNat w.bits k
  | .des w k g => .step w (.g3 g) fun a => a - BitVec.ofNat w.bits k
  | .ins w k g => .step w (.g3 g) fun a => a + BitVec.ofNat w.bits k
  | .pha w r sr => .push 1 w sr fun s => s.read (.a r) w
  | .php sr => .push 1 .byte sr fun s => s.flags.status true
  | .pla w r sr => .pull w (.a r) sr
  | .plp sr => .pullStatus sr
  | .psh w v sr => .push w.len w sr fun _ => v.setWidth w.bits
  | .phx w r sr => .push 1 w sr fun s => s.read (.x r) w
  | .phy w r sr => .push 1 w sr fun s => s.read (.y r) w
  | .plx w r sr => .pull w (.x r) sr
  | .ply w r sr => .pull w (.y r) sr
  | .pop w v sr => .discard w v sr
  | .rti sr => .leaveTrap sr
  | .rts sr => .returnCall sr
  | .tax w r t => .transfer w (.a r) t
  | .tay w r t => .transfer w (.a r) t
  | .txa w r t => .transfer w t (.a r)
  | .tya w r t => .transfer w t (.a r)
  | .tsx w r t => .transfer w t (.x r)
  | .txs w r t => .copy w (.x r) t
  | .txy w r t => .transfer w t (.y r)
  | .tyx w r t => .transfer w t (.x r)
  | .tyy w r t => .transfer w (.y r) t
  | .txx w r t => .transfer w (.x r) t

end Sys2Proof

namespace Sys2Proof.Machine

/-- The outcome of an instruction that ends in `t`: a fault if its stack register is PC (48_group8_stack.md R290). -/
def outcome (sr : Option Reg) (t : State) : Host.Outcome State Fault Refusal :=
  match sr with
  | some sr => onStack sr t
  | none => .next t

/-- What every instruction does. -/
theorem exec_eq (i : Instr) (s : State) : exec i s = outcome (stackRegister i) (i.op.run s) := by
  cases i <;> rfl

/-- PC as the stack register is a fault, whatever the instruction. -/
theorem outcome_pc (t : State) : outcome (some (.g3 .pc)) t = .fault .pcAsStackRegister := rfl

/-- With any other stack register, or none, the instruction completes. -/
theorem outcome_of_ne {sr : Option Reg} (h : sr ≠ some (.g3 .pc)) (t : State) : outcome sr t = .next t := by
  cases sr with
  | none => rfl
  | some sr => exact onStack_of_ne (fun e => h (e ▸ rfl)) t

/-- An instruction that answers a next state has done its operation, and not through PC. -/
theorem exec_eq_next_iff {i : Instr} {s t : State} :
    exec i s = .next t ↔ stackRegister i ≠ some (.g3 .pc) ∧ t = i.op.run s := by
  rw [exec_eq]
  by_cases h : stackRegister i = some (.g3 .pc)
  · simp [h, outcome_pc]
  · simp [h, outcome_of_ne h, eq_comm]

/-- Settles O39: an instruction faults exactly through PC. -/
theorem onlyPcAsStackRegisterStopsAnInstruction : Obligations.OnlyPcAsStackRegisterStopsAnInstruction := by
  intro i s
  rw [exec_eq]
  exact ⟨fun h => by rw [h, outcome_pc], fun h => ⟨_, outcome_of_ne h _⟩⟩

end Sys2Proof.Machine

/-! ## What no instruction changes: memory, flags, hidden state

One law for each kind of field, over the operations. -/

namespace Sys2Proof.Machine

open Config (ArithResult)

/-! ### Results written to a register or an operand -/

@[simp] theorem State.writeNZ_mem (s : State) (r : Reg) (w : Width) (v : BitVec w.bits) :
    (s.writeNZ r w v).mem = s.mem := State.write_mem s r w v

@[simp] theorem State.writeArith_mem (s : State) (r : Reg) (w : Width) (x : ArithResult w.bits) :
    (s.writeArith r w x).mem = s.mem := State.write_mem s r w x.result

/-- Writing an operand back changes memory only if the operand is in memory. -/
theorem State.writePlace_mem (s : State) (w : Width) {p : Place} (h : Place.isMemory p = false) (v : BitVec w.bits) :
    (s.writePlace w p v).mem = s.mem := by
  cases p with
  | acc r => exact State.write_mem s r w v
  | mem m => cases h

/-- Writing an operand back keeps the canonical form of memory. -/
theorem State.inv_writePlace {s : State} (h : s.Inv) (w : Width) (p : Place) (v : BitVec w.bits) :
    (s.writePlace w p v).Inv := by
  cases p with
  | acc r => exact State.inv_of_mem h (State.write_mem s r w v)
  | mem m => exact State.inv_store h _ w v

/-- The return from a trap leaves memory. -/
@[simp] theorem State.leaveTrap_mem (s : State) (sr : Reg) : (s.leaveTrap sr).mem = s.mem := by
  simp only [State.leaveTrap, State.jump_mem, State.pull_mem, State.setFlags_mem]

/-- A branch leaves everything but PC. -/
theorem State.branch_mem (s : State) (w : Width) (d : Long) (c : Bool) : (s.branch w d c).mem = s.mem := by
  rw [State.branch_eq, State.jump_mem]

/-! ### Memory -/

/-- Whether an operation writes memory. -/
def Op.stores : Op → Bool
  | .store _ _ _ | .call _ | .trap _ | .push _ _ _ _ => true
  | .shift _ p _ | .modify _ p _ | .exchange _ _ p => Place.isMemory p
  | _ => false

theorem storesToMemory_eq (i : Instr) : storesToMemory i = i.op.stores := by
  cases i <;> rfl

/-- An operation that does not store leaves memory. -/
theorem Op.run_mem {op : Op} (h : op.stores = false) (s : State) : (op.run s).mem = s.mem := by
  cases op with
  | store | call | trap | push => cases h
  | shift w p f => exact State.writePlace_mem (s.advance p.len) w h _
  | modify w p f => exact State.writePlace_mem (s.advance p.len) w h _
  | exchange w r p => exact (State.writeNZ_mem _ _ _ _).trans (State.writePlace_mem (s.advance p.len) w h _)
  | branch w d cond => exact State.branch_mem s w d _
  | logic | load | step | transfer => exact State.writeNZ_mem _ _ _ _
  | arith => exact State.writeArith_mem _ _ _ _
  | copy => exact State.write_mem _ _ _ _
  | pull => exact (State.writeNZ_mem _ _ _ _).trans (State.pull_mem _ _ _)
  | pullStatus | returnCall => exact State.pull_mem _ _ _
  | discard => exact State.setReg_mem _ _ _
  | leaveTrap => exact State.leaveTrap_mem _ _
  | compare | bit | jump | flag | pass | wait => rfl

/-- An operation keeps the canonical form of memory. -/
theorem Op.inv_run {s : State} (h : s.Inv) (op : Op) : (op.run s).Inv := by
  by_cases hs : op.stores = false
  · exact State.inv_of_mem h (Op.run_mem hs s)
  cases op with
  | store w r m => exact State.inv_store (s := s.advance m.len) h _ w _
  | call m => exact State.inv_push (s := s.advance m.len) h spReg .long _
  | trap v => exact State.inv_enterTrap h _ _ _
  | push n w sr datum => exact State.inv_push (s := s.advance n) h sr w _
  | shift w p f => exact State.inv_writePlace (s := s.advance p.len) h w p _
  | modify w p f => exact State.inv_writePlace (s := s.advance p.len) h w p _
  | exchange w r p =>
    exact State.inv_of_mem (State.inv_writePlace (s := s.advance p.len) h w p _) (State.writeNZ_mem _ _ _ _)
  | _ => exact absurd rfl hs

/-- Settles O54: an operation that does not store leaves memory. -/
theorem onlyStoringInstructionsChangeMemory : Obligations.OnlyStoringInstructionsChangeMemory := by
  intro i s t h hs
  obtain ⟨-, rfl⟩ := exec_eq_next_iff.mp h
  exact Op.run_mem (storesToMemory_eq i ▸ hs) s

/-- Settles O49: whatever happens at the boundary, and whatever the instruction does, memory stays canonical. -/
theorem stepKeepsMemoryCanonical : Obligations.StepKeepsMemoryCanonical := by
  intro s t hs h
  obtain ⟨-, rfl⟩ | ⟨-, -, rfl⟩ | ⟨-, -, -, -, rfl⟩ | ⟨-, rfl⟩ | ⟨-, rfl⟩ | ⟨-, i, -, hi⟩ := step_cases h
  · exact drawnMemory_wf _ _
  · exact State.inv_enterTrap (by exact hs) _ _ _
  · exact State.inv_enterTrap (by exact hs) _ _ _
  · exact hs
  · exact hs
  · obtain ⟨-, rfl⟩ := exec_eq_next_iff.mp hi
    exact Op.inv_run (by exact hs) _

/-- Settles O50: the memory of the reset state lists no cell. -/
theorem resetStateHasCanonicalMemory : Obligations.ResetStateHasCanonicalMemory := State.reset_mem_wf

/-- Settles O51: the four values, by evaluation. -/
theorem resetStateHoldsTheSpecValues : Obligations.ResetStateHoldsTheSpecValues := ⟨rfl, rfl, rfl, rfl⟩

/-! ### Hidden state -/

/-- What instructions leave to the boundary: the latched NMI, the schedule of inputs, the draws, the wait. -/
def State.hidden (s : State) : Bool × List Lines × Nat × Bool := (s.nmiPending, s.inputs, s.draws, s.waiting)

@[simp] theorem State.hidden_setFlags (s : State) (f : Flags) : (s.setFlags f).hidden = s.hidden := rfl
@[simp] theorem State.hidden_jump (s : State) (a : Long) : (s.jump a).hidden = s.hidden := rfl
@[simp] theorem State.hidden_advance (s : State) (n : Nat) : (s.advance n).hidden = s.hidden := rfl
@[simp] theorem State.hidden_setReg (s : State) (r : Reg) (v : Long) : (s.setReg r v).hidden = s.hidden := by
  simp only [State.hidden, State.setReg_nmiPending, State.setReg_inputs, State.setReg_draws, State.setReg_waiting]
@[simp] theorem State.hidden_write (s : State) (r : Reg) (w : Width) (v : BitVec w.bits) :
    (s.write r w v).hidden = s.hidden := State.hidden_setReg s r _
@[simp] theorem State.hidden_writeNZ (s : State) (r : Reg) (w : Width) (v : BitVec w.bits) :
    (s.writeNZ r w v).hidden = s.hidden := State.hidden_setReg s r _
@[simp] theorem State.hidden_writeArith (s : State) (r : Reg) (w : Width) (x : ArithResult w.bits) :
    (s.writeArith r w x).hidden = s.hidden := State.hidden_setReg s r _
@[simp] theorem State.hidden_push (s : State) (sr : Reg) (w : Width) (v : BitVec w.bits) :
    (s.push sr w v).hidden = s.hidden := State.hidden_setReg _ sr _
@[simp] theorem State.hidden_pull (s : State) (sr : Reg) (w : Width) : (s.pull sr w).hidden = s.hidden :=
  State.hidden_setReg s sr _
@[simp] theorem State.hidden_writePlace (s : State) (w : Width) (p : Place) (v : BitVec w.bits) :
    (s.writePlace w p v).hidden = s.hidden := by
  cases p with
  | acc r => exact State.hidden_write s r w v
  | mem m => rfl

/-- Only WAI touches hidden state. -/
theorem Op.run_hidden {op : Op} (h : op ≠ .wait) (s : State) : (op.run s).hidden = s.hidden := by
  cases op with
  | wait => exact absurd rfl h
  | logic | load | step | transfer => exact State.hidden_writeNZ _ _ _ _
  | arith => exact State.hidden_writeArith _ _ _ _
  | copy => exact State.hidden_write _ _ _ _
  | shift w p | modify w p => exact State.hidden_writePlace (s.advance p.len) w p _
  | exchange w r p => exact (State.hidden_writeNZ _ _ _ _).trans (State.hidden_writePlace (s.advance p.len) w p _)
  | branch => rw [Op.run, State.branch_eq, State.hidden_jump]
  | call | push => exact State.hidden_push _ _ _ _
  | trap => simp only [Op.run, State.enterTrap, State.hidden_jump, State.hidden_setFlags, State.hidden_push]
  | pull => exact (State.hidden_writeNZ _ _ _ _).trans (State.hidden_pull _ _ _)
  | pullStatus | returnCall => exact State.hidden_pull _ _ _
  | discard => exact State.hidden_setReg _ _ _
  | leaveTrap =>
    simp only [Op.run, State.leaveTrap, State.hidden_jump, State.hidden_pull, State.hidden_setFlags,
      State.hidden_advance]
  | store | compare | bit | jump | flag | pass => rfl

theorem op_eq_wait_iff (i : Instr) : i.op = .wait ↔ i = .wai := by
  cases i <;> simp [Instr.op]

end Sys2Proof.Machine

/-! ## Flags: which an operation writes, and that few look at the decimal flag -/

namespace Sys2Proof.Machine

open Config (ArithResult)

/-! ### The flags each update writes -/

theorem Flags.get_setNZ {x : FlagName} (h : x ∉ [FlagName.n, .z]) (f : Flags) {n : Nat} (v : BitVec n) :
    (f.setNZ v).get x = f.get x := by
  cases x with
  | n | z => exact absurd h (by decide)
  | v | d | i | c => rfl

theorem Flags.get_setNZC {x : FlagName} (h : x ∉ [FlagName.n, .z, .c]) (f : Flags) {n : Nat} (v : BitVec n) (c : Bool) :
    (f.setNZC v c).get x = f.get x := by
  cases x with
  | n | z | c => exact absurd h (by decide)
  | v | d | i => rfl

theorem Flags.get_setArith {x : FlagName} (h : x ∉ [FlagName.n, .v, .z, .c]) (f : Flags) {n : Nat}
    (r : ArithResult n) : (f.setArith r).get x = f.get x := by
  cases x with
  | n | v | z | c => exact absurd h (by decide)
  | d | i => rfl

theorem Flags.get_setCompare {x : FlagName} (h : x ∉ [FlagName.n, .z, .c]) (f : Flags) {n : Nat}
    (r : ArithResult n) : (f.setCompare r).get x = f.get x := by
  cases x with
  | n | z | c => exact absurd h (by decide)
  | v | d | i => rfl

theorem Flags.get_setBit {x : FlagName} (h : x ∉ [FlagName.n, .v, .z]) (f : Flags) {n : Nat} (a m : BitVec n) :
    (f.setBit a m).get x = f.get x := by
  cases x with
  | n | v | z => exact absurd h (by decide)
  | d | i | c => rfl

/-- Replacing one flag leaves the others. -/
theorem Flags.get_put {x y : FlagName} (h : x ∉ [y]) (f : Flags) (b : Bool) : (f.put b y).get x = f.get x := by
  cases y <;> cases x <;> simp_all [Flags.put, Flags.get]

/-- There are six flags. -/
theorem FlagName.mem_all (x : FlagName) : x ∈ [FlagName.n, .v, .d, .i, .z, .c] := by
  cases x <;> decide

/-- The flags an operation writes (10_state.md R30). -/
def Op.writes : Op → List FlagName
  | .logic _ _ _ _ | .load _ _ _ | .modify _ _ _ | .exchange _ _ _ | .step _ _ _ | .pull _ _ _ | .transfer _ _ _ =>
    [.n, .z]
  | .arith _ _ _ _ => [.n, .v, .z, .c]
  | .compare _ _ _ | .shift _ _ _ => [.n, .z, .c]
  | .bit _ _ _ => [.n, .v, .z]
  | .flag x _ => [x]
  | .trap _ => [.i]
  | .pullStatus _ | .leaveTrap _ => [.n, .v, .d, .i, .z, .c]
  | .store _ _ _ | .branch _ _ _ | .jump _ | .call _ | .pass | .wait | .push _ _ _ _ | .discard _ _ _ | .returnCall _
  | .copy _ _ _ => []

/-- The table of R30 is the table of the operations. -/
theorem writes_eq (i : Instr) :
    writesN i = decide (.n ∈ i.op.writes) ∧ writesN i = decide (.z ∈ i.op.writes) ∧
      writesV i = decide (.v ∈ i.op.writes) ∧ writesC i = decide (.c ∈ i.op.writes) ∧
      writesD i = decide (.d ∈ i.op.writes) ∧ writesI i = decide (.i ∈ i.op.writes) := by
  cases i <;> exact ⟨rfl, rfl, rfl, rfl, rfl, rfl⟩

/-- An operation keeps the flags it does not write. -/
theorem Op.get_run {op : Op} {x : FlagName} (h : x ∉ op.writes) (s : State) :
    (op.run s).flags.get x = s.flags.get x := by
  cases op with
  | logic | load | step | transfer => exact Flags.get_setNZ h _ _
  | modify w p => exact Flags.get_setNZ h _ _
  | exchange w r p =>
    refine (Flags.get_setNZ h _ _).trans ?_
    rw [State.writePlace_flags, State.advance_flags]
  | pull w dst sr =>
    refine (Flags.get_setNZ h _ _).trans ?_
    rw [State.pull_flags, State.advance_flags]
  | arith => exact Flags.get_setArith h _ _
  | compare => exact Flags.get_setCompare h _ _
  | shift => exact Flags.get_setNZC h _ _ _
  | bit => exact Flags.get_setBit h _ _ _
  | flag => exact Flags.get_put h _ _
  | trap =>
    rw [Op.run, State.enterTrap_flags]
    exact Flags.get_put (y := .i) h _ _
  | pullStatus | leaveTrap => exact absurd (FlagName.mem_all x) h
  | branch => rw [Op.run, State.branch_eq, State.jump_flags]
  | call | push => rw [Op.run]; simp
  | discard | returnCall | copy => simp [Op.run]
  | store | jump | pass | wait => rfl

/-- Settles O52: the flags an instruction is not listed for are none that its operation writes. -/
theorem instructionsKeepTheFlagsTheyAreNotListedFor : Obligations.InstructionsKeepTheFlagsTheyAreNotListedFor := by
  intro i s t h
  obtain ⟨-, rfl⟩ := exec_eq_next_iff.mp h
  obtain ⟨hn, hz, hv, hc, hd, hi⟩ := writes_eq i
  have kept {b : Bool} {x : FlagName} (hb : b = decide (x ∈ i.op.writes)) (h : b = false) :
      (i.op.run s).flags.get x = s.flags.get x :=
    Op.get_run (of_decide_eq_false (hb.symm.trans h)) s
  exact ⟨fun h => ⟨kept hn h, kept hz h⟩, kept hv, kept hc, kept hd, kept hi⟩

/-- Settles O53: every boundary event keeps I or sets it, and of the instructions that write I, SEI and BRK set it. -/
theorem onlyThreeInstructionsUnmaskInterrupts : Obligations.OnlyThreeInstructionsUnmaskInterrupts := by
  intro s t h hs ht
  obtain ⟨-, rfl⟩ | ⟨-, -, rfl⟩ | ⟨-, -, -, -, rfl⟩ | ⟨-, rfl⟩ | ⟨-, rfl⟩ | ⟨hq, i, hf, hi⟩ := step_cases h
  · cases ht
  · rw [State.interrupt, State.enterTrap_flags] at ht
    cases ht
  · rw [State.interrupt, State.enterTrap_flags] at ht
    cases ht
  · exact absurd (hs.symm.trans ht) (by decide)
  · exact absurd (hs.symm.trans ht) (by decide)
  · refine ⟨hq, i, hf, ?_⟩
    obtain ⟨-, rfl⟩ := exec_eq_next_iff.mp hi
    have hw : writesI i = true := by
      by_contra hw
      have := instructionsKeepTheFlagsTheyAreNotListedFor i _ _ hi
      have := this.2.2.2.2 (by simpa using hw)
      exact absurd (hs.symm.trans (this.symm.trans ht)) (by decide)
    cases i
    case cli => exact .inl rfl
    case plp sr => exact .inr (.inl ⟨sr, rfl⟩)
    case rti sr => exact .inr (.inr ⟨sr, rfl⟩)
    case sei => cases ht
    case brk v =>
      rw [Instr.op, Op.run, State.enterTrap_flags] at ht
      cases ht
    all_goals cases hw

/-! ### The decimal flag -/

section SetFlags
variable (s : State) (f : Flags)

@[simp] theorem State.setFlags_setFlags (g : Flags) : (s.setFlags f).setFlags g = s.setFlags g := rfl
@[simp] theorem State.advance_setFlags (n : Nat) : (s.setFlags f).advance n = (s.advance n).setFlags f := rfl
@[simp] theorem State.jump_setFlags (a : Long) : (s.setFlags f).jump a = (s.jump a).setFlags f := rfl
@[simp] theorem State.store_setFlags (a : Long) (w : Width) (v : BitVec w.bits) :
    (s.setFlags f).store a w v = (s.store a w v).setFlags f := rfl
@[simp] theorem State.setReg_setFlags (r : Reg) (v : Long) :
    (s.setFlags f).setReg r v = (s.setReg r v).setFlags f := by
  rcases r with _ | _ | _ | _ | _ | _ | _ <;> rfl
@[simp] theorem State.read_setFlags (r : Reg) (w : Width) : (s.setFlags f).read r w = s.read r w := by
  rw [State.read, State.reg_setFlags, State.read]
@[simp] theorem State.load_setFlags (a : Long) (w : Width) : (s.setFlags f).load a w = s.load a w := rfl
@[simp] theorem State.index_setFlags (file : Fin 4 → Reg) (ix : Index) :
    (s.setFlags f).index file ix = s.index file ix := by
  rw [State.index, State.read_setFlags, State.index]
@[simp] theorem State.ea_setFlags (m : MemMode) : (s.setFlags f).ea m = s.ea m := by
  cases m <;> simp only [State.ea, State.index_setFlags, State.load_setFlags]
@[simp] theorem State.operand_setFlags (w : Width) (o : Operand) : (s.setFlags f).operand w o = s.operand w o := by
  cases o <;> simp only [State.operand, State.read_setFlags, State.ea_setFlags, State.load_setFlags]
@[simp] theorem State.placeValue_setFlags (w : Width) (p : Place) :
    (s.setFlags f).placeValue w p = s.placeValue w p := by
  cases p <;> simp only [State.placeValue, State.read_setFlags, State.ea_setFlags, State.load_setFlags]
@[simp] theorem State.write_setFlags (r : Reg) (w : Width) (v : BitVec w.bits) :
    (s.setFlags f).write r w v = (s.write r w v).setFlags f := by
  rw [State.write, State.setReg_setFlags, State.reg_setFlags, State.write]
@[simp] theorem State.writePlace_setFlags (w : Width) (p : Place) (v : BitVec w.bits) :
    (s.setFlags f).writePlace w p v = (s.writePlace w p v).setFlags f := by
  cases p <;> simp only [State.writePlace, State.write_setFlags, State.ea_setFlags, State.store_setFlags]
@[simp] theorem State.push_setFlags (sr : Reg) (w : Width) (v : BitVec w.bits) :
    (s.setFlags f).push sr w v = (s.push sr w v).setFlags f := by
  simp only [State.push, State.reg_setFlags, State.store_setFlags, State.setReg_setFlags]
@[simp] theorem State.pulled_setFlags (sr : Reg) (w : Width) : (s.setFlags f).pulled sr w = s.pulled sr w := by
  rw [State.pulled, State.reg_setFlags, State.load_setFlags, State.pulled]
@[simp] theorem State.pull_setFlags (sr : Reg) (w : Width) :
    (s.setFlags f).pull sr w = (s.pull sr w).setFlags f := by
  simp only [State.pull, State.reg_setFlags, State.setReg_setFlags]

end SetFlags

/-- An operation that neither looks at the decimal flag, nor pushes it, nor writes it. -/
def Op.IgnoresD : Op → Prop
  | .arith _ _ _ f => ∀ g b, f { g with d := b } = f g
  | .branch _ _ cond => ∀ g b, cond { g with d := b } = cond g
  | .push _ _ _ datum => ∀ s f, datum (s.setFlags f) = datum s
  | .flag x _ => x ≠ .d
  | .trap _ | .pullStatus _ | .leaveTrap _ => False
  | _ => True

theorem ignoresD_op {i : Instr} (hr : readsD i = false) (hw : writesD i = false) : i.op.IgnoresD := by
  cases i
  case adc | sbc | add | sub | php | brk => cases hr
  case cld | sed | plp | rti => cases hw
  case pha | phx | phy => exact fun s f => State.read_setFlags s f _ _
  case clc | sec | cli | sei | clv | sev => exact nofun
  case psh | ads | sbs | adx | ady | sbx => exact fun _ _ => rfl
  case bpl | bmi | bvc | bvs | bcc | bcs | bne | beq | bge | blt | ble | bgt | bls | bhi | bnv | bra =>
    exact fun _ _ => rfl
  all_goals trivial

/-- Replace the decimal flag. -/
def State.setD (s : State) (b : Bool) : State := s.setFlags { s.flags with d := b }

/-- An operation that ignores the decimal flag does the same whatever it is. -/
theorem Op.run_setD {op : Op} (h : op.IgnoresD) (s : State) (b : Bool) : op.run (s.setD b) = (op.run s).setD b := by
  cases op with
  | trap | pullStatus | leaveTrap => cases h
  | arith w r o f => simp [Op.run, State.arith, State.writeArith, State.setD, h s.flags b, Flags.setArith]
  | branch w d cond => simp [Op.run, State.branch_eq, State.setD, h s.flags b]
  | push n w sr datum =>
    have := h (s.advance n) { s.flags with d := b }
    simp [Op.run, State.setD, this]
  | flag x c =>
    cases x with
    | d => exact absurd rfl h
    | n | v | i | z | c => rfl
  | logic => simp [Op.run, State.logic, State.writeNZ, State.setD, Flags.setNZ]
  | load => simp [Op.run, State.loadReg, State.writeNZ, State.setD, Flags.setNZ]
  | store => simp [Op.run, State.storeReg, State.setD]
  | compare => simp [Op.run, State.compare, State.setD, Flags.setCompare]
  | shift => simp [Op.run, State.shift, State.setD, Flags.setNZC, Flags.setNZ]
  | modify => simp [Op.run, State.modify, State.setD, Flags.setNZ]
  | exchange => simp [Op.run, State.writeNZ, State.setD, Flags.setNZ]
  | bit => simp [Op.run, State.setD, Flags.setBit]
  | jump => simp [Op.run, State.setD]
  | call => simp [Op.run, State.setD]
  | pass | wait => rfl
  | step => simp [Op.run, State.stepReg, State.writeNZ, State.setD, Flags.setNZ]
  | pull => simp [Op.run, State.pullReg, State.writeNZ, State.setD, Flags.setNZ]
  | discard => simp [Op.run, State.setD]
  | returnCall => simp [Op.run, State.setD]
  | transfer => simp [Op.run, State.transfer, State.writeNZ, State.setD, Flags.setNZ]
  | copy => simp [Op.run, State.setD]

/-- Settles O55: the operation of every other instruction ignores the flag. -/
theorem otherInstructionsIgnoreTheDecimalFlag : Obligations.OtherInstructionsIgnoreTheDecimalFlag := by
  intro i s t b hr hw h
  obtain ⟨hsr, rfl⟩ := exec_eq_next_iff.mp h
  exact exec_eq_next_iff.mpr ⟨hsr, (Op.run_setD (ignoresD_op hr hw) s b).symm⟩

end Sys2Proof.Machine

/-! ## Boundaries and steps (60_exceptions.md R342 to R350) -/

namespace Sys2Proof.Machine

/-! ### The events of a boundary, each from its condition -/

section Boundary
variable {s : State}

/-- A reset comes first. -/
theorem step_of_reset (h : s.lines.reset = true) : step s = .next s.sampled.resetEvent := by
  rw [step, State.boundary, if_pos h]

/-- An NMI comes next. -/
theorem step_of_nmi (hreset : s.lines.reset = false) (hnmi : s.sampled.nmiPending = true) :
    step s = .next (State.interrupt { s.sampled with nmiPending := false } nmiVector) := by
  simp only [step, State.boundary, hreset, hnmi, reduceIte, Bool.false_eq_true]

/-- Without a reset or an NMI the boundary looks at IRQ and at the wait. -/
theorem boundary_of_noNmi (hreset : s.lines.reset = false) (hpending : s.nmiPending = false)
    (hnmi : s.lines.nmi = false) : s.boundary =
      if s.lines.irq && !s.flags.i then .taken (s.sampled.interrupt irqVector)
      else if s.lines.irq && s.waiting then .taken { s.sampled with waiting := false }
      else if s.waiting then .taken s.sampled
      else .run s.sampled := by
  have hl : s.sampled.nmiPending = false := by rw [State.sampled, hpending, hnmi, Bool.or_self]
  simp only [State.boundary, hreset, hl, Bool.false_eq_true, if_false]
  rfl

/-- No NMI is latched. -/
theorem sampled_of_noNmi (hpending : s.nmiPending = false) (hnmi : s.lines.nmi = false) :
    s.sampled = { s with inputs := s.inputs.tail } := by
  rw [State.sampled, hpending, hnmi, ← hpending, Bool.or_self]

end Boundary

/-- What a boundary that runs no instruction can do. -/
theorem boundary_taken {s t : State} (h : s.boundary = .taken t) :
    (s.lines.reset = true ∧ t = s.sampled.resetEvent) ∨
    (s.lines.reset = false ∧ t = State.interrupt { s.sampled with nmiPending := false } nmiVector) ∨
    (s.lines.reset = false ∧ s.sampled.nmiPending = false ∧
      (t = s.sampled.interrupt irqVector ∨ t = { s.sampled with waiting := false } ∨ t = s.sampled)) := by
  simp only [State.boundary] at h
  split_ifs at h with hreset hnmi <;> cases h
  · exact .inl ⟨hreset, rfl⟩
  all_goals simp only [Bool.not_eq_true] at hreset
  · exact .inr (.inl ⟨hreset, rfl⟩)
  all_goals simp only [Bool.not_eq_true] at hnmi
  · exact .inr (.inr ⟨hreset, hnmi, .inl rfl⟩)
  · exact .inr (.inr ⟨hreset, hnmi, .inr (.inl rfl)⟩)
  · exact .inr (.inr ⟨hreset, hnmi, .inr (.inr rfl)⟩)

/-- The instruction of a quiet boundary. -/
theorem step_of_quiet {s : State} (h : s.Quiet) : step s = runNext { s with inputs := s.inputs.tail } := by
  rw [step, State.boundary_of_quiet h]

/-- A step that runs no instruction answers a next state; otherwise the boundary was quiet. -/
theorem step_next_or_quiet (s : State) : (∃ t, s.boundary = .taken t ∧ step s = .next t) ∨ s.Quiet := by
  cases h : s.boundary with
  | taken t => exact .inl ⟨t, rfl, by rw [step, h]⟩
  | run t => exact .inr (State.quiet_of_boundary h).1

/-! ### Instructions -/

/-- Settles O42: a quiet boundary runs what is fetched. -/
theorem stepRunsTheDecodedInstruction : Obligations.StepRunsTheDecodedInstruction := by
  intro s i hq hd _
  have hf : State.fetch { s with inputs := s.inputs.tail } = .ok i := hd
  rw [step_of_quiet hq, runNext, hf]

/-- Settles O43: what is no instruction is an unassigned slot, and the decoder names it. -/
theorem stepFaultsOnAnUnassignedSlot : Obligations.StepFaultsOnAnUnassignedSlot := by
  intro s hq hd
  have hf := (decoderRefusesExactlyTheUnassignedSlots (s.mem.readWord s.pc) (s.mem.readWord (s.pc + 1))
    (s.mem.readWord (s.pc + 2))).2.resolve_left fun ⟨i, hi⟩ => hd i hi
  have hf : State.fetch { s with inputs := s.inputs.tail } = .error _ := hf
  rw [step_of_quiet hq, runNext, hf]

/-- An unassigned slot is refused by its own name. -/
theorem slot_of_fetch_error {s : State} {p : Bool} {op : Byte} (h : s.fetch = .error (.unassigned p op)) :
    Decode.slot p op = none := by
  rw [State.fetch, decode] at h
  split at h
  · cases h
  · cases h
    assumption

/-- Settles O48: at a quiet boundary the fetch or the instruction may fault, each in one way. -/
theorem stepStopsOnlyWhereTheSpecIsUndefined : Obligations.StepStopsOnlyWhereTheSpecIsUndefined := by
  intro s
  obtain ⟨t, -, ht⟩ | hq := step_next_or_quiet s
  · exact .inl ⟨t, ht⟩
  rw [step_of_quiet hq, runNext, State.fetch_inputs]
  cases hf : s.fetch with
  | error e =>
    obtain ⟨p, op⟩ := e
    exact .inr (.inl ⟨p, op, rfl, hq, slot_of_fetch_error hf⟩)
  | ok i =>
    have hi := onlyPcAsStackRegisterStopsAnInstruction i { s with inputs := s.inputs.tail }
    by_cases hsr : stackRegister i = some (.g3 .pc)
    · exact .inr (.inr ⟨i, hi.1 hsr, hq, rfl, hsr⟩)
    · exact .inl (hi.2 hsr)

/-! ### Reset, interrupts and the wait -/

/-- Settles O44: the reset event, and that a canonical memory is its own list of cells. -/
theorem resetComesFirst : Obligations.ResetComesFirst :=
  ⟨fun _ h => ⟨_, step_of_reset h, rfl, rfl, rfl, rfl, rfl, drawnMemory_wf _ _, rfl⟩,
    fun _ h => Memory.ofCells_of_wfFrom h⟩

/-- An interrupt enters its trap, ends the wait and leaves the other hidden bits. -/
theorem interrupt_spec {s : State} (h : s.Inv) (l : List Lines) (pending : Bool) (vec : Long) :
    let t := State.interrupt { s with inputs := l, nmiPending := pending } vec
    TrapEntered s t s.pc false vec ∧ t.nmiPending = pending ∧ t.waiting = false ∧ t.inputs = l := by
  have hi : State.Inv { s with inputs := l, nmiPending := pending, waiting := false } := h
  have e := State.enterTrap_entered hi s.pc false vec
  exact ⟨⟨e.returnLow, e.returnHigh, e.status, e.memory, e.sp, e.pc, e.flags, e.registers, e.draws⟩,
    State.enterTrap_nmiPending _ _ _ _, State.enterTrap_waiting _ _ _ _, State.enterTrap_inputs _ _ _ _⟩

/-- Settles O45: the latch is set by the sample or before it. -/
theorem nmiEntersItsTrap : Obligations.NmiEntersItsTrap := by
  intro s hs hreset hnmi
  have hl : s.sampled.nmiPending = true := Bool.or_eq_true_iff.mpr hnmi
  exact ⟨_, step_of_nmi hreset hl, interrupt_spec hs _ _ _⟩

/-- Settles O46: nothing comes before the IRQ. -/
theorem unmaskedIrqEntersItsTrap : Obligations.UnmaskedIrqEntersItsTrap := by
  intro s hs hreset hpending hnmi hirq hi
  have hstep : step s = .next (s.sampled.interrupt irqVector) := by
    rw [step, boundary_of_noNmi hreset hpending hnmi, hirq, hi]
    rfl
  obtain ⟨trap, hlatch, hwait, hinputs⟩ := interrupt_spec hs s.inputs.tail (s.nmiPending || s.lines.nmi) irqVector
  exact ⟨_, hstep, trap, by rw [State.sampled, hlatch, hpending, hnmi, Bool.or_self], hwait, hinputs⟩

/-- Settles O47: the two ways of a boundary with no unmasked request. -/
theorem waitingEndsOnlyOnARequest : Obligations.WaitingEndsOnlyOnARequest := by
  intro s hreset hpending hnmi hw
  have hstep := boundary_of_noNmi hreset hpending hnmi
  rw [sampled_of_noNmi hpending hnmi] at hstep
  exact ⟨fun hirq hi => by simp [step, hstep, hirq, hi, hw], fun hirq => by simp [step, hstep, hirq, hw]⟩

/-! ### Hidden state over a step -/

/-- What every instruction leaves of the hidden state. -/
theorem hidden_of_exec {i : Instr} {s t : State} (h : exec i s = .next t) :
    t.nmiPending = s.nmiPending ∧ t.inputs = s.inputs ∧ t.draws = s.draws ∧ (i ≠ .wai → t.waiting = s.waiting) ∧
      (i = .wai → t.waiting = true) := by
  obtain ⟨-, rfl⟩ := exec_eq_next_iff.mp h
  by_cases hi : i = .wai
  · subst hi
    exact ⟨rfl, rfl, rfl, fun h => absurd rfl h, fun _ => rfl⟩
  · have hh := Op.run_hidden (mt (op_eq_wait_iff i).mp hi) s
    simp only [State.hidden, Prod.mk.injEq] at hh
    obtain ⟨hn, hin, hd, hw⟩ := hh
    exact ⟨hn, hin, hd, fun _ => hw, fun h => absurd h hi⟩

/-- The entry of an interrupt keeps the latch, the inputs and the draws. -/
theorem interrupt_hidden (s : State) (vec : Long) :
    (s.interrupt vec).nmiPending = s.nmiPending ∧ (s.interrupt vec).inputs = s.inputs ∧
      (s.interrupt vec).draws = s.draws :=
  ⟨State.enterTrap_nmiPending _ _ _ _, State.enterTrap_inputs _ _ _ _, State.enterTrap_draws _ _ _ _⟩

/-- Settles O56: instructions by their operations; every event of a boundary uses one sample and leaves no NMI
pending. -/
theorem onlyTheBoundaryTouchesHiddenState : Obligations.OnlyTheBoundaryTouchesHiddenState := by
  refine ⟨fun i s t h => hidden_of_exec h, fun s t h => ?_⟩
  obtain ⟨u, hb, hu⟩ | hq := step_next_or_quiet s
  · obtain rfl : u = t := by simpa [hu] using h
    obtain ⟨hr, rfl⟩ | ⟨hr, rfl⟩ | ⟨hr, hn, rfl | rfl | rfl⟩ := boundary_taken hb <;> rw [hr]
    · exact ⟨rfl, rfl, rfl⟩
    · obtain ⟨hn, hin, hd⟩ := interrupt_hidden { s.sampled with nmiPending := false } nmiVector
      exact ⟨hin, hn, hd⟩
    · obtain ⟨hn', hin, hd⟩ := interrupt_hidden s.sampled irqVector
      exact ⟨hin, hn'.trans hn, hd⟩
    · exact ⟨rfl, hn, rfl⟩
    · exact ⟨rfl, hn, rfl⟩
  · have ⟨hreset, _, hpending, _⟩ := hq
    rw [step_of_quiet hq, runNext] at h
    split at h
    · obtain ⟨hn, hin, hd, -⟩ := hidden_of_exec h
      exact ⟨hin, hn.trans hpending, by rw [hd, hreset]; rfl⟩
    · cases h

/-! ### A stored instruction -/

/-- The decoder answers the instruction that a table number decodes to. -/
theorem decode_of_decodeTableWord {nbits w : Nat} {i : Instr} (h : decodeTableWord nbits w = some i) :
    decode (tableWord nbits w 0) (tableWord nbits w 1) (tableWord nbits w 2) = .ok i := by
  rw [decodeTableWord] at h
  cases hd : decode (tableWord nbits w 0) (tableWord nbits w 1) (tableWord nbits w 2) with
  | error e =>
    rw [hd] at h
    cases h
  | ok j =>
    rw [hd] at h
    cases h
    rfl

/-- The words stored at PC are those that the next fetch reads. -/
theorem fetch_withFetchWord {s : State} (h : s.Inv) (nbits w : Nat) : (s.withFetchWord nbits w).fetch =
    decode (tableWord nbits w 0) (tableWord nbits w 1) (tableWord nbits w 2) := by
  have h1 := Memory.wf_writeWord h s.pc (tableWord nbits w 0)
  have h2 := Memory.wf_writeWord h1 (s.pc + 1) (tableWord nbits w 1)
  have n01 : s.pc ≠ s.pc + 1 := by bv_omega
  have n02 : s.pc ≠ s.pc + 2 := by bv_omega
  have n12 : s.pc + 1 ≠ s.pc + 2 := by bv_omega
  simp only [State.fetch, State.withFetchWord, State.placeInstruction, Memory.readWord_writeWord h2,
    Memory.readWord_writeWord h1, Memory.readWord_writeWord h, n01, n02, n12, if_false, if_true]

/-- Settles O57: no event of the boundary is left, and the fetch reads what was stored. -/
theorem storedInstructionIsTheOneFetched : Obligations.StoredInstructionIsTheOneFetched := by
  intro s nbits w hs
  have hq : (s.withFetchWord nbits w).Quiet := ⟨rfl, rfl, rfl, .inl rfl, rfl⟩
  refine ⟨hq, fun i hi => ?_⟩
  rw [step_of_quiet hq, runNext, State.fetch_inputs, fetch_withFetchWord hs, decode_of_decodeTableWord hi]
  rfl

end Sys2Proof.Machine

/-! ## Memory and the stack (20_memory.md R50 to R61) -/

namespace Sys2Proof.Machine

/-! ### Byte access -/

theorem highByte_readWord (m : Memory) (a : Long) : highByte (m.readWord a) = m.readByte (highCell a) :=
  BitVec.extractLsb'_append_eq_left

theorem lowByte_readWord (m : Memory) (a : Long) : lowByte (m.readWord a) = m.readByte (lowCell a) :=
  BitVec.extractLsb'_append_eq_right

/-- The word a byte write leaves: its own bits 15:8, the byte below them (20_memory.md R55). -/
theorem Memory.readWord_write_byte {m : Memory} (h : m.wf) (a : Long) (v : Byte) :
    (m.write a .byte v).readWord a = highByte (m.readWord a) ++ v := by
  rw [Memory.readWord, Memory.readByte_write_byte h, Memory.readByte_write_byte h, if_neg (highCell_ne_lowCell a a),
    if_pos rfl, highByte_readWord]

/-- Settles O11: the word written, and the other words and cells. -/
theorem byteWriteKeepsTheUpperHalf : Obligations.ByteWriteKeepsTheUpperHalf := by
  intro m a v h
  exact ⟨Memory.readWord_write_byte h a v, (Memory.readByte_write_byte h a v _).trans (if_pos rfl), m.read_byte,
    fun k hk => Memory.readByte_write_of_notMem h a .byte v hk, fun b hb => Memory.readWord_write_byte_of_ne h hb v⟩

/-! ### The canonical form (log 1) -/

/-- The parts of a canonical memory that has a cell. -/
theorem Memory.wfFrom_cons {lo k : Nat} {b : Byte} {rest : Memory} (h : Memory.wfFrom lo ((k, b) :: rest) = true) :
    lo ≤ k ∧ b ≠ unlisted ∧ rest.wfFrom (k + 1) = true := by
  simp only [Memory.wfFrom, Bool.and_eq_true, decide_eq_true_eq, bne_iff_ne] at h
  exact ⟨h.1.1.1, h.1.2, h.2⟩

/-- A cell that is listed first reads as its byte. -/
@[simp] theorem Memory.readByte_cons_same (k : Nat) (b : Byte) (rest : Memory) :
    Memory.readByte ((k, b) :: rest) k = b := if_pos rfl

/-- Canonical memories that read alike are equal: their first cells are at the same address, since below its first cell
a memory reads as unlisted and at it as something else. -/
theorem Memory.ext_of_wfFrom {lo : Nat} : ∀ {m₁ m₂ : Memory}, m₁.wfFrom lo = true → m₂.wfFrom lo = true →
    (∀ k, m₁.readByte k = m₂.readByte k) → m₁ = m₂
  | [], [], _, _, _ => rfl
  | [], (k, b) :: _, _, h₂, h => by
    have hk := h k
    rw [Memory.readByte_cons_same] at hk
    exact absurd hk.symm (Memory.wfFrom_cons h₂).2.1
  | (k, b) :: _, [], h₁, _, h => by
    have hk := h k
    rw [Memory.readByte_cons_same] at hk
    exact absurd hk (Memory.wfFrom_cons h₁).2.1
  | (k, b) :: rest, (k', b') :: rest', h₁, h₂, h => by
    obtain ⟨-, hb, hr⟩ := Memory.wfFrom_cons h₁
    obtain ⟨-, hb', hr'⟩ := Memory.wfFrom_cons h₂
    have hkk : k = k' := by
      rcases Nat.lt_trichotomy k k' with hlt | heq | hgt
      · have hk := h k
        rw [Memory.readByte_cons_same, Memory.readByte, if_neg (by omega), Memory.readByte_below (by omega) hr'] at hk
        exact absurd hk hb
      · exact heq
      · have hk := h k'
        rw [Memory.readByte_cons_same, Memory.readByte, if_neg (by omega), Memory.readByte_below (by omega) hr] at hk
        exact absurd hk.symm hb'
    subst hkk
    have hbb : b = b' := by simpa using h k
    have htail : rest = rest' := Memory.ext_of_wfFrom hr hr' fun q => by
      by_cases hq : q = k
      · rw [hq, Memory.readByte_below (Nat.lt_succ_self k) hr, Memory.readByte_below (Nat.lt_succ_self k) hr']
      · simpa [Memory.readByte, Ne.symm hq] using h q
    rw [hbb, htail]

/-- Writing back the datum that stood at an address before a write. -/
theorem Memory.readByte_write_write {m : Memory} (h : m.wf) (a : Long) (w : Width) (v : BitVec w.bits) (k : Nat) :
    ((m.write a w v).write a w (m.read a w)).readByte k = m.readByte k := by
  have hw := Memory.wf_write h a w v
  by_cases hk : k ∈ cellsOf a w
  · cases w with
    | byte =>
      obtain rfl : k = lowCell a := by simpa [cellsOf] using hk
      rw [Memory.readByte_write_byte hw, if_pos rfl]
      rfl
    | long =>
      rw [Memory.readByte_write_long hw, Memory.read_long, splitHigh_join, splitLow_join]
      simp only [highByte_readWord, lowByte_readWord]
      split_ifs with h1 h2 h3 h4
      · rw [h1]
      · rw [h2]
      · rw [h3]
      · rw [h4]
      · simp only [cellsOf, List.mem_cons, List.not_mem_nil, or_false] at hk
        tauto
  · rw [Memory.readByte_write_of_notMem hw a w _ hk, Memory.readByte_write_of_notMem h a w v hk]

/-- Settles O12: canonical memories that read alike are equal, and a write undone reads alike. -/
theorem canonicalMemoriesThatReadAlikeAreEqual : Obligations.CanonicalMemoriesThatReadAlikeAreEqual :=
  ⟨fun _ _ h₁ h₂ h => Memory.ext_of_wfFrom h₁ h₂ h, fun _ a w v h =>
    Memory.ext_of_wfFrom (Memory.wf_write (Memory.wf_write h a w v) a w _) h (Memory.readByte_write_write h a w v)⟩

/-! ### Push and pull -/

/-- After a push the word above the stack register is the first of the datum pushed. -/
theorem sub_stackWords_add_one (sp : Long) (w : Width) : sp - stackWords w + 1 = pushAddress sp w := by
  cases w <;> simp only [stackWords, pushAddress] <;> bv_omega

/-- A pull reads what was pushed. -/
theorem State.pulled_push {s : State} (h : s.Inv) (sr : Reg) (w : Width) (v : BitVec w.bits) :
    (s.push sr w v).pulled sr w = v := by
  rw [State.pulled, State.reg_push, if_pos rfl, sub_stackWords_add_one, State.load, State.push_mem]
  exact State.load_store h _ w v

/-- A pull puts the stack register back where it was before the push. -/
theorem State.reg_pull_push (s : State) (sr : Reg) (w : Width) (v : BitVec w.bits) (r : Reg) :
    ((s.push sr w v).pull sr w).reg r = s.reg r := by
  rw [State.reg_pull, State.reg_push, State.reg_push, if_pos rfl, BitVec.sub_add_cancel]
  split_ifs with h
  · rw [h]
  · rfl

/-- Settles O13: the datum and every register. -/
theorem pullUndoesPush : Obligations.PullUndoesPush :=
  fun s sr w v h => ⟨State.pulled_push h sr w v, State.reg_pull_push s sr w v⟩

/-! ## Operands (30_encoding.md R93 to R108) -/

theorem zext_toNat {n : Nat} (h : n ≤ 32) (v : BitVec n) : (zext v).toNat = v.toNat := by
  rw [zext, BitVec.toNat_setWidth, Nat.mod_eq_of_lt]
  exact v.isLt.trans_le (Nat.pow_le_pow_right (by decide) h)

/-- The low bits of a register (10_state.md R24). -/
theorem State.read_toNat (s : State) (r : Reg) (w : Width) : (s.read r w).toNat = (s.reg r).toNat % 2 ^ w.bits :=
  BitVec.toNat_setWidth ..

/-- The index value (R85, R94). -/
theorem State.index_toNat (s : State) (file : Fin 4 → Reg) (ix : Index) :
    (s.index file ix).toNat = (s.reg (indexRegister file ix.reg)).toNat % 2 ^ ix.size.bits := by
  rw [State.index, zext_toNat (by cases ix.size <;> decide), State.read_toNat]

/-- The zero-page address of an operand word (R96). -/
theorem zpaddr_toNat (o : Word) : (zpaddr o).toNat = 0xFF000000 + o.toNat / 256 * 2 ^ 16 + o.toNat % 256 := by
  simp [zpaddr, join_toNat]

/-- An indexed zero-page address: an 8 bit index wraps inside the zero page, a 32 bit one does not (R97). -/
theorem zpIndexed_toNat (o : Word) (size : Width) (idx : Long) (h : idx.toNat < 2 ^ size.bits) :
    (zpIndexed o size idx).toNat =
      if size = .byte then 0xFF000000 + o.toNat / 256 * 2 ^ 16 + (o.toNat % 256 + idx.toNat) % 256
      else (0xFF000000 + o.toNat / 256 * 2 ^ 16 + o.toNat % 256 + idx.toNat) % 2 ^ 32 := by
  cases size with
  | byte =>
    have := o.isLt
    simp only [zpIndexed, toNat_append_eq_mul_add, toNat_extractLsb'_eq_div_mod, zpaddr_toNat, BitVec.toNat_add,
      lowByte_toNat, reduceIte]
    omega
  | long => simp [zpIndexed, zpaddr_toNat]

/-- Settles O14: each mode from the values of its index, its operand words and its pointers. -/
theorem effectiveAddressesOfTheModes : Obligations.EffectiveAddressesOfTheModes := by
  refine ⟨fun s o base ix => ?_, fun s w v r m => ⟨s.read_toNat r w, BitVec.toNat_setWidth .., s.read_toNat r w, rfl,
    s.read_toNat r w, rfl⟩, fun s a => ⟨s.mem.read_byte a, s.mem.read_long a⟩, fun s n r => ⟨rfl, s.reg_advance n r⟩⟩
  intro xv yv page zp pointer
  have hx : (s.index .x ix).toNat = xv := s.index_toNat .x ix
  have hy : (s.index .y ix).toNat = yv := s.index_toNat .y ix
  have hzp (idx : Long) (h : idx.toNat < 2 ^ ix.size.bits) : (zpIndexed o ix.size idx).toNat = zp idx.toNat :=
    zpIndexed_toNat o ix.size idx h
  have hzpx : (zpIndexed o ix.size (s.index .x ix)).toNat = zp xv := by
    rw [hzp _ (hx ▸ Nat.mod_lt _ (Nat.two_pow_pos _)), hx]
  have hzpy : (zpIndexed o ix.size (s.index .y ix)).toNat = zp yv := by
    rw [hzp _ (hy ▸ Nat.mod_lt _ (Nat.two_pow_pos _)), hy]
  have hsum (base idx : Long) : (base + idx).toNat = (base.toNat + idx.toNat) % 2 ^ 32 := BitVec.toNat_add _ _
  have hpointer (a : Long) : (s.load a .long).toNat = pointer a.toNat := by
    show _ = (s.load (BitVec.ofNat 32 a.toNat) .long).toNat
    rw [BitVec.ofNat_toNat, BitVec.setWidth_eq]
  simp only [State.ea]
  refine ⟨zpaddr_toNat o, hzpx, hzpy, trivial, ?_, ?_, ?_, ?_, ?_, ?_, ?_⟩
  · rw [hsum, hx]
  · rw [hsum, hy]
  · rw [hpointer]
  · rw [hpointer, hsum, hx]
  · rw [hsum, hpointer, hy]
  · rw [hpointer, hzpx]
  · rw [hsum, hpointer, zpaddr_toNat, hy]

end Sys2Proof.Machine

/-! ## Groups 0 and 6: the accumulator and the index registers (40_group0_accumulator.md, 46_group6_index_load_store.md)

Each statement lists its instructions with what they compute; every entry is the law of the shared operation. -/

namespace Sys2Proof.Machine

open Config (ArithResult)

theorem Width.bits_pos (w : Width) : 0 < w.bits := by
  cases w <;> decide

/-- Settles O15: the law of `State.logic`, three times. -/
theorem logicalInstructionsCombineRegisterAndOperand : Obligations.LogicalInstructionsCombineRegisterAndOperand := by
  intro w r o s a m
  simp only [List.forall_mem_cons, List.not_mem_nil, false_imp_iff, implies_true, and_true]
  exact ⟨⟨_, rfl, State.logic_spec s w (.a r) o _⟩, ⟨_, rfl, State.logic_spec s w (.a r) o _⟩,
    ⟨_, rfl, State.logic_spec s w (.a r) o _⟩⟩

/-- Settles O16: the law of `State.loadReg` for a register of each file. -/
theorem loadsTakeTheOperand : Obligations.LoadsTakeTheOperand := by
  intro w r o s m
  simp only [List.forall_mem_cons, List.not_mem_nil, false_imp_iff, implies_true, and_true]
  exact ⟨⟨_, rfl, State.loadReg_spec s w (.a r) o⟩, ⟨_, rfl, State.loadReg_spec s w (.x r) o⟩,
    ⟨_, rfl, State.loadReg_spec s w (.y r) o⟩⟩

/-- Settles O17: the law of `State.storeReg` for a register of each file. -/
theorem storesWriteTheEffectiveAddressOnly : Obligations.StoresWriteTheEffectiveAddressOnly := by
  intro w r g m s hs ea
  simp only [List.forall_mem_cons, List.not_mem_nil, false_imp_iff, implies_true, and_true]
  exact ⟨⟨_, rfl, State.storeReg_spec hs w (.a r) m⟩, ⟨_, rfl, State.storeReg_spec hs w (.x r) m⟩,
    ⟨_, rfl, State.storeReg_spec hs w (.y r) m⟩, ⟨_, rfl, State.storeReg_spec hs w (.g3 g) m⟩⟩

/-! ### Comparison -/

/-- The flags of a comparison (40_group0_accumulator.md R139): C, Z and N order the two numbers, the others are kept. -/
theorem setCompare_subCore {n : Nat} (hn : 0 < n) (f : Flags) (a m : BitVec n) :
    let g := f.setCompare (subCore a m true)
    (g.c = true ↔ m.toNat ≤ a.toNat) ∧ (g.z = true ↔ a = m) ∧ g.n = topBit (a - m) ∧ g.v = f.v ∧ g.d = f.d ∧
      g.i = f.i := by
  obtain ⟨-, hneg, -, -, -, hcarry, -⟩ := subtracts_subCore hn f a m true
  rw [subCore_result] at hneg
  exact ⟨hcarry, subCore_zero a m, hneg, rfl, rfl, rfl⟩

/-- `State.compare`: the register is ordered against the operand. -/
theorem State.compare_orders (s : State) (w : Width) (r : Reg) (o : Operand) :
    let a := (s.seen (o.len w) r).setWidth w.bits
    let m := (s.advance (o.len w)).operand w o
    let g := (s.compare w r o).flags
    (g.c = true ↔ m.toNat ≤ a.toNat) ∧ (g.z = true ↔ a = m) ∧ g.n = topBit (a - m) ∧ g.v = s.flags.v ∧
      g.d = s.flags.d ∧ g.i = s.flags.i ∧ Frame s (s.compare w r o) (o.len w) [] [] := by
  obtain ⟨hflags, hframe⟩ := State.compare_spec s w r o
  obtain ⟨hc, hz, hn, hv, hd, hi⟩ := setCompare_subCore (Width.bits_pos w) s.flags
    ((s.seen (o.len w) r).setWidth w.bits) ((s.advance (o.len w)).operand w o)
  intro a m g
  rw [show g = _ from hflags]
  exact ⟨hc, hz, hn, hv, hd, hi, hframe⟩

/-- Settles O18: the law of `State.compare` for a register of each file. -/
theorem comparesOrderRegisterAndOperand : Obligations.ComparesOrderRegisterAndOperand := by
  intro w r o s m
  simp only [List.forall_mem_cons, List.not_mem_nil, false_imp_iff, implies_true, and_true]
  exact ⟨⟨_, rfl, State.compare_orders s w (.a r) o⟩, ⟨_, rfl, State.compare_orders s w (.x r) o⟩,
    ⟨_, rfl, State.compare_orders s w (.y r) o⟩⟩

/-! ### Addition and subtraction -/

section Arith
variable (s : State) (w : Width) (r : Reg) (o : Operand)
  {f : Flags → BitVec w.bits → BitVec w.bits → ArithResult w.bits}

/-- An addition that the binary adder does. -/
theorem State.arith_adds (cin : Bool) (hf : ∀ a m, f s.flags a m = addCore a m cin) :
    let a := (s.seen (o.len w) r).setWidth w.bits
    let m := (s.advance (o.len w)).operand w o
    let t := s.arith w r o f
    HoldsLow w (s.seen (o.len w) r) (t.reg r) (addCore a m cin).result ∧
      Adds s.flags t.flags a m (addCore a m cin).result cin ∧ Frame s t (o.len w) [r] [] := by
  obtain ⟨hreg, hflags, hframe⟩ := State.arith_spec s w r o f
  rw [hf] at hreg hflags
  refine ⟨hreg, ?_, hframe⟩
  rw [hflags]
  exact adds_addCore (Width.bits_pos w) s.flags _ _ cin

/-- A subtraction that the binary adder does. -/
theorem State.arith_subtracts (cin : Bool) (hf : ∀ a m, f s.flags a m = subCore a m cin) :
    let a := (s.seen (o.len w) r).setWidth w.bits
    let m := (s.advance (o.len w)).operand w o
    let t := s.arith w r o f
    HoldsLow w (s.seen (o.len w) r) (t.reg r) (subCore a m cin).result ∧
      Subtracts s.flags t.flags a m (subCore a m cin).result cin ∧ Frame s t (o.len w) [r] [] := by
  obtain ⟨hreg, hflags, hframe⟩ := State.arith_spec s w r o f
  rw [hf] at hreg hflags
  refine ⟨hreg, ?_, hframe⟩
  rw [hflags]
  exact subtracts_subCore (Width.bits_pos w) s.flags _ _ cin

/-- An addition or subtraction whose result and flags are known. -/
theorem State.arith_of_eq {x : ArithResult w.bits}
    (hf : f s.flags ((s.seen (o.len w) r).setWidth w.bits) ((s.advance (o.len w)).operand w o) = x) :
    let t := s.arith w r o f
    HoldsLow w (s.seen (o.len w) r) (t.reg r) x.result ∧
      t.flags = ⟨x.negative, x.overflow, s.flags.d, s.flags.i, x.zero, x.carry⟩ ∧ Frame s t (o.len w) [r] [] :=
  hf ▸ State.arith_spec s w r o f

end Arith

/-- With the decimal flag clear the adder is binary (R132). -/
theorem addDecimal_of_clear {n : Nat} {d : Bool} (h : d = false) (a m : BitVec n) (c : Bool) :
    addDecimal d a m c = addCore a m c := by
  rw [h]
  rfl

/-- With the decimal flag clear the subtractor is binary (R132). -/
theorem subDecimal_of_clear {n : Nat} {d : Bool} (h : d = false) (a m : BitVec n) (c : Bool) :
    subDecimal d a m c = subCore a m c := by
  rw [h]
  rfl

/-- With the decimal flag set the adder is the open parameter (R132). -/
theorem addDecimal_of_set {n : Nat} {d : Bool} (h : d = true) (a m : BitVec n) (c : Bool) :
    addDecimal d a m c = Config.bcdAdc n a m c := by
  rw [h]
  rfl

/-- With the decimal flag set the subtractor is the open parameter (R132). -/
theorem subDecimal_of_set {n : Nat} {d : Bool} (h : d = true) (a m : BitVec n) (c : Bool) :
    subDecimal d a m c = Config.bcdSbc n a m c := by
  rw [h]
  rfl

/-- Settles O19: with D clear the adder and the subtractor are binary. -/
theorem binaryAddAndSubtract : Obligations.BinaryAddAndSubtract := by
  intro w r o s hd a m
  simp only [List.forall_mem_cons, List.not_mem_nil, false_imp_iff, implies_true, and_true]
  exact ⟨
    ⟨⟨_, _, rfl, State.arith_adds s w (.a r) o s.flags.c fun _ _ => addDecimal_of_clear hd _ _ _⟩,
      ⟨_, _, rfl, State.arith_adds s w (.a r) o false fun _ _ => addDecimal_of_clear hd _ _ _⟩⟩,
    ⟨⟨_, _, rfl, State.arith_subtracts s w (.a r) o s.flags.c fun _ _ => subDecimal_of_clear hd _ _ _⟩,
      ⟨_, _, rfl, State.arith_subtracts s w (.a r) o true fun _ _ => subDecimal_of_clear hd _ _ _⟩⟩⟩

/-- Settles O20: with D set the adder and the subtractor are the open parameters. -/
theorem decimalAddAndSubtractUseTheParameters : Obligations.DecimalAddAndSubtractUseTheParameters := by
  intro w r o s hd a m
  simp only [List.forall_mem_cons, List.not_mem_nil, false_imp_iff, implies_true, and_true]
  exact ⟨⟨_, rfl, State.arith_of_eq s w (.a r) o (addDecimal_of_set hd _ _ _)⟩,
    ⟨_, rfl, State.arith_of_eq s w (.a r) o (addDecimal_of_set hd _ _ _)⟩,
    ⟨_, rfl, State.arith_of_eq s w (.a r) o (subDecimal_of_set hd _ _ _)⟩,
    ⟨_, rfl, State.arith_of_eq s w (.a r) o (subDecimal_of_set hd _ _ _)⟩⟩

/-- Settles O21: the adder of these five does not look at D. -/
theorem registerAddAndSubtractAreAlwaysBinary : Obligations.RegisterAddAndSubtractAreAlwaysBinary := by
  intro w r g o s m
  simp only [List.forall_mem_cons, List.not_mem_nil, false_imp_iff, implies_true, and_true]
  exact ⟨
    ⟨⟨_, _, rfl, State.arith_adds s w (.g3 g) o false fun _ _ => rfl⟩,
      ⟨_, _, rfl, State.arith_adds s w (.x r) o false fun _ _ => rfl⟩,
      ⟨_, _, rfl, State.arith_adds s w (.y r) o false fun _ _ => rfl⟩⟩,
    ⟨⟨_, _, rfl, State.arith_subtracts s w (.g3 g) o true fun _ _ => rfl⟩,
      ⟨_, _, rfl, State.arith_subtracts s w (.x r) o true fun _ _ => rfl⟩⟩⟩

end Sys2Proof.Machine

/-! ## Group 1: shifts, increments and exchanges (41_group1_shifts.md) -/

namespace Sys2Proof.Machine

/-! ### The shifts in arithmetic (R161 to R167) -/

section Shifts
variable {n : Nat} (v : BitVec n) (c : Bool)

theorem getLsbD_zero_eq_decide : v.getLsbD 0 = decide (v.toNat % 2 = 1) := by
  simp [BitVec.getLsbD, Nat.testBit_zero]

theorem shiftLeft_toNat : (shiftLeft v c).1.toNat = 2 * v.toNat % 2 ^ n := by
  rw [shiftLeft, BitVec.toNat_shiftLeft, Nat.shiftLeft_eq, Nat.mul_comm]

theorem shiftRight_toNat : (shiftRight v c).1.toNat = v.toNat / 2 := by
  rw [shiftRight, BitVec.toNat_ushiftRight, Nat.shiftRight_eq_div_pow, pow_one]

/-- A carry is one bit. -/
theorem carryBit_toNat (hn : 0 < n) : (carryBit n c).toNat = c.toNat := by
  rw [carryBit, BitVec.toNat_setWidth, BitVec.toNat_ofBool, Nat.mod_eq_of_lt]
  exact (Bool.toNat_lt c).trans_le (Nat.pow_le_pow_right Nat.two_pos hn)

/-- ROL moves the carry into the bit that the shift leaves free. -/
theorem rotateLeft_toNat (hn : 0 < n) : (rotateLeft v c).1.toNat = (2 * v.toNat + c.toNat) % 2 ^ n := by
  obtain ⟨k, rfl⟩ : ∃ k, n = k + 1 := ⟨n - 1, by omega⟩
  have hc := Bool.toNat_lt c
  have hp : (2 : Nat) ^ (k + 1) = 2 * 2 ^ k := by ring
  have hshift : (v <<< 1).toNat = 2 ^ 1 * (v.toNat % 2 ^ k) := by
    rw [BitVec.toNat_shiftLeft, Nat.shiftLeft_eq, Nat.mul_comm, pow_one, hp, Nat.mul_mod_mul_left]
  have hlt : 2 * (v.toNat % 2 ^ k) + c.toNat < 2 * 2 ^ k := by
    have := Nat.mod_lt v.toNat (Nat.two_pow_pos k)
    omega
  have hsplit : 2 * v.toNat + c.toNat = 2 * (v.toNat % 2 ^ k) + c.toNat + 2 * 2 ^ k * (v.toNat / 2 ^ k) := by
    conv_lhs => rw [← Nat.mod_add_div v.toNat (2 ^ k)]
    ring
  rw [rotateLeft, BitVec.toNat_or, carryBit_toNat c hn, hshift, ← Nat.two_pow_add_eq_or_of_lt hc, hp, hsplit,
    Nat.add_mul_mod_self_left, Nat.mod_eq_of_lt hlt, pow_one]

/-- ROR moves the carry into the top bit. -/
theorem rotateRight_toNat (hn : 0 < n) :
    (rotateRight v c).1.toNat = v.toNat / 2 + c.toNat * 2 ^ (n - 1) := by
  obtain ⟨k, rfl⟩ : ∃ k, n = k + 1 := ⟨n - 1, by omega⟩
  have hv := v.isLt
  have hc := Bool.toNat_lt c
  have hp : (2 : Nat) ^ (k + 1) = 2 * 2 ^ k := by ring
  have hcarry : (carryBit (k + 1) c <<< k).toNat = 2 ^ k * c.toNat := by
    rw [BitVec.toNat_shiftLeft, Nat.shiftLeft_eq, carryBit_toNat c hn, Nat.mul_comm, Nat.mod_eq_of_lt]
    rw [hp, Nat.mul_comm 2]
    exact Nat.mul_lt_mul_of_pos_left hc (Nat.two_pow_pos k)
  rw [rotateRight, Nat.add_sub_cancel, BitVec.toNat_or, hcarry, BitVec.toNat_ushiftRight, Nat.shiftRight_eq_div_pow,
    Nat.or_comm, ← Nat.two_pow_add_eq_or_of_lt (by omega)]
  ring

/-- The top bit of a number is its quotient by the weight of that bit. -/
theorem and_twoPow_top_toNat (hn : 0 < n) :
    (v &&& BitVec.twoPow n (n - 1)).toNat = 2 ^ (n - 1) * (v.toNat / 2 ^ (n - 1)) := by
  obtain ⟨k, rfl⟩ : ∃ k, n = k + 1 := ⟨n - 1, by omega⟩
  have hv := v.isLt
  have hp : (2 : Nat) ^ (k + 1) = 2 * 2 ^ k := by ring
  rw [BitVec.and_twoPow, ← BitVec.msb_eq_getLsbD_last, msb_eq_topBit, topBit, Nat.add_sub_cancel]
  by_cases h : 2 ^ k ≤ v.toNat
  · have hq : v.toNat / 2 ^ k = 1 := Nat.div_eq_of_lt_le (by omega) (by omega)
    rw [if_pos (decide_eq_true h), BitVec.toNat_twoPow, Nat.mod_eq_of_lt (by omega), hq, Nat.mul_one]
  · rw [if_neg (by simpa using h), Nat.div_eq_of_lt (by omega), BitVec.toNat_zero, Nat.mul_zero]

/-- ASR keeps the top bit (R167). -/
theorem arithmeticRight_toNat (hn : 0 < n) :
    (arithmeticRight v c).1.toNat = v.toNat / 2 + v.toNat / 2 ^ (n - 1) * 2 ^ (n - 1) := by
  obtain ⟨k, rfl⟩ : ∃ k, n = k + 1 := ⟨n - 1, by omega⟩
  have hv := v.isLt
  have hp : (2 : Nat) ^ (k + 1) = 2 * 2 ^ k := by ring
  rw [arithmeticRight, BitVec.toNat_or, and_twoPow_top_toNat v hn, BitVec.toNat_ushiftRight, Nat.shiftRight_eq_div_pow,
    Nat.or_comm, ← Nat.two_pow_add_eq_or_of_lt (by rw [Nat.add_sub_cancel]; omega)]
  ring

end Shifts

/-- `State.shift` with its result and carry in arithmetic. -/
theorem State.shift_computes {s : State} (hs : s.Inv) (w : Width) (p : Place) {f : Shift w.bits} {r : Nat} {c : Bool}
    (hr : (f ((s.advance p.len).placeValue w p) s.flags.c).1.toNat = r)
    (hc : (f ((s.advance p.len).placeValue w p) s.flags.c).2 = c) :
    ∃ t x, (.next (s.shift w p f) : Host.Outcome State Fault Refusal) = .next t ∧ x.toNat = r ∧
      PlaceHolds s t p.len w p x ∧ t.flags = { s.flags with n := topBit x, z := isZero x, c := c } := by
  obtain ⟨hplace, hflags⟩ := State.shift_spec hs w p f
  exact ⟨_, _, rfl, hr, hplace, hc ▸ hflags⟩

/-- Settles O22: the law of `State.shift` with the five shifts in arithmetic. -/
theorem shiftsAndRotatesMoveEveryBit : Obligations.ShiftsAndRotatesMoveEveryBit := by
  intro w p s hs v c half
  have hn := Width.bits_pos w
  simp only [List.forall_mem_cons, List.not_mem_nil, false_imp_iff, implies_true, and_true]
  exact ⟨State.shift_computes hs w p (shiftLeft_toNat _ _) (msb_eq_topBit _),
    State.shift_computes hs w p (shiftRight_toNat _ _) (getLsbD_zero_eq_decide _),
    State.shift_computes hs w p (rotateLeft_toNat _ _ hn) (msb_eq_topBit _),
    State.shift_computes hs w p (rotateRight_toNat _ _ hn) (getLsbD_zero_eq_decide _),
    State.shift_computes hs w p (arithmeticRight_toNat _ _ hn) (getLsbD_zero_eq_decide _)⟩

/-! ### Increment and decrement -/

theorem one_toNat {n : Nat} (hn : 0 < n) : (1 : BitVec n).toNat = 1 :=
  (BitVec.toNat_ofNat 1 n).trans (Nat.mod_eq_of_lt (Nat.one_lt_two_pow hn.ne'))

/-- Settles O23: the law of `State.modify` with the two steps in arithmetic. -/
theorem incrementAndDecrementByOne : Obligations.IncrementAndDecrementByOne := by
  intro w p s hs v
  have h1 := one_toNat (Width.bits_pos w)
  simp only [List.forall_mem_cons, List.not_mem_nil, false_imp_iff, implies_true, and_true]
  refine ⟨⟨_, _, rfl, ?_, State.modify_spec hs w p _⟩, ⟨_, _, rfl, ?_, State.modify_spec hs w p _⟩⟩
  · rw [BitVec.toNat_add, h1]
  · have := Nat.two_pow_pos w.bits
    rw [BitVec.toNat_sub, h1]
    congr 1
    omega

/-! ### Exchange -/

/-- Replacing the low bits twice keeps the last. -/
theorem replaceLow_replaceLow (w : Width) (old : Long) (x v : BitVec w.bits) :
    replaceLow w (replaceLow w old x) v = replaceLow w old v := by
  cases w with
  | byte => exact congrArg (· ++ v) BitVec.extractLsb'_append_eq_left
  | long => rfl

/-- A register written last holds the last value in its low bits, whatever was written before. -/
theorem State.reg_write_write (s : State) (q r : Reg) (w : Width) (x v : BitVec w.bits) :
    ((s.write q w x).write r w v).reg r = replaceLow w (s.reg r) v := by
  rw [State.reg_write_same, State.reg_write]
  split_ifs with h
  · rw [← h, replaceLow_replaceLow]
  · rfl

/-- EXG with a register: the operand is written first, so that with the same register twice the register keeps its
value. -/
theorem exchange_register (s : State) (w : Width) (r : Fin 4) (q : Reg) :
    ∃ t, exec (.exg w r (.acc q)) s = .next t ∧
      HoldsLow w (s.reg (.a r)) (t.reg (.a r)) ((s.seen 1 q).setWidth w.bits) ∧
      HoldsLow w (s.seen 1 q) (t.reg q) (s.read (.a r) w) ∧
      SetsNZ s.flags t.flags ((s.seen 1 q).setWidth w.bits) ∧ Frame s t 1 [.a r, q] [] := by
  rw [← State.read_advance]
  refine ⟨((s.advance 1).write q w (s.read (.a r) w)).writeNZ (.a r) w ((s.advance 1).read q w), rfl, ?_, ?_, ?_,
    (((Frame.of_advance s 1).write q w _).write (.a r) w _).setFlags _⟩
  · rw [State.writeNZ, State.reg_setFlags, State.reg_write_write, State.reg_advance]
    exact holdsLow_replaceLow w _ _
  · rw [State.writeNZ, State.reg_setFlags]
    by_cases hq : q = .a r
    · subst hq
      rw [State.reg_write_write, State.reg_advance]
      exact holdsLow_replaceLow w _ _
    · rw [State.reg_write_of_ne _ w _ hq, State.reg_write_same, State.reg_advance]
      exact holdsLow_replaceLow w _ _
  · rw [State.writeNZ, State.setFlags_flags, State.write_flags]
    exact setsNZ_setNZ _ _

/-- EXG with memory. -/
theorem exchange_memory {s : State} (hs : s.Inv) (w : Width) (r : Fin 4) (m : MemMode) :
    let u := s.advance m.len
    ∃ t, exec (.exg w r (.mem m)) s = .next t ∧
      HoldsLow w (s.reg (.a r)) (t.reg (.a r)) (u.load (u.ea m) w) ∧ t.load (u.ea m) w = s.read (.a r) w ∧
      SetsNZ s.flags t.flags (u.load (u.ea m) w) ∧ Frame s t m.len [.a r] (cellsOf (u.ea m) w) := by
  intro u
  have hu : u.Inv := hs
  refine ⟨(u.store (u.ea m) w (s.read (.a r) w)).writeNZ (.a r) w (u.load (u.ea m) w), rfl, ?_, ?_, ?_, ?_⟩
  · rw [State.writeNZ, State.reg_setFlags, State.reg_write_same, State.reg_store, State.reg_advance]
    exact holdsLow_replaceLow w _ _
  · rw [State.load, State.writeNZ_mem]
    exact State.load_store hu _ w _
  · exact setsNZ_setNZ _ _
  · exact ((((Frame.of_advance s m.len).store hu _ w _).write (.a r) w _).setFlags _).mono (fun _ => id)
      (by rw [List.append_nil]; exact fun _ => id)

/-- Settles O24. -/
theorem exchangeSwapsRegisterAndOperand : Obligations.ExchangeSwapsRegisterAndOperand :=
  fun w r s hs => ⟨exchange_register s w r, exchange_memory hs w r⟩

end Sys2Proof.Machine

/-! ## Groups 2, 3 and 4: branches, BIT, jumps, calls and BRK (42_group2_branches.md to 44_group4_brk.md) -/

namespace Sys2Proof.Machine

/-! ### Branches -/

/-- The length of an instruction with an immediate or a displacement (30_encoding.md R92). -/
theorem Width.len_eq (w : Width) : w.len = if w = .byte then 2 else 3 := by
  cases w <;> rfl

/-- A branch, with the length of its displacement written out. -/
theorem State.branch_eq_jump (s : State) (w : Width) (d : Long) (c : Bool) :
    s.branch w d c = s.jump (s.pc + (if w = .byte then 2 else 3) + if c = true then d else 0) := by
  rw [State.branch_eq]
  cases w <;> rfl

/-- Settles O25: the law of `State.branch`, and the condition of each branch as a proposition. -/
theorem branchesTestTheirConditions : Obligations.BranchesTestTheirConditions := by
  intro w d s
  have branch {c c' : Bool} (h : c = c') : (.next (s.branch w d c) : Host.Outcome State Fault Refusal) =
      .next { s with pc := s.pc + (if w = .byte then 2 else 3) + (if c' = true then d else 0) } := by
    rw [h, State.branch_eq_jump]
    rfl
  simp only [List.forall_mem_cons, List.not_mem_nil, false_imp_iff, implies_true, and_true]
  refine ⟨branch ?bpl, branch ?bmi, branch ?bvc, branch ?bvs, branch ?bcc, branch ?bcs, branch ?bne, branch ?beq,
    branch ?bge, branch ?blt, branch ?ble, branch ?bgt, branch ?bls, branch ?bhi, branch rfl, branch rfl⟩
  case bmi | bvs | bcs | beq => exact (Bool.decide_coe _).symm
  all_goals
    rw [Bool.eq_iff_iff, decide_eq_true_eq]
    simp

/-- A branch with a displacement reaches its target exactly when its condition holds. -/
theorem branch_taken_iff (s : State) (w : Width) {d : Long} (hd : d ≠ 0) (c : Bool) :
    (.next (s.branch w d c) : Host.Outcome State Fault Refusal) =
      .next (s.jump (s.pc + (if w = .byte then 2 else 3) + d)) ↔ c = true := by
  rw [State.branch_eq_jump]
  cases c with
  | true => simp
  | false =>
    simp only [Bool.false_eq_true, if_false, iff_false]
    intro h
    have hpc := congrArg State.pc (Host.Outcome.next.inj h)
    simp only [State.jump_pc] at hpc
    exact hd (by simpa using hpc.symm)

/-- After a subtraction without borrow N and V agree exactly when the difference of the signed numbers is not negative
(42_group2_branches.md R189). -/
theorem negative_eq_overflow_iff {n : Nat} (hn : 0 < n) (f : Flags) (a m : BitVec n) :
    (f.setArith (subCore a m true)).n = (f.setArith (subCore a m true)).v ↔ m.toInt ≤ a.toInt := by
  obtain ⟨-, hneg, -, -, -, -, hover⟩ := subtracts_subCore hn f a m true
  rw [hneg, subCore_result, Bool.eq_iff_iff, hover, topBit, decide_eq_true_eq]
  obtain ⟨k, rfl⟩ : ∃ k, n = k + 1 := ⟨n - 1, by omega⟩
  have ha := a.isLt
  have hm := m.isLt
  have hp : (2 : Nat) ^ (k + 1) = 2 ^ k + 2 ^ k := by ring
  have hp' : ((2 : Int) ^ k) = ((2 ^ k : Nat) : Int) := by norm_cast
  have hr : (a - m).toNat = if m.toNat ≤ a.toNat then a.toNat - m.toNat else a.toNat + 2 ^ (k + 1) - m.toNat := by
    rw [BitVec.toNat_sub]
    split_ifs with h
    · rw [show 2 ^ (k + 1) - m.toNat + a.toNat = a.toNat - m.toNat + 2 ^ (k + 1) by omega, Nat.add_mod_right,
        Nat.mod_eq_of_lt (by omega)]
    · rw [Nat.mod_eq_of_lt (by omega)]
      omega
  simp only [SignedOverflow, BitVec.toInt_eq_msb_cond, BitVec.msb_eq_decide, Nat.add_sub_cancel, decide_eq_true_eq, hr,
    hp']
  rw [hp] at ha hm ⊢
  generalize 2 ^ k = p at *
  split_ifs <;> simp <;> omega

/-- Settles O26: C and Z order unsigned numbers, N and V signed ones. -/
theorem branchesCompareAfterSubtraction : Obligations.BranchesCompareAfterSubtraction := by
  intro n a m f w d s hn hd u taken
  have hc : u.flags.c = true ↔ m.toNat ≤ a.toNat := (subtracts_subCore hn f a m true).2.2.2.2.2.1
  have hz : u.flags.z = true ↔ a = m := subCore_zero a m
  have hs : u.flags.n = u.flags.v ↔ m.toInt ≤ a.toInt := negative_eq_overflow_iff hn f a m
  have branch {i : Instr} {c : Bool} (h : exec i u = .next (u.branch w d c)) : taken i ↔ c = true := by
    show exec i u = _ ↔ _
    rw [h]
    exact branch_taken_iff u w hd c
  have hnat : a = m ↔ a.toNat = m.toNat := BitVec.toNat_inj.symm
  have hint : a = m ↔ a.toInt = m.toInt := BitVec.toInt_inj.symm
  refine ⟨(branch rfl).trans ?_, (branch rfl).trans ?_, (branch rfl).trans ?_, (branch rfl).trans ?_,
    (branch rfl).trans ?_, (branch rfl).trans ?_, (branch rfl).trans ?_, (branch rfl).trans ?_, (branch rfl).trans ?_,
    (branch rfl).trans ?_⟩
  · rw [beq_iff_eq, hs]
  · rw [bne_iff_ne, ne_eq, hs]
    omega
  · rw [Bool.or_eq_true, bne_iff_ne, ne_eq, hs, hz, hint]
    omega
  · rw [Bool.and_eq_true, Bool.not_eq_true', ← Bool.not_eq_true, beq_iff_eq, hs, hz, hint]
    omega
  · rw [Bool.not_eq_true', ← Bool.not_eq_true, hc]
    omega
  · exact hc
  · rw [Bool.or_eq_true, Bool.not_eq_true', ← Bool.not_eq_true, hc, hz, hnat]
    omega
  · rw [Bool.and_eq_true, Bool.not_eq_true', ← Bool.not_eq_true, hc, hz, hnat]
    omega
  · rw [Bool.not_eq_true', ← Bool.not_eq_true, hz]
  · exact hz

/-! ### BIT -/

/-- One bit of a number (R210). -/
theorem getLsbD_iff_le_mod {n : Nat} (v : BitVec n) (i : Nat) : v.getLsbD i = true ↔ 2 ^ i ≤ v.toNat % 2 ^ (i + 1) := by
  have hlt := Nat.mod_lt v.toNat (Nat.two_pow_pos i)
  rw [BitVec.getLsbD, Nat.testBit_eq_decide_div_mod_eq, decide_eq_true_eq, Nat.mod_pow_succ]
  rcases Nat.mod_two_eq_zero_or_one (v.toNat / 2 ^ i) with h | h <;> rw [h] <;> omega

/-- No bit is set in both numbers. -/
theorem and_eq_zero_iff {n : Nat} (a v : BitVec n) :
    (a &&& v == 0) = true ↔ ∀ j, ¬(v.getLsbD j = true ∧ a.getLsbD j = true) := by
  rw [beq_iff_eq]
  constructor
  · intro h j hj
    have := congrArg (·.getLsbD j) h
    simp [hj] at this
  · intro h
    apply BitVec.eq_of_getLsbD_eq
    intro j _
    simpa [and_comm] using h j

/-- Settles O27: the three bits that BIT reads. -/
theorem bitTestsMemory : Obligations.BitTestsMemory := by
  intro w r m s v
  refine ⟨_, rfl, and_eq_zero_iff _ v, ?_, ?_, rfl, rfl, rfl, (Frame.of_advance s m.len).setFlags _⟩
  · show v.getLsbD (w.bits - 1) = true ↔ _
    rw [← BitVec.msb_eq_getLsbD_last, msb_eq_topBit, topBit, decide_eq_true_eq]
  · refine (getLsbD_iff_le_mod v (w.bits - 2)).trans ?_
    cases w <;> rfl

/-! ### Jumps and calls -/

/-- Settles O28: the call pushes below SP and jumps. -/
theorem jumpAndCallGoToTheEffectiveAddress : Obligations.JumpAndCallGoToTheEffectiveAddress := by
  intro m s hs ea
  obtain ⟨hload, hsp, hflags, hframe⟩ :=
    State.push_advance_spec hs m.len spReg .long (s.pc + BitVec.ofNat 32 m.len - 1)
  exact ⟨rfl, _, rfl, rfl, hsp, hload, hflags, hframe.jump ea⟩

/-- Settles O29: the pull undoes the push of the call, and 1 is added to the address of the call's last word. -/
theorem returnUndoesCall : Obligations.ReturnUndoesCall := by
  intro m s t hs h
  obtain ⟨-, rfl⟩ := exec_eq_next_iff.mp h
  let u := s.advance m.len
  have hpulled : (u.push spReg .long (u.pc - 1)).pulled spReg .long = u.pc - 1 := State.pulled_push hs spReg .long _
  have hregs := State.reg_pull_push u spReg .long (u.pc - 1)
  refine ⟨_, rfl, ?_, fun r => ?_⟩
  · simp [Instr.op, Op.run]
  · show ((((u.push spReg .long (u.pc - 1)).pull spReg .long).jump _).jump
      ((u.push spReg .long (u.pc - 1)).pulled spReg .long + 1)).reg r = _
    rw [State.reg_jump, State.reg_jump, hregs, hpulled, BitVec.sub_add_cancel, State.reg_advance]
    split_ifs with hr
    · rw [hr]
      rfl
    · rfl

/-! ### BRK -/

/-- Settles O30: the law of the trap entry. -/
theorem breakEntersItsTrap : Obligations.BreakEntersItsTrap := by
  intro v s hs
  have hv : BitVec.ofNat 32 (0xFFFFFF00 + 2 * v.toNat) = vectorAddress v := by
    rw [← vectorAddress_toNat, BitVec.ofNat_toNat, BitVec.setWidth_eq]
  rw [hv]
  exact ⟨_, rfl, State.enterTrap_entered hs _ _ _, State.enterTrap_nmiPending _ _ _ _, State.enterTrap_waiting _ _ _ _,
    State.enterTrap_inputs _ _ _ _⟩

/-- The status byte gives the flags back, whatever its bit 4 (10_state.md R28). -/
theorem ofStatus_status (f : Flags) (b : Bool) : Flags.ofStatus (f.status b) = f := by
  obtain ⟨n, v, d, i, z, c⟩ := f
  revert n v d i z c b
  decide

/-- An instruction that returns from a trap restores what its entry pushed. -/
theorem leaveTrap_of_entered {s t : State} {ret : Long} {b : Bool} {vec : Long} (h : TrapEntered s t ret b vec)
    (n : Nat) :
    let u := (t.advance n).leaveTrap spReg
    u.pc = ret ∧ u.flags = s.flags ∧ ∀ r, r ≠ .g3 .pc → u.reg r = s.reg r := by
  have hsp : (t.advance n).reg spReg = s.sp - 3 := h.sp
  refine ⟨?_, ?_, fun r hr => ?_⟩
  · rw [← State.reg_pc, State.reg_leaveTrap, if_pos rfl, hsp, show s.sp - 3 + 1 + 1 = s.sp - 1 by bv_omega]
    show join (t.mem.readWord (s.sp - 1)) (t.mem.readWord (s.sp - 1 + 1)) = ret
    rw [BitVec.sub_add_cancel, h.returnLow, h.returnHigh, join_split]
  · rw [State.leaveTrap_flags, hsp, show s.sp - 3 + 1 = s.sp - 2 by bv_omega]
    exact (congrArg Flags.ofStatus h.status).trans (ofStatus_status s.flags b)
  · rw [State.reg_leaveTrap, if_neg hr, hsp, State.reg_advance, State.seen_of_ne t n hr]
    split_ifs with hq
    · rw [hq, State.reg_spReg]
      bv_omega
    · exact h.registers r hq hr

/-- Settles O31: RTI undoes the trap entry of BRK. -/
theorem returnFromInterruptUndoesBreak : Obligations.ReturnFromInterruptUndoesBreak := by
  intro v s t hs h
  obtain ⟨-, rfl⟩ := exec_eq_next_iff.mp h
  exact ⟨_, rfl, leaveTrap_of_entered (State.enterTrap_entered hs _ true (vectorAddress v)) 1⟩

end Sys2Proof.Machine

/-! ## Groups 7 to 10: counting, the stack, returns and transfers (47_group7_index_incdec.md to
49_group9_10_returns_transfers.md) -/

namespace Sys2Proof.Machine

/-! ### Counting -/

/-- A constant of the DEX group fits in either width. -/
theorem count_toNat {k : Nat} (hk : k ≤ 8) (w : Width) : (BitVec.ofNat w.bits k).toNat = k := by
  rw [BitVec.toNat_ofNat, Nat.mod_eq_of_lt]
  cases w <;> simp only [Width.bits] <;> omega

/-- Adding a constant (47_group7_index_incdec.md R283 to R285, R287). -/
theorem add_count_toNat {k : Nat} (hk : k ≤ 8) (w : Width) (x : Long) :
    (x.setWidth w.bits + BitVec.ofNat w.bits k).toNat = (x.toNat % 2 ^ w.bits + k) % 2 ^ w.bits := by
  rw [BitVec.toNat_add, count_toNat hk, BitVec.toNat_setWidth]

/-- Subtracting a constant (47_group7_index_incdec.md R281, R282, R286). -/
theorem sub_count_toNat {k : Nat} (hk : k ≤ 8) (w : Width) (x : Long) :
    (x.setWidth w.bits - BitVec.ofNat w.bits k).toNat = (x.toNat % 2 ^ w.bits + 2 ^ w.bits - k) % 2 ^ w.bits := by
  rw [BitVec.toNat_sub, count_toNat hk, BitVec.toNat_setWidth]
  congr 1
  cases w <;> simp only [Width.bits] <;> omega

/-- Settles O34: the law of `State.stepReg` with the two steps in arithmetic. -/
theorem countingInstructionsStepARegister : Obligations.CountingInstructionsStepARegister := by
  intro w k x g s _ hk
  have down (r : Reg) := State.stepReg_spec s w r fun a => a - BitVec.ofNat w.bits k
  have up (r : Reg) := State.stepReg_spec s w r fun a => a + BitVec.ofNat w.bits k
  simp only [List.forall_mem_cons, List.not_mem_nil, false_imp_iff, implies_true, and_true]
  exact ⟨⟨_, _, rfl, sub_count_toNat hk w _, down _⟩, ⟨_, _, rfl, sub_count_toNat hk w _, down _⟩,
    ⟨_, _, rfl, add_count_toNat hk w _, up _⟩, ⟨_, _, rfl, add_count_toNat hk w _, up _⟩,
    ⟨_, _, rfl, add_count_toNat hk w _, up _⟩, ⟨_, _, rfl, sub_count_toNat hk w _, down _⟩,
    ⟨_, _, rfl, add_count_toNat hk w _, up _⟩⟩

/-! ### The stack -/

theorem stackWords_eq (w : Width) : stackWords w = if w = .byte then 1 else 2 := by
  cases w <;> rfl

theorem pushAddress_eq (sp : Long) (w : Width) : pushAddress sp w = if w = .byte then sp else sp - 1 := by
  cases w <;> rfl

/-- A push through any register but PC, in the words of the statements. -/
theorem push_completes {s : State} (hs : s.Inv) {sr : Reg} (hsr : sr ≠ .g3 .pc) (n : Nat) (w : Width)
    (v : BitVec w.bits) :
    let at_ := if w = .byte then s.reg sr else s.reg sr - 1
    ∃ t, onStack sr ((s.advance n).push sr w v) = .next t ∧ t.load at_ w = v ∧
      t.reg sr = s.reg sr - (if w = .byte then 1 else 2) ∧ t.flags = s.flags ∧ Frame s t n [sr] (cellsOf at_ w) := by
  have h := State.push_advance_spec hs n sr w v
  rw [State.seen_of_ne s n hsr, pushAddress_eq, stackWords_eq] at h
  exact ⟨_, onStack_of_ne hsr _, h⟩

/-- Settles O35: the law of a push, whose datum is read before the stack register moves. -/
theorem pushesStoreBelowTheStackRegister : Obligations.PushesStoreBelowTheStackRegister := by
  intro w r v sr s hs hsr
  simp only [List.forall_mem_cons, List.not_mem_nil, false_imp_iff, implies_true, and_true]
  refine ⟨⟨push_completes hs hsr 1 w _, push_completes hs hsr 1 w _, push_completes hs hsr 1 w _, ?_⟩,
    push_completes hs hsr 1 .byte _⟩
  rw [← Width.len_eq]
  exact push_completes hs hsr w.len w _

/-- A pull through any register but PC, in the words of the statements. -/
theorem pull_completes (s : State) {sr : Reg} (hsr : sr ≠ .g3 .pc) (w : Width) {dst : Reg} (hdst : dst ≠ .g3 .pc) :
    let v := s.load (s.reg sr + 1) w
    let up := s.reg sr + (if w = .byte then 1 else 2)
    ∃ t, onStack sr (s.pullReg w dst sr) = .next t ∧
      HoldsLow w (if dst = sr then up else s.reg dst) (t.reg dst) v ∧ (sr ≠ dst → t.reg sr = up) ∧
      SetsNZ s.flags t.flags v ∧ Frame s t 1 [dst, sr] [] := by
  obtain ⟨hreg, hsp, hflags, hframe⟩ := State.pullReg_spec s w dst sr
  rw [State.seen_of_ne s 1 hsr, stackWords_eq] at hreg hsp
  rw [State.seen_of_ne s 1 hsr] at hflags
  rw [State.seen_of_ne s 1 hdst] at hreg
  refine ⟨_, onStack_of_ne hsr _, ?_, hsp, hflags, hframe⟩
  rw [hreg]
  exact holdsLow_replaceLow w _ _

/-- Settles O36: the law of a pull into a register of each file. -/
theorem pullsLoadAboveTheStackRegister : Obligations.PullsLoadAboveTheStackRegister := by
  intro w r sr s hsr
  simp only [List.forall_mem_cons, List.not_mem_nil, false_imp_iff, implies_true, and_true]
  exact ⟨pull_completes s hsr w nofun, pull_completes s hsr w nofun, pull_completes s hsr w nofun⟩

/-- What an instruction pulls does not depend on PC. -/
theorem State.pulled_advance (s : State) (n : Nat) {sr : Reg} (h : sr ≠ .g3 .pc) (w : Width) :
    (s.advance n).pulled sr w = s.load (s.reg sr + 1) w := by
  rw [State.pulled, State.reg_advance, State.seen_of_ne s n h]
  rfl

/-- Where a pull leaves its stack register. -/
theorem State.reg_pull_advance (s : State) (n : Nat) {sr : Reg} (h : sr ≠ .g3 .pc) (w : Width) :
    ((s.advance n).pull sr w).reg sr = s.reg sr + stackWords w := by
  rw [State.reg_pull, if_pos rfl, State.reg_advance, State.seen_of_ne s n h]

/-- PLP (48_group8_stack.md R294). -/
theorem exec_plp (s : State) {sr : Reg} (h : sr ≠ .g3 .pc) : exec (.plp sr) s =
    .next (((s.advance 1).pull sr .byte).setFlags (Flags.ofStatus (s.load (s.reg sr + 1) .byte))) := by
  rw [← State.pulled_advance s 1 h]
  exact onStack_of_ne h _

/-- Settles O37: PLP is a pull into the flags, POP a register write. -/
theorem pullStatusAndDiscard : Obligations.PullStatusAndDiscard := by
  intro w v sr s hsr
  refine ⟨⟨_, exec_plp s hsr, ?_, ((Frame.of_advance s 1).pull sr .byte).setFlags _, rfl⟩,
    ⟨_, onStack_of_ne hsr _, ?_, State.setReg_flags _ _ _, ?_⟩⟩
  · rw [State.reg_setFlags, State.reg_pull_advance s 1 hsr]
    rfl
  · rw [State.reg_setReg_same, State.reg_advance, State.seen_of_ne s _ hsr, BitVec.toNat_add,
      zext_toNat (by cases w <;> decide), BitVec.toNat_setWidth]
  · rw [← Width.len_eq]
    exact (Frame.of_advance s w.len).setReg sr _

/-- Bit 5 of a status byte is always set, bit 4 is as asked (10_state.md R28). -/
theorem status_bits (f : Flags) (b : Bool) : (f.status b).getLsbD 5 = true ∧ (f.status b).getLsbD 4 = b := by
  obtain ⟨n, v, d, i, z, c⟩ := f
  revert n v d i z c b
  decide

/-- Settles O38: the round trip of the byte, and the pull that undoes the push. -/
theorem statusByteRoundTrip : Obligations.StatusByteRoundTrip := by
  refine ⟨fun f b => ⟨ofStatus_status f b, status_bits f b⟩, fun sr s t hs hsr h f => ?_⟩
  obtain ⟨-, rfl⟩ := exec_eq_next_iff.mp h
  have hbyte := State.pulled_push (s := s.advance 1) hs sr .byte (s.flags.status true)
  refine ⟨_, exec_plp _ hsr, (congrArg Flags.ofStatus hbyte).trans (ofStatus_status _ _), ?_⟩
  rw [State.reg_setFlags, State.reg_pull_advance _ 1 hsr, State.reg_setFlags]
  show ((s.advance 1).push sr .byte _).reg sr + stackWords .byte = s.reg sr
  rw [State.reg_push, if_pos rfl, State.reg_advance, State.seen_of_ne s 1 hsr, BitVec.sub_add_cancel]

/-! ### Returns -/

/-- A frame whose registers have PC does not say how long the instruction is. -/
theorem Frame.refl_pc (s : State) (n : Nat) : Frame s s n [.g3 .pc] [] where
  registers r hr := (State.seen_of_ne s n (by simpa using hr)).symm
  memory _ _ := rfl
  nmiPending := rfl
  waiting := rfl
  inputs := rfl
  draws := rfl

/-- Settles O40: RTI is the return from a trap, RTS a pull and a jump. -/
theorem returnsPullThroughTheStackRegister : Obligations.ReturnsPullThroughTheStackRegister := by
  intro sr s hsr
  have hreg : (s.advance 1).reg sr = s.reg sr := (State.reg_advance s 1 sr).trans (State.seen_of_ne s 1 hsr)
  refine ⟨⟨_, onStack_of_ne hsr _, ?_, ?_, ?_, (Frame.of_advance s 1).leaveTrap sr⟩,
    ⟨_, onStack_of_ne hsr _, rfl, ?_, State.pull_flags _ _ _, ?_⟩⟩
  · rw [← State.reg_pc, State.reg_leaveTrap, if_pos rfl, hreg, BitVec.add_assoc]
    rfl
  · rw [State.reg_leaveTrap, if_neg hsr, if_pos rfl, hreg, BitVec.add_assoc]
    rfl
  · rw [State.leaveTrap_flags, hreg]
    rfl
  · rw [State.reg_jump, if_neg hsr, State.reg_pull, if_pos rfl]
    rfl
  · exact (((Frame.refl_pc s 1).pull sr .long).jump _).mono
      (fun r hr => by grind) (fun _ => id)

/-! ### Transfers -/

/-- Settles O41: the law of `State.transfer`, and TXS, which sets no flag. -/
theorem transfersCopyARegister : Obligations.TransfersCopyARegister := by
  intro w r q s
  have transfer (src dst : Reg) := State.transfer_spec s w src dst
  constructor
  · simp only [List.forall_mem_cons, List.not_mem_nil, false_imp_iff, implies_true, and_true]
    exact ⟨⟨_, rfl, transfer _ _⟩, ⟨_, rfl, transfer _ _⟩, ⟨_, rfl, transfer _ _⟩, ⟨_, rfl, transfer _ _⟩,
      ⟨_, rfl, transfer _ _⟩, ⟨_, rfl, transfer _ _⟩, ⟨_, rfl, transfer _ _⟩, ⟨_, rfl, transfer _ _⟩,
      ⟨_, rfl, transfer _ _⟩⟩
  · refine ⟨_, rfl, ?_, State.write_flags _ _ _ _, (Frame.of_advance s 1).write q w _⟩
    rw [State.reg_write_same, State.reg_advance]
    exact holdsLow_replaceLow w _ _

end Sys2Proof.Machine
